-- ==== Sys2Proof/Word.lean ====
section
/-! DEFINITION. The word and byte types of the block (00_scope.md R8, R10) and address ranges.
Everything in the block is unsigned (R10), so a word is a plain bit vector and an address, once
computed, is a natural number: address sums are taken in the natural numbers (R57). -/

namespace Sys2Proof

/-- One byte of the byte binding (20_memory.md R57). -/
abbrev Byte := BitVec 8

/-- One host register access, and one command word: `REG_W` = 32 bits (00_scope.md R8). -/
abbrev Word := BitVec 32

/-- A base and a length in bytes: a span lent to the engine (00_scope.md R14), or a window of the
address space (20_memory.md R60). -/
structure Span where
  base : Nat
  len  : Nat
  deriving DecidableEq, Repr

/-- The first address after the span. -/
def Span.top (a : Span) : Nat := a.base + a.len

/-- The byte at address `x` belongs to the span. -/
def Span.has (a : Span) (x : Nat) : Bool := decide (a.base ≤ x) && decide (x < a.top)

/-- Two spans share a byte; an empty span shares none. -/
def Span.overlaps (a b : Span) : Bool :=
  decide (0 < a.len) && decide (0 < b.len) && decide (a.base < b.top) && decide (b.base < a.top)

end Sys2Proof
end

