-- ==== Sys2Proof/Config.lean ====
section
/-! DEFINITION. The configuration of the block: the three variants and their constants
(00_scope.md R6, R7), the parameters of R8 that are not written into a type, and the free values. -/

namespace Sys2Proof

/-- The three variants of the engine (00_scope.md R6). -/
inductive Variant where
  | s16
  | c32
  | c64
  deriving DecidableEq, Repr

/-- The three constants that fix a variant (00_scope.md R6): element width `W` in bits,
normalization shift `sh`, group size `g`. -/
structure VariantParams where
  width : Nat
  shift : Nat
  group : Nat
  deriving DecidableEq, Repr

/-- `VariantTable : variant -> (W, sh, g)` (00_scope.md R6, R7): no other shift, width or group size
is defined. -/
def Config.variantTable : Variant → VariantParams
  | .s16 => { width := 16, shift := 1, group := 1 }
  | .c32 => { width := 32, shift := 0, group := 2 }
  | .c64 => { width := 64, shift := 2, group := 2 }

/-- `IMPL_VARIANTS` as this hardware has it (00_scope.md R8). The operations that depend on it take
it as an argument, so that a build with fewer variants is the same definition. -/
def Config.implVariants : List Variant := [.s16, .c32, .c64]

/-- A variant is in the build: `S16` always is (00_scope.md R8, 30_encoding.md R83). -/
def Config.built (impl : List Variant) (v : Variant) : Bool := v == .s16 || impl.contains v

/-- `2^ADDR_W` bytes of the byte binding (20_memory.md R57, 00_scope.md R8). -/
def Config.addrSpace : Nat := 2 ^ 32

/-- The length in bytes of the register block: eight 32-bit words (10_state.md R21). -/
def Config.regBlockBytes : Nat := 32

/-- What a byte of memory that nothing has written reads as.
DESIGN CHOICE (log entry 2, unsafe): the spec gives memory no contents at power-on. -/
def Config.unlistedByte : Byte := 0#8

/-- Where the platform has put the register block right after reset.
DESIGN CHOICE (log entry 3, unsafe): "a base address `REGBASE` that the platform chooses" (R21). -/
def Config.resetRegBase : Word := 0x40000000#32

/-- FREE VALUE. What a host read of `CURSOR` returns while `BUSY = 1`, before it is brought into the
range 0 to `zext(BITREVLEN)` (10_state.md R34; 93_implementation_defined.md U12). The argument is the
counter `draws` of State. Log entry 5. -/
opaque Config.freeCursor : Nat → Nat

/-- FREE VALUE. How many of the pairs of the operation an observer finds done at one buffer element
while the buffer is the engine's, or when a reset cuts the operation short, before it is brought into
the range 0 to the number of pairs (20_memory.md R71, 70_reset_and_hazards.md R202;
93_implementation_defined.md U7, U11). The arguments are the counter `draws` of State and the element's
index: two elements need not agree. Log entry 6. -/
opaque Config.freeProgress : Nat → Nat → Nat

/-- FREE VALUE. Which of the open loans whose buffers hold a byte an observer of that byte reads through,
before it is brought into the range of their number (70_reset_and_hazards.md R205;
93_implementation_defined.md U11). The argument is the counter `draws` of State. Log entry 6. -/
opaque Config.freeLoan : Nat → Nat

/-- The element width in bits. -/
def Variant.width (v : Variant) : Nat := (Config.variantTable v).width

/-- The normalization shift. -/
def Variant.shift (v : Variant) : Nat := (Config.variantTable v).shift

/-- The number of contiguous elements of one sample. -/
def Variant.group (v : Variant) : Nat := (Config.variantTable v).group

/-- The element width in bytes, `W/8` (20_memory.md R57). -/
def Variant.bytes (v : Variant) : Nat := v.width / 8

end Sys2Proof
end

