-- ==== Sys2Proof/Syntax.lean ====
section
/-! DEFINITION. The commands of the block as syntax: one constructor for each row of
spec/opcode_table.json (30_encoding.md R80 to R89). The operands of an operation are not in the command
word (R80, R90): they are the operand registers, so a constructor carries only the bits of its word that
its row leaves open. -/

namespace Sys2Proof

/-- One command word, read as 30_encoding.md R86 and R87 say. -/
inductive Instr where
  /-- `applyScalar16` (`CHK = 0`) and `applyScalar16.chk` (`CHK = 1`); 40_apply_scalar16.md R110. -/
  | applyScalar16 (chk : Bool)
  /-- `applyComplex32` and `applyComplex32.chk`; 41_apply_complex32.md R120. -/
  | applyComplex32 (chk : Bool)
  /-- `applyComplex64` and `applyComplex64.chk`; 42_apply_complex64.md R130. -/
  | applyComplex64 (chk : Bool)
  /-- A write with `START = 0`; the bits 31:1 are any and ignored (30_encoding.md R89). -/
  | nop (rest : BitVec 31)
  /-- `START = 1`, `WSEL = 11`, `RSV = 0` (30_encoding.md R88). A word with `RSV` set as well is
  `reservedRsv`, since R86 tests `RSV` first. -/
  | reservedWsel3 (chk : Bool)
  /-- `START = 1`, `RSV` nonzero; the bits 3:1 are any (30_encoding.md R85, R88). -/
  | reservedRsv (rsv : BitVec 28) (low : BitVec 3)
  deriving DecidableEq, Repr

/-- The instruction is a launch attempt: its word has `START = 1` (30_encoding.md R82). -/
def Instr.isLaunchAttempt : Instr → Bool
  | .applyScalar16 _ => true
  | .applyComplex32 _ => true
  | .applyComplex64 _ => true
  | .nop _ => false
  | .reservedWsel3 _ => true
  | .reservedRsv _ _ => true

/-- The variant and the `CHK` bit of an apply operation; none for the other commands. -/
def Instr.launchOf : Instr → Option (Variant × Bool)
  | .applyScalar16 chk => some (.s16, chk)
  | .applyComplex32 chk => some (.c32, chk)
  | .applyComplex64 chk => some (.c64, chk)
  | .nop _ => none
  | .reservedWsel3 _ => none
  | .reservedRsv _ _ => none

/-- The apply operation of a variant: `apply` of 30_encoding.md R96 (a), by the width of its buffer. -/
def Instr.ofVariant : Variant → Bool → Instr
  | .s16, chk => .applyScalar16 chk
  | .c32, chk => .applyComplex32 chk
  | .c64, chk => .applyComplex64 chk

end Sys2Proof
end

