-- ==== Sys2Proof/WellFormed.lean ====
section
/-! DEFINITION. Which terms of Instr are commands: the one condition a row of spec/opcode_table.json
states that the types do not already say (reserved.rsv: `(w & 0xFFFFFFF0) != 0`). -/

namespace Sys2Proof

/-- The term is a command of the block: the reserved-bits row holds a word with some bit of `RSV` set
(30_encoding.md R85, R88). -/
def Instr.wf : Instr → Bool
  | .applyScalar16 _ => true
  | .applyComplex32 _ => true
  | .applyComplex64 _ => true
  | .nop _ => true
  | .reservedWsel3 _ => true
  | .reservedRsv rsv _ => rsv != 0#28

end Sys2Proof
end

