-- ==== Sys2Proof/Decode.lean ====
section
/-! DEFINITION. The command word: its fields, the decoder (30_encoding.md R80 to R88) and the encoder.
The decoder is total on 32-bit words (R86). R86's first test, `STATUS.BUSY`, is a test of the state and
stands in the meanings; the rest of R86 is a function of the word and stands here. -/

namespace Sys2Proof

/-- `START`, bit 0 (30_encoding.md R82). -/
def cmdStart (w : Word) : Bool := w.getLsbD 0

/-- `WSEL`, bits 2:1 (30_encoding.md R83). -/
def cmdWsel (w : Word) : BitVec 2 := w.extractLsb' 1 2

/-- `CHK`, bit 3 (30_encoding.md R84). -/
def cmdChk (w : Word) : Bool := w.getLsbD 3

/-- `RSV`, bits 31:4 (30_encoding.md R85). -/
def cmdRsv (w : Word) : BitVec 28 := w.extractLsb' 4 28

/-- `variant(WSEL)` of 30_encoding.md R86; the code `11` is reserved (R83). -/
def variantOfWsel (c : BitVec 2) : Option Variant :=
  if c = 0b00#2 then some .s16
  else if c = 0b01#2 then some .c32
  else if c = 0b10#2 then some .c64
  else none

/-- The width code of a variant, `log2(W/16)` (30_encoding.md R83). -/
def wselOf : Variant → BitVec 2
  | .s16 => 0b00#2
  | .c32 => 0b01#2
  | .c64 => 0b10#2

/-- The command a 32-bit write to `CMD` carries, in the order of tests of 30_encoding.md R86. Whether a
variant is in the build is tested by the launch (Machine/Engine.lean), as `IMPL_VARIANTS` is a
parameter. -/
def decode (w : Word) : Instr :=
  if cmdStart w = false then .nop (w.extractLsb' 1 31)
  else if cmdRsv w ≠ 0#28 then .reservedRsv (cmdRsv w) (w.extractLsb' 1 3)
  else match variantOfWsel (cmdWsel w) with
    | some v => Instr.ofVariant v (cmdChk w)
    | none => .reservedWsel3 (cmdChk w)

/-- Why a sequence of bytes is not a command. -/
inductive DecodeError where
  /-- Fewer than the four bytes that every command has (30_encoding.md R81). -/
  | truncated
  deriving DecidableEq, Repr

/-- The decoder on bytes, the byte at the lowest place first (20_memory.md R58): every command is
exactly one 32-bit word (30_encoding.md R81), and the rest of the bytes is handed back. -/
def decodeBytes : List Byte → Except DecodeError (Instr × List Byte)
  | b0 :: b1 :: b2 :: b3 :: rest => .ok (decode (b3 ++ b2 ++ b1 ++ b0), rest)
  | _ => .error .truncated

/-- A launch word: `0x1 | (WSEL << 1) | (CHK << 3)` (30_encoding.md R87, R95). -/
def launchWord (v : Variant) (chk : Bool) : Word :=
  0#28 ++ BitVec.ofBool chk ++ wselOf v ++ 1#1

/-- The word of a command (30_encoding.md R80, R87 to R89). -/
def encode : Instr → Word
  | .applyScalar16 chk => launchWord .s16 chk
  | .applyComplex32 chk => launchWord .c32 chk
  | .applyComplex64 chk => launchWord .c64 chk
  | .nop rest => rest ++ 0#1
  | .reservedWsel3 chk => 0#28 ++ BitVec.ofBool chk ++ 0b11#2 ++ 1#1
  | .reservedRsv rsv low => rsv ++ low ++ 1#1

/-- The four bytes of a word, the lowest first (20_memory.md R58). -/
def wordBytes (w : Word) : List Byte :=
  [w.extractLsb' 0 8, w.extractLsb' 8 8, w.extractLsb' 16 8, w.extractLsb' 24 8]

/-- The instruction the decoder reads from a row of spec/opcode_table.json: `nbits` bits `w`, every bit
above them 0. A row longer than the one command length (30_encoding.md R81) is no command. -/
def decodeTableWord (nbits w : Nat) : Option Instr :=
  if 32 < nbits then none
  else match decodeBytes (wordBytes (BitVec.ofNat 32 (w % 2 ^ nbits))) with
    | .ok (i, _) => some i
    | .error _ => none

end Sys2Proof
end

