-- ==== Sys2Proof/Machine/State.lean ====
section
/-! DEFINITION. The state of the machine (10_state.md R20 to R36): the engine's registers, its internal
phase and temporaries; the memory under it (20_memory.md R57); and what the model needs beside them to
take one step at a time: the host's accesses still to come, the replies it got, whose turn is next while
an operation runs. State is plain data. -/

namespace Sys2Proof.Machine

/-- The codes of `STATUS.ERR` (60_exceptions.md R171); 6 and 7 are never produced and have no
constructor. -/
inductive ErrCode where
  | none
  /-- `E_MODE`, code 1 (R172) -/
  | mode
  /-- `E_ALIGN`, code 2 (R173) -/
  | align
  /-- `E_ODDLEN`, code 3 (R174) -/
  | oddLen
  /-- `E_TABLEN`, code 4 (R175) -/
  | tabLen
  /-- `E_RANGE`, code 5 (R176) -/
  | range
  deriving DecidableEq, Repr

/-- The fields `DONE` and `ERR` of `STATUS` (10_state.md R23). `BUSY` is the same fact as
`PHASE != IDLE` (R23, R30) and is stored once, as `Engine.phase`; the reserved bits always read 0. The
32-bit word the host reads is `statusWord` (Machine/Flags.lean). -/
structure Status where
  done : Bool
  err  : ErrCode
  deriving DecidableEq, Repr

/-- `PHASE` (10_state.md R30). -/
inductive Phase where
  | idle
  | validate
  | permute
  deriving DecidableEq, Repr

/-- Where in the access order of 43_engine_common.md R150 the engine stands inside its phase. The
model's own (DESIGN CHOICE, log entry 11): it splits a pair into its single memory accesses, as R146
allows. -/
inductive Stage where
  /-- validation: test `Tab[CURSOR]` -/
  | testEntry
  /-- validation: advance `CURSOR` by 1, then test `Tab[CURSOR]` -/
  | nextEntry
  /-- pair: read `Tab[CURSOR]` into `rawA`, or complete; also where an idle engine rests -/
  | readA
  /-- pair: read `Tab[CURSOR+1]` into `rawB` -/
  | readB
  /-- exchange: read the `a` side into `t0` -/
  | loadA
  /-- exchange: read the `b` side into `t1` -/
  | loadB
  /-- exchange: write `t1` to the `a` side -/
  | storeA
  /-- exchange: write `t0` to the `b` side -/
  | storeB
  deriving DecidableEq, Repr

/-- The temporaries of one pair (10_state.md R31). `t0` and `t1` hold a W-bit element in their low W
bits. -/
structure Temps where
  rawA : BitVec 16
  rawB : BitVec 16
  a    : BitVec 16
  b    : BitVec 16
  k    : BitVec 1
  t0   : BitVec 64
  t1   : BitVec 64
  deriving DecidableEq, Repr

/-- The complete state of one engine (10_state.md R20). -/
structure Engine where
  cmd       : BitVec 32
  status    : Status
  bufBase   : BitVec 32
  nElem     : BitVec 32
  tabBase   : BitVec 32
  tabLen    : BitVec 32
  bitRevLen : BitVec 16
  cursor    : BitVec 17
  phase     : Phase
  stage     : Stage
  tmp       : Temps
  deriving DecidableEq, Repr

/-- The eight registers of the block (10_state.md R21). -/
inductive Reg where
  | cmd
  | status
  | bufBase
  | nElem
  | tabBase
  | tabLen
  | bitRevLen
  | cursor
  deriving DecidableEq, Repr

/-- Memory, as a list of (address, byte) in one canonical form (`Memory.wf`, Machine/Ops.lean): one flat
space of `2^ADDR_W` bytes (20_memory.md R57). -/
abbrev Memory := List Host.Cell

/-- One memory access of the engine (20_memory.md R62): the read of table entry `j`, the read or the
write of buffer element `k`. -/
inductive Access where
  | readEntry (j : Nat)
  | readElem (k : Nat)
  | writeElem (k : Nat)
  deriving DecidableEq, Repr

/-- One thing the outside world does to the block or to the memory (00_scope.md R15). -/
inductive Input where
  /-- a host write of `value` at byte offset `off` of the register block, `size` bytes wide
  (10_state.md R21); offset 0 is the issue of a command (R22) -/
  | regWrite (off size : Nat) (value : BitVec 32)
  /-- a host read at byte offset `off` of the register block, `size` bytes wide -/
  | regRead (off size : Nat)
  /-- the poll loop: read `STATUS` until `BUSY = 0` (30_encoding.md R95, R96 (b)) -/
  | poll
  /-- the host, or any other agent, writes bytes to memory from `addr` up -/
  | memWrite (addr : BitVec 32) (data : List (BitVec 8))
  /-- the host, or any other agent, reads `len` bytes of memory from `addr` up -/
  | memRead (addr : BitVec 32) (len : Nat)
  /-- the platform applies reset (70_reset_and_hazards.md R200) -/
  | reset
  deriving DecidableEq, Repr

/-- What a read gave the agent that made it. -/
inductive Reply where
  | register (r : Reg) (value : BitVec 32)
  | memory (addr : BitVec 32) (bytes : List (BitVec 8))
  deriving DecidableEq, Repr

/-- Whose turn the next step is while `BUSY = 1`: one memory access (or one test, or the completion) of
the engine, or one access of the host. -/
inductive Turn where
  | engine
  | host
  deriving DecidableEq, Repr

/-- What was lent to the engine at an accepted launch (20_memory.md R67): the variant, the engine
right after acceptance (so the operand registers as they then were) and the memory at that moment. -/
structure Lease where
  variant : Variant
  eng     : Engine
  mem     : Memory
  deriving DecidableEq, Repr

/-- What the platform fixes about the address space (20_memory.md R60, R63): where the register block
stands, and the windows that are not ordinary memory. -/
structure Platform where
  regBase : BitVec 32
  devices : List Span
  deriving DecidableEq, Repr

/-- The machine. -/
structure State where
  /-- the engine (10_state.md R20) -/
  eng      : Engine
  /-- the memory that holds buffer and table (20_memory.md R57) -/
  mem      : Memory
  /-- the accesses of the outside world still to come, the next one first (the model's own, log
  entry 4) -/
  inputs   : List Input
  /-- what the reads gave, the newest first (the model's own, log entry 15) -/
  replies  : List Reply
  /-- whose turn is next while `BUSY = 1`; when it is empty the operation runs to its end in one step,
  the atomic view of 43_engine_common.md R148 (the model's own, log entry 7) -/
  sched    : List Turn
  /-- the engine's memory accesses since the last accepted launch, the newest first
  (20_memory.md R62, 43_engine_common.md R150; the model's own, log entry 15) -/
  trace    : List Access
  /-- the loans that are open, the newest first: each from its accepted launch until a read of `STATUS`
  shows `BUSY = 0`, later launches or not (70_reset_and_hazards.md R205; DEDUCED, log entry 9) -/
  loans    : List Lease
  /-- how many free values have been drawn (the model's own, log entries 5 and 6) -/
  draws    : Nat
  /-- the platform's address map -/
  platform : Platform
  deriving DecidableEq, Repr

/-- Why the machine stops with a fault. -/
inductive Fault where
  /-- U1, 43_engine_common.md R163 (a): an unchecked launch with an odd nonzero count. Raised by the
  launch. Safe: the spec gives the operation no result. -/
  | oddCount
  /-- U2, R163 (b): an unchecked launch whose count is not the table's length. Raised by the launch.
  Safe. -/
  | tableLengthMismatch
  /-- U3, R163 (c): an unchecked launch with a normalized index outside the buffer. Raised by the
  launch. Safe. -/
  | indexOutOfRange
  /-- 20_memory.md R53: an entry at or beyond the table's length does not exist. Raised by an engine
  access, only in states no run reaches. Safe. -/
  | entryOutsideTable
  /-- 20_memory.md R51: an element at or beyond N does not exist. Raised by an engine access, only in
  states no run reaches. Safe. -/
  | elementOutsideBuffer
  /-- 00_scope.md R7: a running operation with the reserved width code in `CMD`. Raised by an engine
  step, only in states no run reaches. Safe. -/
  | reservedVariantRunning
  /-- 20_memory.md R57: a memory access that leaves the `2^ADDR_W` bytes. Raised by a host memory
  access; by an engine access only in states no run reaches. Safe. -/
  | addressBeyondSpace
  deriving DecidableEq, Repr

/-- Why the model gives an access or a launch no meaning. -/
inductive Refusal where
  /-- An instruction without a meaning yet. Raised by no arm of this model. Safe. -/
  | notModelled (mnemonic : String)
  /-- U15, 10_state.md R21: a register access that is not one aligned 32-bit access. Raised by a host
  register access. Safe. -/
  | registerAccessShape
  /-- U15, R21: an offset of `0x20` or above. Raised by a host register access. Safe. -/
  | registerOffset
  /-- U9, 20_memory.md R57: a launch with a span that wraps the top of the address space. Safe. -/
  | spanWraps
  /-- U8, 70_reset_and_hazards.md R208: a launch with overlapping buffer and table spans. Safe. -/
  | spansOverlap
  /-- U10, 20_memory.md R60, R63: a launch with a span on the register block or on a device. Safe. -/
  | spanNotOrdinaryMemory
  /-- U5, U11, 70_reset_and_hazards.md R205: another agent's write to the lent buffer. Raised by a
  memory write. Safe. -/
  | bufferWriteWhileLent
  /-- U6, R206: another agent's write to the table of a running operation. Raised by a memory write.
  Safe. -/
  | tableWriteWhileBusy
  /-- U10: a memory access of the host to the register block's window or to a device, whose behaviour
  as memory the spec does not give. Raised by a host memory access. Safe. -/
  | deviceAccess
  deriving DecidableEq, Repr

/-- The outcome of one step of this machine. -/
abbrev Outcome := Host.Outcome State Fault Refusal

/-- The temporaries after reset: "unspecified; never read before written" (10_state.md R36).
DESIGN CHOICE zero, log entry 1. -/
def Temps.reset : Temps :=
  { rawA := 0#16, rawB := 0#16, a := 0#16, b := 0#16, k := 0#1, t0 := 0#64, t1 := 0#64 }

/-- The engine after reset (10_state.md R36, 70_reset_and_hazards.md R200). -/
def Engine.reset : Engine :=
  { cmd := 0#32, status := { done := false, err := .none }, bufBase := 0#32, nElem := 0#32,
    tabBase := 0#32, tabLen := 0#32, bitRevLen := 0#16, cursor := 0#17, phase := .idle,
    stage := .readA, tmp := Temps.reset }

/-- The machine right after reset: the engine as R36 says, no memory written, nothing asked of it. -/
def State.reset : State :=
  { eng := Engine.reset, mem := [], inputs := [], replies := [], sched := [], trace := [],
    loans := [], draws := 0,
    platform := { regBase := Config.resetRegBase, devices := [] } }

end Sys2Proof.Machine
end

