-- ==== Sys2Proof/Machine/Flags.lean ====
section
/-! DEFINITION. The block's only flags: the fields of `STATUS` (10_state.md R23, R32) and the error codes
of 60_exceptions.md R171. -/

namespace Sys2Proof.Machine

/-- The code of an error in `STATUS.ERR` (60_exceptions.md R171). -/
def ErrCode.code : ErrCode → BitVec 3
  | .none => 0#3
  | .mode => 1#3
  | .align => 2#3
  | .oddLen => 3#3
  | .tabLen => 4#3
  | .range => 5#3

/-- `STATUS.BUSY = (PHASE != IDLE)` (10_state.md R23, R30). -/
def Engine.busy (e : Engine) : Bool := e.phase != .idle

/-- `STATUS.BUSY` of the machine. -/
def State.busy (s : State) : Bool := s.eng.busy

/-- `STATUS` as a host reads it (10_state.md R23): bit 0 `BUSY`, bit 1 `DONE`, bits 3:2 zero, bits 6:4
`ERR`, bits 31:7 zero. -/
def Engine.statusWord (e : Engine) : BitVec 32 :=
  0#25 ++ e.status.err.code ++ 0#2 ++ BitVec.ofBool e.status.done ++ BitVec.ofBool e.busy

/-- The fields at a launch attempt decoded with `BUSY = 0` and accepted (43_engine_common.md R141). -/
def Status.launched : Status := { done := false, err := .none }

/-- The fields after an error (60_exceptions.md R172, R178). -/
def Status.failed (code : ErrCode) : Status := { done := false, err := code }

/-- `DONE <- 1`, `ERR` left as it is (43_engine_common.md R147). -/
def Status.completed (f : Status) : Status := { f with done := true }

end Sys2Proof.Machine
end

