-- ==== Sys2Proof/Machine/Ops.lean ====
section
/-! DEFINITION. The named operations over memory (20_memory.md R57, R58) and over the engine's registers:
launch acceptance (43_engine_common.md R141), normal completion (R147), and error entry, once
(60_exceptions.md R178) with the rejection of a reserved command beside it (R172). The block has no return
from an error, since nothing was entered (R180). -/

namespace Sys2Proof.Machine

/-! ### Memory -/

/-- The byte at an address. -/
def Memory.read : Memory → Nat → Byte
  | [], _ => Config.unlistedByte
  | c :: m, a => if c.1 = a then c.2 else Memory.read m a

/-- Store one byte, keeping the canonical form: storing what an unlisted address reads as removes the
entry. -/
def Memory.write : Memory → Nat → Byte → Memory
  | [], a, v => if v = Config.unlistedByte then [] else [(a, v)]
  | c :: m, a, v =>
    if a < c.1 then (if v = Config.unlistedByte then c :: m else (a, v) :: c :: m)
    else if a = c.1 then (if v = Config.unlistedByte then m else (a, v) :: m)
    else c :: Memory.write m a v

/-- The canonical form: addresses strictly rising and inside the `2^ADDR_W` bytes, and no entry equal to
what an unlisted address reads as. -/
abbrev Memory.wf (m : Memory) : Prop :=
  List.Pairwise (fun c d => c.1 < d.1) m ∧
    ∀ c ∈ m, c.2 ≠ Config.unlistedByte ∧ c.1 < Config.addrSpace

/-- `MemRead(a, n)`: `n` bytes as a number, the byte at the lowest address lowest
(20_memory.md R57, R58). -/
def Memory.readLE (m : Memory) (a : Nat) : Nat → Nat
  | 0 => 0
  | n + 1 => (m.read a).toNat + 256 * Memory.readLE m (a + 1) n

/-- `MemWrite(a, n, v)`: the low `n` bytes of `v`, the lowest first (20_memory.md R57, R58). -/
def Memory.writeLE (m : Memory) (a : Nat) : Nat → Nat → Memory
  | 0, _ => m
  | n + 1, v => Memory.writeLE (m.write a (BitVec.ofNat 8 v)) (a + 1) n (v / 256)

/-- Bytes from an address up. -/
def Memory.writeBytes (m : Memory) (a : Nat) : List Byte → Memory
  | [] => m
  | b :: bs => Memory.writeBytes (m.write a b) (a + 1) bs

/-! ### The life of one operation: acceptance, completion, error -/

/-- `PHASE` that an accepted launch with work to do enters (10_state.md R30), and the stage in it. -/
def firstPhase (chk : Bool) : Phase × Stage :=
  if chk then (.validate, .testEntry) else (.permute, .readA)

/-- Launch acceptance, all at once (43_engine_common.md R141): `CMD` holds the word, `DONE` and `ERR` are
cleared, `CURSOR` is 0, `BUSY` is 1. The buffer and the table are lent from here on
(20_memory.md R67). Loans of earlier launches that no read of `STATUS` has closed stay open beside it
(70_reset_and_hazards.md R205; DEDUCED, log entry 9). -/
def accept (v : Variant) (chk : Bool) (s : State) : State :=
  let e : Engine :=
    { s.eng with
      cmd := launchWord v chk
      status := Status.launched
      cursor := 0#17
      phase := (firstPhase chk).1
      stage := (firstPhase chk).2 }
  { s with eng := e, trace := [], loans := { variant := v, eng := e, mem := s.mem } :: s.loans }

/-- Normal completion (43_engine_common.md R147, R143): `BUSY <- 0`, `DONE <- 1`, `ERR` and `CURSOR` left
as they are. -/
def complete (s : State) : State :=
  { s with eng :=
    { s.eng with phase := .idle, stage := .readA, status := s.eng.status.completed } }

/-- Error entry `raise Err(code, cur)` for an accepted operation (60_exceptions.md R178): `BUSY <- 0`,
`DONE <- 0`, `ERR <- code`, `CURSOR <- cur`, `PHASE <- IDLE`; `CMD`, the operand registers and memory are
left as they are, and control goes nowhere. -/
def raiseErr (code : ErrCode) (cur : BitVec 17) (s : State) : State :=
  { s with eng :=
    { s.eng with phase := .idle, stage := .readA, status := Status.failed code, cursor := cur } }

/-- The rejection of a reserved launch attempt (60_exceptions.md R172, 30_encoding.md R88):
`DONE <- 0`, `ERR <- E_MODE`, `CURSOR <- 0`; `CMD`, `BUSY` and memory are left as they are. -/
def rejectMode (s : State) : State :=
  { s with eng := { s.eng with status := Status.failed .mode, cursor := 0#17 } }

/-- The engine's registers at reset; memory is neither read nor written (70_reset_and_hazards.md R200,
R201). -/
def resetEngine (s : State) : State := { s with eng := Engine.reset, trace := [] }

/-- The engine records a memory access (43_engine_common.md R150). -/
def State.log (x : Access) (s : State) : State := { s with trace := x :: s.trace }

/-- Memory changes and nothing else does. -/
def State.setMem (m : Memory) (s : State) : State := { s with mem := m }

/-- `CURSOR <- c`. -/
def State.setCursor (c : BitVec 17) (s : State) : State := { s with eng := { s.eng with cursor := c } }

/-- The engine moves on inside its phase. -/
def State.setStage (g : Stage) (s : State) : State := { s with eng := { s.eng with stage := g } }

/-- The temporaries of the pair (10_state.md R31). -/
def State.setTmp (t : Temps) (s : State) : State := { s with eng := { s.eng with tmp := t } }

/-- `VALIDATE -> PERMUTE` (10_state.md R30), `CURSOR <- 0` (43_engine_common.md R144 (d)). -/
def State.beginPermute (s : State) : State :=
  { s with eng := { s.eng with cursor := 0#17, phase := .permute, stage := .readA } }

end Sys2Proof.Machine
end

