-- ==== Sys2Proof/Machine/Operands.lean ====
section
/-! DEFINITION. The operands: the register block as a host reaches it (10_state.md R21 to R29, R33), the
spans and their tests (20_memory.md R57, R59, R60; 70_reset_and_hazards.md R208), the table entries and
buffer elements (20_memory.md R51, R53), and the way from a table entry to an element
(30_encoding.md R91 to R93). -/

namespace Sys2Proof.Machine

/-! ### The register block -/

/-- Byte offsets (10_state.md R21). -/
def Reg.offset : Reg → Nat
  | .cmd => 0x00
  | .status => 0x04
  | .bufBase => 0x08
  | .nElem => 0x0C
  | .tabBase => 0x10
  | .tabLen => 0x14
  | .bitRevLen => 0x18
  | .cursor => 0x1C

/-- The register at a byte offset; none at an offset that is not a register's. -/
def Reg.ofOffset (off : Nat) : Option Reg :=
  if off = 0x00 then some .cmd
  else if off = 0x04 then some .status
  else if off = 0x08 then some .bufBase
  else if off = 0x0C then some .nElem
  else if off = 0x10 then some .tabBase
  else if off = 0x14 then some .tabLen
  else if off = 0x18 then some .bitRevLen
  else if off = 0x1C then some .cursor
  else none

/-- What a register holds, zero-extended to 32 bits (10_state.md R21). -/
def Engine.regWord (e : Engine) : Reg → Word
  | .cmd => e.cmd
  | .status => e.statusWord
  | .bufBase => e.bufBase
  | .nElem => e.nElem
  | .tabBase => e.tabBase
  | .tabLen => e.tabLen
  | .bitRevLen => e.bitRevLen.setWidth 32
  | .cursor => e.cursor.setWidth 32

/-- A host write to a register other than `CMD` while `BUSY = 0`: an operand register takes the value,
`BITREVLEN` its low 16 bits (10_state.md R29); a write to `STATUS` or `CURSOR` is ignored (R21). `CMD` is
written by an accepted launch only (R22). -/
def Engine.writeReg (e : Engine) (r : Reg) (v : Word) : Engine :=
  match r with
  | .cmd => e
  | .status => e
  | .bufBase => { e with bufBase := v }
  | .nElem => { e with nElem := v }
  | .tabBase => { e with tabBase := v }
  | .tabLen => { e with tabLen := v }
  | .bitRevLen => { e with bitRevLen := v.setWidth 16 }
  | .cursor => e

/-- `zext(BITREVLEN)`, the number of table entries of the operation (10_state.md R29). -/
def Engine.count (e : Engine) : Nat := e.bitRevLen.toNat

/-- The variant that is running, from `CMD.WSEL` (10_state.md R22). -/
def Engine.variant (e : Engine) : Option Variant := variantOfWsel (cmdWsel e.cmd)

/-! ### From a table entry to elements -/

/-- Normalization `raw >> sh` (30_encoding.md R91). -/
def normIndex (v : Variant) (raw : BitVec 16) : BitVec 16 := raw >>> v.shift

/-- Element `g*idx + c` of the sample `idx` (30_encoding.md R92), over the natural numbers (R93). -/
def elemIndex (v : Variant) (idx : BitVec 16) (c : Nat) : Nat := v.group * idx.toNat + c

/-- The highest element index an entry would touch, `g*(raw >> sh) + (g-1)` (43_engine_common.md R144). -/
def topElem (v : Variant) (raw : BitVec 16) : Nat := elemIndex v (normIndex v raw) (v.group - 1)

/-! ### Buffer and table in the byte binding -/

/-- Byte address of buffer element `k` (20_memory.md R57). -/
def elemAddr (v : Variant) (e : Engine) (k : Nat) : Nat := e.bufBase.toNat + k * v.bytes

/-- Byte address of table entry `j` (20_memory.md R57). -/
def entryAddr (e : Engine) (j : Nat) : Nat := e.tabBase.toNat + 2 * j

/-- `Buf[k]`, zero-extended to 64 bits (20_memory.md R51, R57). -/
def bufElem (v : Variant) (e : Engine) (m : Memory) (k : Nat) : BitVec 64 :=
  BitVec.ofNat 64 (m.readLE (elemAddr v e k) v.bytes)

/-- `Tab[j]` (20_memory.md R53, R57). -/
def tabEntry (e : Engine) (m : Memory) (j : Nat) : BitVec 16 :=
  BitVec.ofNat 16 (m.readLE (entryAddr e j) 2)

/-- `Buf[k] <- x`: the low W bits of `x` (20_memory.md R57). -/
def setBufElem (v : Variant) (e : Engine) (m : Memory) (k : Nat) (x : BitVec 64) : Memory :=
  m.writeLE (elemAddr v e k) v.bytes x.toNat

/-- The buffer span in bytes: `NELEM` elements from `BUFBASE` up. -/
def bufSpan (v : Variant) (e : Engine) : Span :=
  { base := e.bufBase.toNat, len := e.nElem.toNat * v.bytes }

/-- The table span in bytes: `TABLEN` entries from `TABBASE` up. -/
def tabSpan (e : Engine) : Span := { base := e.tabBase.toNat, len := 2 * e.tabLen.toNat }

/-- The register block's window in the address space (10_state.md R21, 20_memory.md R60). -/
def Platform.regWindow (p : Platform) : Span :=
  { base := p.regBase.toNat, len := Config.regBlockBytes }

/-- Every byte of the span is ordinary memory (20_memory.md R60, R63). -/
def Platform.ordinary (p : Platform) (a : Span) : Bool :=
  !(a.overlaps p.regWindow) && p.devices.all (fun d => !(a.overlaps d))

/-! ### The tests of a launch -/

/-- The alignment test: `TABBASE` a multiple of 2, `BUFBASE` a multiple of `W/8`
(20_memory.md R59, 60_exceptions.md R173). -/
def aligned (v : Variant) (e : Engine) : Bool :=
  decide (e.tabBase.toNat % 2 = 0) && decide (e.bufBase.toNat % v.bytes = 0)

/-- The count is odd (60_exceptions.md R174, 43_engine_common.md R163 (a)). -/
def oddCount (e : Engine) : Bool := decide (e.count % 2 = 1)

/-- The count equals the table's length (60_exceptions.md R175, 43_engine_common.md R163 (b)). -/
def lengthMatches (e : Engine) : Bool := decide (e.count = e.tabLen.toNat)

/-- Entry `j` names elements inside the buffer (43_engine_common.md R144 (c), R163 (c)). -/
def entryInRange (v : Variant) (e : Engine) (m : Memory) (j : Nat) : Bool :=
  decide (topElem v (tabEntry e m j) < e.nElem.toNat)

/-- Every entry of the operation names elements inside the buffer (43_engine_common.md R163 (c)). -/
def allInRange (v : Variant) (e : Engine) (m : Memory) : Bool :=
  (List.range e.count).all (fun j => entryInRange v e m j)

/-- Neither span wraps the top of the address space (20_memory.md R57). -/
def spansInSpace (v : Variant) (e : Engine) : Bool :=
  decide ((bufSpan v e).top ≤ Config.addrSpace) && decide ((tabSpan e).top ≤ Config.addrSpace)

/-- The two spans share no byte (70_reset_and_hazards.md R208). -/
def spansApart (v : Variant) (e : Engine) : Bool := !((bufSpan v e).overlaps (tabSpan e))

/-- Both spans are ordinary memory (20_memory.md R60, R63). -/
def spansOrdinary (v : Variant) (p : Platform) (e : Engine) : Bool :=
  p.ordinary (bufSpan v e) && p.ordinary (tabSpan e)

/-- The premises of 43_engine_common.md R163 (a) to (c) with a nonzero count and aligned bases: the
launch permutes the buffer. -/
def contractHolds (v : Variant) (e : Engine) (m : Memory) : Bool :=
  decide (e.count ≠ 0) && aligned v e && !(oddCount e) && lengthMatches e && allInRange v e m

end Sys2Proof.Machine
end

