-- ==== Sys2Proof/Machine/Permute.lean ====
section
/-! DEFINITION. The generic routine as a function in the element view (43_engine_common.md R145, R149,
30_encoding.md R96), the bit-reversal permutation and the tables that describe it (R165). A buffer is a
function from element indices to elements, a table a function from entry indices to raw values; N and the
count stand beside them. -/

namespace Sys2Proof.Machine

variable {α : Type}

/-- `swap(B, k1, k2)`: the buffer that agrees with `B` everywhere except that element `k1` holds `B[k2]`
and element `k2` holds `B[k1]` (43_engine_common.md R149). -/
def swapElems (B : Nat → α) (k1 k2 : Nat) : Nat → α :=
  fun k => if k = k1 then B k2 else if k = k2 then B k1 else B k

/-- The exchanges of the components `0 .. c-1` of the samples `a` and `b`, component 0 first
(43_engine_common.md R145, `for c = 0 .. g-1`). -/
def exchangeComponents (g a b : Nat) : Nat → (Nat → α) → (Nat → α)
  | 0, B => B
  | c + 1, B => swapElems (exchangeComponents g a b c B) (g * a + c) (g * b + c)

/-- `pair(B, rawA, rawB)` (43_engine_common.md R145). -/
def pairExchange (sh g : Nat) (B : Nat → α) (rawA rawB : BitVec 16) : Nat → α :=
  exchangeComponents g (rawA >>> sh).toNat (rawB >>> sh).toNat g B

/-- The first `p` pairs of the table, in table order (43_engine_common.md R145). -/
def applyPairs (sh g : Nat) (B : Nat → α) (T : Nat → BitVec 16) : Nat → (Nat → α)
  | 0 => B
  | p + 1 => pairExchange sh g (applyPairs sh g B T p) (T (2 * p)) (T (2 * p + 1))

/-- `apply(B, T, n)` for an even count `n` (43_engine_common.md R145). -/
def apply (sh g : Nat) (B : Nat → α) (T : Nat → BitVec 16) (n : Nat) : Nat → α :=
  applyPairs sh g B T (n / 2)

/-- The buffer after `p` pairs of the operation that engine `e` carries, from memory `m`. -/
def bufAfter (v : Variant) (e : Engine) (m : Memory) (p : Nat) : Nat → BitVec 64 :=
  applyPairs v.shift v.group (bufElem v e m) (tabEntry e m) p

/-- `rev_m(i)`: bit `j` of the result is bit `m-1-j` of `i` (43_engine_common.md R165). -/
def bitRev : Nat → Nat → Nat
  | 0, _ => 0
  | m + 1, i => (i % 2) * 2 ^ m + bitRev m (i / 2)

/-- The normalized indices of the first `n` entries lie below `M` (20_memory.md R55 (b)). -/
def indicesBelow (sh M : Nat) (T : Nat → BitVec 16) (n : Nat) : Prop :=
  ∀ j, j < n → (T j >>> sh).toNat < M

/-- The table is disjoint: its normalized indices are pairwise distinct (43_engine_common.md R165). -/
def tableDisjoint (sh : Nat) (T : Nat → BitVec 16) (n : Nat) : Prop :=
  ∀ i j, i < n → j < n → (T i >>> sh).toNat = (T j >>> sh).toNat → i = j

/-- Pair `p` as an unordered pair of positions, the smaller first. -/
def pairPositions (sh : Nat) (T : Nat → BitVec 16) (p : Nat) : Nat × Nat :=
  (min (T (2 * p) >>> sh).toNat (T (2 * p + 1) >>> sh).toNat,
   max (T (2 * p) >>> sh).toNat (T (2 * p + 1) >>> sh).toNat)

/-- A bit-reversal table for `2^m` positions under shift `sh`: its unordered pairs are exactly the
`(i, rev_m(i))` with `i < rev_m(i)`, each once (43_engine_common.md R165). -/
def bitReversalTable (sh m : Nat) (T : Nat → BitVec 16) (n : Nat) : Prop :=
  n % 2 = 0 ∧
    List.Perm ((List.range (n / 2)).map (pairPositions sh T))
      (((List.range (2 ^ m)).filter (fun i => decide (i < bitRev m i))).map (fun i => (i, bitRev m i)))

end Sys2Proof.Machine
end

