-- ==== Sys2Proof/Machine/Engine.lean ====
section
/-! DEFINITION. The engine: its single steps (43_engine_common.md R144, R146, R150), the run of an
operation to its end (R148), and the launch of an operation (R140 to R144, R163), shared by the three
apply operations. -/

namespace Sys2Proof.Machine

/-! ### Guarded accesses -/

/-- The engine reads `Tab[j]`, which exists only for `j < TABLEN` (20_memory.md R53). -/
def readEntry (j : Nat) (s : State) (f : BitVec 16 → State → Outcome) : Outcome :=
  if s.eng.tabLen.toNat ≤ j then .fault .entryOutsideTable
  else if Config.addrSpace < entryAddr s.eng j + 2 then .fault .addressBeyondSpace
  else f (tabEntry s.eng s.mem j) (s.log (.readEntry j))

/-- The element `Buf[k]` exists only for `k < NELEM` (20_memory.md R51). -/
def guardElem (v : Variant) (k : Nat) (s : State) (out : Outcome) : Outcome :=
  if s.eng.nElem.toNat ≤ k then .fault .elementOutsideBuffer
  else if Config.addrSpace < elemAddr v s.eng k + v.bytes then .fault .addressBeyondSpace
  else out

/-- The engine reads `Buf[k]`. -/
def readElem (v : Variant) (k : Nat) (s : State) (f : BitVec 64 → State → Outcome) : Outcome :=
  guardElem v k s (f (bufElem v s.eng s.mem k) (s.log (.readElem k)))

/-- The engine writes `Buf[k]`. -/
def writeElem (v : Variant) (k : Nat) (x : BitVec 64) (s : State) (f : State → Outcome) : Outcome :=
  guardElem v k s (f ((s.setMem (setBufElem v s.eng s.mem k x)).log (.writeElem k)))

/-! ### The validation pass -/

/-- The result of testing one entry: `E_RANGE` at `CURSOR`, the end of the pass after the last entry, or
the next entry (43_engine_common.md R144 (c), (d)). -/
def entryTested (v : Variant) (raw : BitVec 16) (s : State) : Outcome :=
  if s.eng.nElem.toNat ≤ topElem v raw then .next (raiseErr .range s.eng.cursor s)
  else if s.eng.count ≤ s.eng.cursor.toNat + 1 then .next s.beginPermute
  else .next (s.setStage .nextEntry)

/-- One step of the validation pass: one table entry (43_engine_common.md R144 (c)). -/
def validateStep (v : Variant) (s : State) : Outcome :=
  let t := if s.eng.stage = .nextEntry then s.setCursor (s.eng.cursor + 1#17) else s
  readEntry t.eng.cursor.toNat t (entryTested v)

/-! ### The permute pass -/

/-- The element of side `a` of the exchange in progress, `g*a + k` (43_engine_common.md R150). -/
def sideA (v : Variant) (e : Engine) : Nat := elemIndex v e.tmp.a e.tmp.k.toNat

/-- The element of side `b` of the exchange in progress, `g*b + k`. -/
def sideB (v : Variant) (e : Engine) : Nat := elemIndex v e.tmp.b e.tmp.k.toNat

/-- An exchange is done: the next component, or the next pair, `CURSOR <- i + 2`
(43_engine_common.md R146, R150). -/
def exchangeDone (v : Variant) (s : State) : State :=
  if s.eng.tmp.k.toNat + 1 < v.group then
    (s.setTmp { s.eng.tmp with k := s.eng.tmp.k + 1#1 }).setStage .loadA
  else (s.setCursor (s.eng.cursor + 2#17)).setStage .readA

/-- One step of the permute pass: one memory access, or the completion (43_engine_common.md R146, R147,
R150). The two stages of the validation pass stand in a permute pass in no state a run reaches; they are
taken as the start of a pair. -/
def permuteStep (v : Variant) (s : State) : Outcome :=
  match s.eng.stage with
  | .readA | .testEntry | .nextEntry =>
    if s.eng.count ≤ s.eng.cursor.toNat then .next (complete s)
    else
      readEntry s.eng.cursor.toNat s fun raw t =>
        .next ((t.setTmp { t.eng.tmp with rawA := raw, a := normIndex v raw }).setStage .readB)
  | .readB =>
    readEntry (s.eng.cursor.toNat + 1) s fun raw t =>
      .next ((t.setTmp { t.eng.tmp with rawB := raw, b := normIndex v raw, k := 0#1 }).setStage .loadA)
  | .loadA =>
    readElem v (sideA v s.eng) s fun x t => .next ((t.setTmp { t.eng.tmp with t0 := x }).setStage .loadB)
  | .loadB =>
    readElem v (sideB v s.eng) s fun x t => .next ((t.setTmp { t.eng.tmp with t1 := x }).setStage .storeA)
  | .storeA =>
    writeElem v (sideA v s.eng) s.eng.tmp.t1 s fun t => .next (t.setStage .storeB)
  | .storeB =>
    writeElem v (sideB v s.eng) s.eng.tmp.t0 s fun t => .next (exchangeDone v t)

/-- One step of the engine. The variant is the one `CMD` names (10_state.md R22). -/
def engineStep (s : State) : Outcome :=
  match s.eng.phase with
  | .idle => .next s
  | .validate =>
    match s.eng.variant with
    | some v => validateStep v s
    | none => .fault .reservedVariantRunning
  | .permute =>
    match s.eng.variant with
    | some v => permuteStep v s
    | none => .fault .reservedVariantRunning

/-! ### Runs -/

/-- At most `fuel` steps of the engine, stopping when it is idle. -/
def engineRun : Nat → State → Outcome
  | 0, s => .next s
  | fuel + 1, s =>
    if s.busy then
      match engineStep s with
      | .next t => engineRun fuel t
      | .fault r => .fault r
      | .refused r => .refused r
    else .next s

/-- More engine steps than any operation takes: one for each entry of the validation pass, ten at most
for each pair, one for the completion, and those that an unfinished pair or a cursor no run reaches can
add (43_engine_common.md R151). -/
def engineFuel (s : State) : Nat := 6 * s.eng.count + 32

/-- The engine runs its operation to the end: the atomic view of 43_engine_common.md R148. -/
def runToEnd (s : State) : Outcome := engineRun (engineFuel s) s

/-- A launched operation: with no turns given, all of it at once (43_engine_common.md R148); with turns
given, the engine waits for its own (R146). DESIGN CHOICE, log entry 7. -/
def runUnlessScheduled (s : State) : Outcome :=
  match s.sched with
  | [] => runToEnd s
  | _ :: _ => .next s

/-! ### Launch -/

/-- The premises that R57, R60, R63 and R208 put on the two spans; a launch that breaks one is outside
the spec and is refused (DEDUCED that the register-only errors come first, log entry 8). -/
def withGoodSpans (v : Variant) (s : State) (out : Outcome) : Outcome :=
  if spansInSpace v s.eng = false then .refused .spanWraps
  else if spansApart v s.eng = false then .refused .spansOverlap
  else if spansOrdinary v s.platform s.eng = false then .refused .spanNotOrdinaryMemory
  else out

/-- From acceptance on (43_engine_common.md R140, stages 4 to 8): the zero-count exit (R143), the
alignment test (60_exceptions.md R173), then the two policies of 30_encoding.md R84. A checked launch
reports an odd count and a length mismatch (R174, R175) and validates the table; an unchecked launch that
breaks R163 has no result and faults here, before any step (DEDUCED, log entry 10). The order of the
tests is 60_exceptions.md R177's. -/
def afterAccept (v : Variant) (chk : Bool) (s : State) : Outcome :=
  if s.eng.count = 0 then .next (complete s)
  else if aligned v s.eng = false then .next (raiseErr .align 0#17 s)
  else if oddCount s.eng then
    (if chk then .next (raiseErr .oddLen 0#17 s) else .fault .oddCount)
  else if lengthMatches s.eng = false then
    (if chk then .next (raiseErr .tabLen 0#17 s) else .fault .tableLengthMismatch)
  else withGoodSpans v s
    (if chk then runUnlessScheduled s
     else if allInRange v s.eng s.mem then runUnlessScheduled s
     else .fault .indexOutOfRange)

/-- A launch attempt for variant `v` in a build with the variants `impl` (30_encoding.md R86): ignored
while `BUSY = 1` (43_engine_common.md R142), `E_MODE` when the variant is not built (60_exceptions.md
R172), else accepted (R141). -/
def launch (impl : List Variant) (v : Variant) (chk : Bool) (s : State) : Outcome :=
  if s.busy then .next s
  else if Config.built impl v = false then .next (rejectMode s)
  else afterAccept v chk (accept v chk s)

/-- A reserved launch attempt (30_encoding.md R86, R88): ignored while `BUSY = 1`, else `E_MODE`. -/
def reservedAttempt (s : State) : Outcome :=
  if s.busy then .next s else .next (rejectMode s)

end Sys2Proof.Machine
end

