-- ==== Sys2Proof/Machine/ApplyComplex32.lean ====
section
/-! DEFINITION. `applyComplex32` and `applyComplex32.chk` (41_apply_complex32.md R120 to R124). -/

namespace Sys2Proof.Machine

/-- 41_apply_complex32.md R120: the generic routine at `(W, sh, g) = (32, 0, 2)`. -/
def execApplyComplex32 (chk : Bool) (s : State) : Outcome := launch Config.implVariants .c32 chk s

end Sys2Proof.Machine
end

