-- ==== Sys2Proof/Machine/ApplyComplex64.lean ====
section
/-! DEFINITION. `applyComplex64` and `applyComplex64.chk` (42_apply_complex64.md R130 to R134). -/

namespace Sys2Proof.Machine

/-- 42_apply_complex64.md R130, R131: the generic routine at `(W, sh, g) = (64, 2, 2)`, the normalized
value a sample index (90_conflicts.md C1). -/
def execApplyComplex64 (chk : Bool) (s : State) : Outcome := launch Config.implVariants .c64 chk s

end Sys2Proof.Machine
end

