-- ==== Sys2Proof/Machine/ApplyScalar16.lean ====
section
/-! DEFINITION. `applyScalar16` and `applyScalar16.chk` (40_apply_scalar16.md R110 to R116). -/

namespace Sys2Proof.Machine

/-- 40_apply_scalar16.md R110: the generic routine at `(W, sh, g) = (16, 1, 1)`. -/
def execApplyScalar16 (chk : Bool) (s : State) : Outcome := launch Config.implVariants .s16 chk s

end Sys2Proof.Machine
end

