-- ==== Sys2Proof/Machine/Commands.lean ====
section
/-! DEFINITION. The commands that launch nothing: the no-operation write and the reserved encodings
(30_encoding.md R88, R89). -/

namespace Sys2Proof.Machine

/-- 30_encoding.md R89: a write with `START = 0` changes nothing, whatever its other bits are. -/
def execNop (_rest : BitVec 31) (s : State) : Outcome := .next s

/-- 30_encoding.md R88: the reserved width code. -/
def execReservedWsel3 (_chk : Bool) (s : State) : Outcome := reservedAttempt s

/-- 30_encoding.md R85, R88: reserved bits set in a launch attempt. -/
def execReservedRsv (_rsv : BitVec 28) (_low : BitVec 3) (s : State) : Outcome := reservedAttempt s

end Sys2Proof.Machine
end

