-- ==== Sys2Proof/Machine/Dispatch.lean ====
section
/-! DEFINITION. The dispatch: one arm for each command, one direct call of its meaning. -/

namespace Sys2Proof.Machine

def exec (i : Instr) (s : State) : Host.Outcome State Fault Refusal :=
  match i with
  | .applyScalar16 chk => Sys2Proof.Machine.execApplyScalar16 chk s
  | .applyComplex32 chk => Sys2Proof.Machine.execApplyComplex32 chk s
  | .applyComplex64 chk => Sys2Proof.Machine.execApplyComplex64 chk s
  | .nop rest => Sys2Proof.Machine.execNop rest s
  | .reservedWsel3 chk => Sys2Proof.Machine.execReservedWsel3 chk s
  | .reservedRsv rsv low => Sys2Proof.Machine.execReservedRsv rsv low s

end Sys2Proof.Machine
end

