-- ==== Sys2Proof/Machine/HostPort.lean ====
section
/-! DEFINITION. What the outside world can do (00_scope.md R15): register accesses (10_state.md R21 to
R29, 43_engine_common.md R142), the poll loop and the calls made of them (30_encoding.md R94 to R96),
memory accesses of the host and of other agents (20_memory.md R66, R67, R71; 70_reset_and_hazards.md R205
to R207), and reset (R200 to R202). -/

namespace Sys2Proof.Machine

/-! ### Register accesses -/

/-- The register a host access reaches: one aligned 32-bit access to an offset below `0x20`
(10_state.md R21; 93_implementation_defined.md U15). -/
def withReg (off size : Nat) (f : Reg → Outcome) : Outcome :=
  if size ≠ 4 ∨ off % 4 ≠ 0 then .refused .registerAccessShape
  else match Reg.ofOffset off with
    | some r => f r
    | none => .refused .registerOffset

/-- A host write (10_state.md R21, R33; 43_engine_common.md R142). A write to `CMD` issues the command it
carries (R22), whose meaning tests `BUSY` itself (30_encoding.md R86); any other write is ignored while
`BUSY = 1`. -/
def hostWrite (r : Reg) (v : Word) (s : State) : Outcome :=
  match r with
  | .cmd => exec (decode v) s
  | _ => if s.busy then .next s else .next { s with eng := s.eng.writeReg r v }

/-- What a host read returns: the register's value; for `CURSOR` while `BUSY = 1` a free value between 0
and `zext(BITREVLEN)` (10_state.md R34; 93_implementation_defined.md U12). -/
def hostReadWord (r : Reg) (s : State) : Word :=
  if r = .cursor ∧ s.busy = true then
    BitVec.ofNat 32 (Config.freeCursor s.draws % (s.eng.count + 1))
  else s.eng.regWord r

/-- A host read. A read of `STATUS` that shows `BUSY = 0` closes every open loan
(70_reset_and_hazards.md R205, R209; 20_memory.md R66 (b)). -/
def hostRead (r : Reg) (s : State) : State :=
  { s with
    replies := .register r (hostReadWord r s) :: s.replies
    draws := if r = .cursor ∧ s.busy = true then s.draws + 1 else s.draws
    loans := if r = .status ∧ s.busy = false then [] else s.loans }

/-- One turn of the poll loop (30_encoding.md R95; log entry 17): it stays the next access
until the read shows `BUSY = 0`. -/
def hostPoll (s : State) : State :=
  if s.busy then { hostRead .status s with inputs := .poll :: s.inputs } else hostRead .status s

/-! ### Memory accesses of the host and of other agents -/

/-- The bytes of a memory access. -/
def accessSpan (addr : Word) (len : Nat) : Span := { base := addr.toNat, len := len }

/-- A memory access of the outside world that the spec gives a meaning: inside the address space
(20_memory.md R57) and on ordinary memory (R60, R63). -/
def withOrdinaryAccess (addr : Word) (len : Nat) (s : State) (out : Outcome) : Outcome :=
  if Config.addrSpace < (accessSpan addr len).top then .fault .addressBeyondSpace
  else if s.platform.ordinary (accessSpan addr len) = false then .refused .deviceAccess
  else out

/-- The buffer span of a loan. -/
def Lease.span (l : Lease) : Span := bufSpan l.variant l.eng

/-- The access touches a buffer while it is lent (70_reset_and_hazards.md R205). -/
def touchesLentBuffer (a : Span) (s : State) : Bool := s.loans.any fun l => a.overlaps l.span

/-- The access touches the table of the running operation (70_reset_and_hazards.md R206). -/
def touchesBusyTable (a : Span) (s : State) : Bool := s.busy && a.overlaps (tabSpan s.eng)

/-- The host or another agent writes memory. A write to a lent buffer or to the table of a running
operation makes the operation undefined and is refused (R205, R206; 93_implementation_defined.md U5, U6,
U11). -/
def hostMemWrite (addr : Word) (data : List Byte) (s : State) : Outcome :=
  withOrdinaryAccess addr data.length s
    (if touchesLentBuffer (accessSpan addr data.length) s then .refused .bufferWriteWhileLent
     else if touchesBusyTable (accessSpan addr data.length) s then .refused .tableWriteWhileBusy
     else .next (s.setMem (s.mem.writeBytes addr.toNat data)))

/-- The number of pairs an observer of element `k` finds done: a free value from 0 to the number of pairs
of the operation (20_memory.md R71, 70_reset_and_hazards.md R202). -/
def observedPairs (l : Lease) (draw k : Nat) : Nat :=
  Config.freeProgress draw k % (l.eng.count / 2 + 1)

/-- Element `k` of the lent buffer as an observer finds it: one of the values it takes in the operation
(20_memory.md R71). -/
def observedElem (l : Lease) (draw k : Nat) : BitVec 64 :=
  bufAfter l.variant l.eng l.mem (observedPairs l draw k) k

/-- Byte `i` of a W-bit element, byte 0 the lowest (20_memory.md R58). -/
def elemByte (x : BitVec 64) (i : Nat) : Byte := x.extractLsb' (8 * i) 8

/-- The operation that was lent its buffer changes it: no error ends it before its first buffer access
(60_exceptions.md R179). -/
def Lease.permutes (l : Lease) : Bool := contractHolds l.variant l.eng l.mem

/-- Byte `x` of a lent buffer as an observer finds it (20_memory.md R58, R71). -/
def observedByte (l : Lease) (draw x : Nat) : Byte :=
  elemByte (observedElem l draw ((x - l.eng.bufBase.toNat) / l.variant.bytes))
    ((x - l.eng.bufBase.toNat) % l.variant.bytes)

/-- The open loans on whose buffers byte `x` lies and whose operations permute them. -/
def coveringLoans (s : State) (x : Nat) : List Lease :=
  s.loans.filter fun l => l.permutes && l.span.has x

/-- The byte an agent reads at address `x`: what memory holds, but for a byte of a lent buffer that the
operation permutes, one of the values its element takes (20_memory.md R71; U11). Where several open loans
hold the byte, which of their operations is seen is free (log entry 6). -/
def visibleByte (s : State) (x : Nat) : Byte :=
  match (coveringLoans s x)[Config.freeLoan s.draws % (coveringLoans s x).length]? with
  | some l => observedByte l s.draws x
  | none => s.mem.read x

/-- The host or another agent reads memory. -/
def hostMemRead (addr : Word) (len : Nat) (s : State) : Outcome :=
  withOrdinaryAccess addr len s
    (.next { s with
      replies := .memory addr ((List.range len).map fun i => visibleByte s (addr.toNat + i)) :: s.replies
      draws := s.draws + 1 })

/-! ### Reset -/

/-- The elements the table of an operation names, entry by entry, component by component
(20_memory.md R64). -/
def namedElems (l : Lease) : List Nat :=
  (List.range l.eng.count).flatMap fun j =>
    (List.range l.variant.group).map fun c =>
      elemIndex l.variant (normIndex l.variant (tabEntry l.eng l.mem j)) c

/-- The memory after an operation cut short: each element its table names holds one of the values it
takes in the operation, every other byte is unchanged (70_reset_and_hazards.md R202; U7). -/
def cutShort (l : Lease) (draw : Nat) (m : Memory) : Memory :=
  (namedElems l).foldl (fun m k => setBufElem l.variant l.eng m k (observedElem l draw k)) m

/-- Reset (70_reset_and_hazards.md R200 to R202): the engine at its reset values. Memory is not touched,
but for the buffer of an operation that the reset cuts short. The loans stay open until `STATUS` is read
(R205, R209; DEDUCED, log entry 9). -/
def applyReset (s : State) : State :=
  if s.busy then
    match s.loans with
    | l :: _ =>
      if l.permutes then resetEngine { s with mem := cutShort l s.draws s.mem, draws := s.draws + 1 }
      else resetEngine s
    | [] => resetEngine s
  else resetEngine s

/-! ### One access of the outside world -/

/-- One access. -/
def hostAccess (x : Input) (s : State) : Outcome :=
  match x with
  | .regWrite off size v => withReg off size fun r => hostWrite r v s
  | .regRead off size => withReg off size fun r => .next (hostRead r s)
  | .poll => .next (hostPoll s)
  | .memWrite addr data => hostMemWrite addr data s
  | .memRead addr len => hostMemRead addr len s
  | .reset => .next (applyReset s)

/-- The outside world's turn: its next access, or nothing when it has none. -/
def hostTurn (s : State) : Outcome :=
  match s.inputs with
  | [] => .next s
  | x :: rest => hostAccess x { s with inputs := rest }

/-! ### Calls (30_encoding.md R94 to R96) -/

/-- `applyX[.chk](buffer, table, n)` (30_encoding.md R94): the buffer span as base and number of elements,
the table span as base and number of entries. -/
structure Call where
  variant : Variant
  chk     : Bool
  bufBase : Word
  nElem   : Word
  tabBase : Word
  tabLen  : Word
  count   : Word
  deriving DecidableEq, Repr

/-- The host sequence of a call (30_encoding.md R95): the five operands, the command, the poll loop. -/
def Call.inputs (c : Call) : List Input :=
  [.regWrite (Reg.offset .bufBase) 4 c.bufBase,
   .regWrite (Reg.offset .nElem) 4 c.nElem,
   .regWrite (Reg.offset .tabBase) 4 c.tabBase,
   .regWrite (Reg.offset .tabLen) 4 c.tabLen,
   .regWrite (Reg.offset .bitRevLen) 4 c.count,
   .regWrite (Reg.offset .cmd) 4 (launchWord c.variant c.chk),
   .poll]

/-- The variant whose element width is that of the buffer, for the width-generic `apply(B, T, n)`
(30_encoding.md R96 (a)). -/
def variantOfWidth (w : Nat) : Option Variant :=
  if w = 16 then some .s16 else if w = 32 then some .c32 else if w = 64 then some .c64 else none

/-- `apply(B, T, n)` and `apply(B, T)` (30_encoding.md R96 (a)): the call of the operation that matches the
element width of the buffer; with the count omitted it is the table's length. None where no operation has
that width. -/
def Call.ofWidth (width : Nat) (chk : Bool) (bufBase nElem tabBase tabLen : Word) (n : Option Word) :
    Option Call :=
  (variantOfWidth width).map fun v => ⟨v, chk, bufBase, nElem, tabBase, tabLen, n.getD tabLen⟩

/-- `wait` (30_encoding.md R96 (b)). -/
def waitInputs : List Input := [.poll]

/-- `nop` (30_encoding.md R96 (c)). -/
def nopInputs : List Input := [.regWrite (Reg.offset .cmd) 4 0#32]

end Sys2Proof.Machine
end

