-- ==== Sys2Proof/Machine/Step.lean ====
section
/-! DEFINITION. One step of the machine, and where a command is fetched: the block fetches no instructions
from memory (20_memory.md R50); its commands are the host's writes to `CMD` (10_state.md R22). -/

namespace Sys2Proof.Machine

/-- One step. While `BUSY = 1` the schedule says whose turn it is, and with no turns left the operation
runs to its end (43_engine_common.md R146, R148; 70_reset_and_hazards.md R214). While `BUSY = 0` the
engine does nothing and it is the outside world's turn. -/
def step (s : State) : Host.Outcome State Fault Refusal :=
  if s.busy then
    match s.sched with
    | [] => runToEnd s
    | .engine :: rest => engineStep { s with sched := rest }
    | .host :: rest => hostTurn { s with sched := rest }
  else hostTurn s

/-- The state whose very next step issues the command: the write to `CMD` is the next access of the
host, and it is the host's turn. -/
def State.withFetchWord (s : State) (nbits w : Nat) : State :=
  { s with
    inputs := .regWrite (Reg.offset .cmd) 4 (BitVec.ofNat 32 (w % 2 ^ nbits)) :: s.inputs
    sched := if s.busy then .host :: s.sched else s.sched }

end Sys2Proof.Machine
end

