-- ==== Sys2Proof/Safety.lean ====
section
/-! DEFINITION. What counts as a safe run, in the terms the statements use: the ends of a run
(70_reset_and_hazards.md R215), the premises of a valid launch (43_engine_common.md R163), the frame
(R162), and the invariant of the machine. -/

namespace Sys2Proof.Machine

/-! ### Ends of a run -/

/-- A good end: `BUSY = 0`, `DONE = 1`, `ERR = 0` (70_reset_and_hazards.md R215). -/
def goodEnd (s : State) : Prop :=
  s.busy = false ∧ s.eng.status.done = true ∧ s.eng.status.err = .none

/-- A reported failure: `BUSY = 0`, `DONE = 0`, `ERR != 0` (70_reset_and_hazards.md R215). -/
def reportedFailure (s : State) : Prop :=
  s.busy = false ∧ s.eng.status.done = false ∧ s.eng.status.err ≠ .none

/-! ### Launches -/

/-- The host's premises on the two spans (20_memory.md R57, R60, R63; 70_reset_and_hazards.md R208). -/
def spansGood (v : Variant) (s : State) : Prop :=
  spansInSpace v s.eng = true ∧ spansApart v s.eng = true ∧ spansOrdinary v s.platform s.eng = true

/-- The launch of variant `v` from `s` meets 43_engine_common.md R163 with a nonzero count: idle engine,
aligned bases, (a) an even count, (b) equal to the table's length, (c) every entry in range, (d) the
premises on the spans. -/
def validLaunch (v : Variant) (s : State) : Prop :=
  s.busy = false ∧ contractHolds v s.eng s.mem = true ∧ spansGood v s

/-- The launch of variant `v` from `s` puts the engine to work: idle engine, nonzero count, every test on
registers passed, the premises on the spans met, and, when it is unchecked, every entry in range
(43_engine_common.md R140, R144, R163). A checked launch whose table fails its validation is one of
these. -/
def launchRuns (v : Variant) (chk : Bool) (s : State) : Prop :=
  s.busy = false ∧ s.eng.count ≠ 0 ∧ aligned v s.eng = true ∧ oddCount s.eng = false ∧
    lengthMatches s.eng = true ∧ spansGood v s ∧ (chk = true ∨ allInRange v s.eng s.mem = true)

/-- The five operand registers are the same in both engines (10_state.md R33). -/
def sameOperands (e e' : Engine) : Prop :=
  e'.bufBase = e.bufBase ∧ e'.nElem = e.nElem ∧ e'.tabBase = e.tabBase ∧
    e'.tabLen = e.tabLen ∧ e'.bitRevLen = e.bitRevLen

/-- Address `x` is a byte of a buffer element that some entry of the table names (20_memory.md R64). -/
def namedByte (v : Variant) (e : Engine) (m : Memory) (x : Nat) : Prop :=
  ∃ j c, j < e.count ∧ c < v.group ∧
    elemAddr v e (elemIndex v (normIndex v (tabEntry e m j)) c) ≤ x ∧
    x < elemAddr v e (elemIndex v (normIndex v (tabEntry e m j)) c) + v.bytes

/-- Everything of the state outside the engine, the memory, the trace and the loan is the same: the
accesses still to come, the replies, the schedule, the free values drawn, the platform. -/
def sameSurroundings (s t : State) : Prop :=
  t.inputs = s.inputs ∧ t.replies = s.replies ∧ t.sched = s.sched ∧ t.draws = s.draws ∧
    t.platform = s.platform

/-! ### The invariant -/

/-- The invariants of `STATUS` (10_state.md R32). -/
def statusOk (e : Engine) : Prop :=
  (e.busy = true → e.status.done = false ∧ e.status.err = .none) ∧
    (e.status.done = true → e.status.err = .none)

/-- The buffer of a loan after `p` pairs and `c` components of the next pair (43_engine_common.md R145). -/
def partDone (l : Lease) (p c : Nat) : Nat → BitVec 64 :=
  exchangeComponents l.variant.group
    (normIndex l.variant (tabEntry l.eng l.mem (2 * p))).toNat
    (normIndex l.variant (tabEntry l.eng l.mem (2 * p + 1))).toNat
    c (bufAfter l.variant l.eng l.mem p)

/-- The buffer as it stands in memory is `B` on its N elements. -/
def bufferIs (v : Variant) (s : State) (B : Nat → BitVec 64) : Prop :=
  ∀ k, k < s.eng.nElem.toNat → bufElem v s.eng s.mem k = B k

/-- `rawA` and `a` hold the even entry of the pair at `CURSOR` (10_state.md R31). -/
def holdsA (v : Variant) (s : State) : Prop :=
  s.eng.tmp.rawA = tabEntry s.eng s.mem s.eng.cursor.toNat ∧
    s.eng.tmp.a = normIndex v s.eng.tmp.rawA

/-- `rawB` and `b` hold the odd entry of the pair at `CURSOR`, and `k` is a component. -/
def holdsB (v : Variant) (s : State) : Prop :=
  s.eng.tmp.rawB = tabEntry s.eng s.mem (s.eng.cursor.toNat + 1) ∧
    s.eng.tmp.b = normIndex v s.eng.tmp.rawB ∧ s.eng.tmp.k.toNat < v.group

/-- The buffer with the exchange in progress not begun: the pairs before `CURSOR` and the components
before `k` are done. -/
def beforeExchange (s : State) (l : Lease) : Nat → BitVec 64 :=
  partDone l (s.eng.cursor.toNat / 2) s.eng.tmp.k.toNat

/-- What holds inside a pair, stage by stage (43_engine_common.md R150). -/
def pairProgress (s : State) (l : Lease) : Prop :=
  match s.eng.stage with
  | .testEntry => False
  | .nextEntry => False
  | .readA => bufferIs l.variant s (bufAfter l.variant l.eng l.mem (s.eng.cursor.toNat / 2))
  | .readB =>
    s.eng.cursor.toNat < s.eng.count ∧ holdsA l.variant s ∧
      bufferIs l.variant s (bufAfter l.variant l.eng l.mem (s.eng.cursor.toNat / 2))
  | .loadA =>
    s.eng.cursor.toNat < s.eng.count ∧ holdsA l.variant s ∧ holdsB l.variant s ∧
      bufferIs l.variant s (beforeExchange s l)
  | .loadB =>
    s.eng.cursor.toNat < s.eng.count ∧ holdsA l.variant s ∧ holdsB l.variant s ∧
      bufferIs l.variant s (beforeExchange s l) ∧
      s.eng.tmp.t0 = beforeExchange s l (sideA l.variant s.eng)
  | .storeA =>
    s.eng.cursor.toNat < s.eng.count ∧ holdsA l.variant s ∧ holdsB l.variant s ∧
      bufferIs l.variant s (beforeExchange s l) ∧
      s.eng.tmp.t0 = beforeExchange s l (sideA l.variant s.eng) ∧
      s.eng.tmp.t1 = beforeExchange s l (sideB l.variant s.eng)
  | .storeB =>
    s.eng.cursor.toNat < s.eng.count ∧ holdsA l.variant s ∧ holdsB l.variant s ∧
      bufferIs l.variant s (fun x =>
        if x = sideA l.variant s.eng then s.eng.tmp.t1 else beforeExchange s l x) ∧
      s.eng.tmp.t0 = beforeExchange s l (sideA l.variant s.eng) ∧
      s.eng.tmp.t1 = beforeExchange s l (sideB l.variant s.eng)

/-- The engine is in the validation pass of a checked launch (43_engine_common.md R144): the entries
before the one to be tested are in range, and the buffer is as it was lent. -/
structure Validating (s : State) (l : Lease) : Prop where
  phase   : s.eng.phase = .validate
  checked : cmdChk s.eng.cmd = true
  stage   : (s.eng.stage = .testEntry ∧ s.eng.cursor = 0#17) ∨
      (s.eng.stage = .nextEntry ∧ s.eng.cursor.toNat + 1 < s.eng.count)
  passed  : s.eng.stage = .nextEntry →
      ∀ j, j ≤ s.eng.cursor.toNat → entryInRange l.variant s.eng s.mem j = true
  buffer  : bufferIs l.variant s (bufElem l.variant l.eng l.mem)

/-- The engine is in the permute pass (43_engine_common.md R146): every entry is in range, `CURSOR` is
even and does not pass the count (10_state.md R26), and the buffer is where the routine has it. -/
structure Permuting (s : State) (l : Lease) : Prop where
  phase    : s.eng.phase = .permute
  inRange  : allInRange l.variant s.eng s.mem = true
  even     : s.eng.cursor.toNat % 2 = 0
  bounded  : s.eng.cursor.toNat ≤ s.eng.count
  progress : pairProgress s l

/-- What holds while an operation runs. -/
structure Running (s : State) (l : Lease) : Prop where
  operands : sameOperands l.eng s.eng
  cmd      : s.eng.cmd = launchWord l.variant (cmdChk s.eng.cmd)
  nonzero  : s.eng.count ≠ 0
  aligned  : aligned l.variant s.eng = true
  evenLen  : oddCount s.eng = false
  length   : lengthMatches s.eng = true
  spans    : spansGood l.variant s
  lentMem  : l.mem.wf
  table    : ∀ j, j < s.eng.count → tabEntry s.eng s.mem j = tabEntry l.eng l.mem j
  pass     : Validating s l ∨ Permuting s l

/-- The invariant of the machine: memory in its canonical form, `STATUS` as R32 says, an idle engine at
rest, and a busy one whose newest open loan is of the operation that runs, on which it has done exactly
what the routine says. -/
def Inv (s : State) : Prop :=
  s.mem.wf ∧ statusOk s.eng ∧ (s.busy = false → s.eng.stage = .readA) ∧
    (s.busy = true → ∃ l older, s.loans = l :: older ∧ Running s l)

end Sys2Proof.Machine
end

