-- ==== Sys2Proof/Certificates/Slice0/Obligations.lean ====
section
/-! DEFINITION. The statements for the provers, in the order of OBLIGATIONS.json. `s.sched = []` is the
atomic view of 43_engine_common.md R148: no turn is given to anybody else between acceptance and the end
of the operation. `validLaunch` is 43_engine_common.md R163 with a nonzero count. -/

open Sys2Proof Sys2Proof.Machine

/-! ### Command words -/

/-- 30_encoding.md R87: a few command words read off the opcode map. -/
def Obligations.FewCommandWordsDecode : Prop :=
  decode 0x00000001#32 = .applyScalar16 false ∧ decode 0x00000009#32 = .applyScalar16 true ∧
  decode 0x00000003#32 = .applyComplex32 false ∧ decode 0x0000000B#32 = .applyComplex32 true ∧
  decode 0x00000005#32 = .applyComplex64 false ∧ decode 0x0000000D#32 = .applyComplex64 true ∧
  decode 0x00000007#32 = .reservedWsel3 false ∧ decode 0x80000001#32 = .reservedRsv 0x8000000#28 0#3 ∧
  decode 0xFFFFFFFE#32 = .nop 0x7FFFFFFF#31

/-- 30_encoding.md R87: the rows of the opcode map as match and mask over the 32-bit word, with `CHK` left
as a field, for every word; beside them the no-operation writes (R89), the reserved width code (R88) and
the reserved bits (R85, R88). That a word with `RSV` set and `WSEL = 11` is `reservedRsv` is the model's
reading of R86 (DEDUCED, log entry 18). -/
def Obligations.OpcodeMapAsMatchAndMask : Prop :=
  ∀ w : Word,
    ((w &&& 0xFFFFFFF7#32) = 0x00000001#32 ↔ decode w = .applyScalar16 (w.getLsbD 3)) ∧
    ((w &&& 0xFFFFFFF7#32) = 0x00000003#32 ↔ decode w = .applyComplex32 (w.getLsbD 3)) ∧
    ((w &&& 0xFFFFFFF7#32) = 0x00000005#32 ↔ decode w = .applyComplex64 (w.getLsbD 3)) ∧
    ((w &&& 0xFFFFFFF7#32) = 0x00000007#32 ↔ decode w = .reservedWsel3 (w.getLsbD 3)) ∧
    ((w &&& 0x00000001#32) = 0x00000000#32 ↔ decode w = .nop (w.extractLsb' 1 31)) ∧
    (((w &&& 0x00000001#32) = 0x00000001#32 ∧ (w &&& 0xFFFFFFF0#32) ≠ 0#32) ↔
      decode w = .reservedRsv (w.extractLsb' 4 28) (w.extractLsb' 1 3))

/-- 30_encoding.md R86: a host write of any word to `CMD` has exactly the outcome R86 lists for it, the
tests made in R86's order. -/
def Obligations.CommandWriteHasItsOneOutcome : Prop :=
  ∀ (w : Word) (s : State),
    hostAccess (.regWrite 0x00 4 w) s =
      if s.busy = true then .next s
      else if w.getLsbD 0 = false then .next s
      else if w.extractLsb' 4 28 ≠ 0#28 then .next (rejectMode s)
      else if w.extractLsb' 1 2 = 0b11#2 then .next (rejectMode s)
      else match variantOfWsel (w.extractLsb' 1 2) with
        | none => .next (rejectMode s)
        | some v =>
          if Config.built Config.implVariants v = false then .next (rejectMode s)
          else afterAccept v (w.getLsbD 3) (accept v (w.getLsbD 3) s)

/-- Decode and encode agree: decoding the word of a well-formed command gives the command back, with every
operand at every value (30_encoding.md R80, R85, R87 to R89). -/
def Obligations.DecodeOfEncodeIsTheCommand : Prop :=
  ∀ i : Instr, i.wf = true → decode (encode i) = i

/-- Every 32-bit word is the word of the one well-formed command it decodes to: decoding drops no bit
(30_encoding.md R81, R86, R88). -/
def Obligations.EncodeOfDecodeIsTheWord : Prop :=
  ∀ w : Word, (decode w).wf = true ∧ encode (decode w) = w

/-! ### Commands that launch nothing, and the register block -/

/-- 30_encoding.md R89: a write to `CMD` with `START = 0` changes nothing, whatever its other bits are. -/
def Obligations.NopWriteChangesNothing : Prop :=
  (∀ (rest : BitVec 31) (s : State), exec (.nop rest) s = .next s) ∧
  ∀ (w : Word) (s : State), w.getLsbD 0 = false → hostAccess (.regWrite 0x00 4 w) s = .next s

/-- 30_encoding.md R88, 60_exceptions.md R172: a reserved launch attempt with `BUSY = 0` (reserved bits,
the reserved width code, a variant that is not built) gives `DONE <- 0`, `ERR <- E_MODE`, `CURSOR <- 0`
and changes nothing else. -/
def Obligations.ReservedLaunchAttemptReportsEMode : Prop :=
  ∀ s : State, s.busy = false →
    let t : State :=
      { s with eng := { s.eng with status := { done := false, err := .mode }, cursor := 0#17 } }
    (∀ w : Word, w.getLsbD 0 = true → (w.extractLsb' 4 28 ≠ 0#28 ∨ w.extractLsb' 1 2 = 0b11#2) →
      hostAccess (.regWrite 0x00 4 w) s = .next t) ∧
    (∀ chk, exec (.reservedWsel3 chk) s = .next t) ∧
    (∀ rsv low, exec (.reservedRsv rsv low) s = .next t) ∧
    (∀ (impl : List Variant) (v : Variant) (chk : Bool), v ≠ .s16 → v ∉ impl →
      launch impl v chk s = .next t)

/-- 43_engine_common.md R142: while `BUSY = 1` every host write to any register, `CMD` included, is
ignored, whatever the command; host reads are allowed and return current values (`CURSOR` in its
range of R34). -/
def Obligations.WritesWhileBusyAreIgnored : Prop :=
  ∀ s : State, s.busy = true →
    (∀ (r : Reg) (w : Word), hostAccess (.regWrite r.offset 4 w) s = .next s) ∧
    (∀ i : Instr, exec i s = .next s) ∧
    (∀ r : Reg, ∃ t, hostAccess (.regRead r.offset 4) s = .next t ∧ t.eng = s.eng ∧ t.mem = s.mem ∧
      (r ≠ .cursor → t.replies = .register r (s.eng.regWord r) :: s.replies) ∧
      (r = .cursor → ∃ n, n ≤ s.eng.count ∧
        t.replies = .register .cursor (BitVec.ofNat 32 n) :: s.replies))

/-- 10_state.md R21, R29, R33: with `BUSY = 0` an operand register takes the value a host writes
(`BITREVLEN` its low 16 bits) and a host read returns it; the write changes that register and nothing else
of the whole state; a write to `STATUS` or `CURSOR` is ignored. -/
def Obligations.OperandRegistersHoldWhatIsWritten : Prop :=
  ∀ (s : State) (r : Reg) (w : Word), s.busy = false →
    ((r = .bufBase ∨ r = .nElem ∨ r = .tabBase ∨ r = .tabLen ∨ r = .bitRevLen) →
      ∃ e : Engine,
        let t : State := { s with eng := e }
        hostAccess (.regWrite r.offset 4 w) s = .next t ∧
        hostAccess (.regRead r.offset 4) t = .next
          { t with
            replies := .register r (if r = .bitRevLen then w &&& 0x0000FFFF#32 else w) :: t.replies } ∧
        (∀ r' : Reg, r' ≠ r → e.regWord r' = s.eng.regWord r') ∧
        e.status = s.eng.status ∧ e.phase = s.eng.phase ∧ e.stage = s.eng.stage ∧ e.tmp = s.eng.tmp) ∧
    ((r = .status ∨ r = .cursor) → hostAccess (.regWrite r.offset 4 w) s = .next s)

/-- 10_state.md R21 to R29, R33: while `BUSY = 0` a host read of each of the eight registers returns what
the register holds, zero-extended, and changes nothing else but that a read of `STATUS` closes the open
loans (70_reset_and_hazards.md R205). -/
def Obligations.IdleReadReturnsTheRegister : Prop :=
  ∀ s : State, s.busy = false →
    let after (r : Reg) (x : Word) : State := { s with replies := .register r x :: s.replies }
    hostAccess (.regRead 0x00 4) s = .next (after .cmd s.eng.cmd) ∧
    hostAccess (.regRead 0x04 4) s = .next { after .status s.eng.statusWord with loans := [] } ∧
    hostAccess (.regRead 0x08 4) s = .next (after .bufBase s.eng.bufBase) ∧
    hostAccess (.regRead 0x0C 4) s = .next (after .nElem s.eng.nElem) ∧
    hostAccess (.regRead 0x10 4) s = .next (after .tabBase s.eng.tabBase) ∧
    hostAccess (.regRead 0x14 4) s = .next (after .tabLen s.eng.tabLen) ∧
    hostAccess (.regRead 0x18 4) s = .next (after .bitRevLen (s.eng.bitRevLen.setWidth 32)) ∧
    hostAccess (.regRead 0x1C 4) s = .next (after .cursor (s.eng.cursor.setWidth 32))

/-- 10_state.md R21 (93_implementation_defined.md U15): an access that is not one aligned 32-bit access is
refused, and so is one at offset `0x20` or above. -/
def Obligations.MisshapenRegisterAccessIsRefused : Prop :=
  ∀ (s : State) (off size : Nat) (w : Word),
    ((size ≠ 4 ∨ off % 4 ≠ 0) →
      hostAccess (.regWrite off size w) s = .refused .registerAccessShape ∧
      hostAccess (.regRead off size) s = .refused .registerAccessShape) ∧
    (off % 4 = 0 → 0x20 ≤ off →
      hostAccess (.regWrite off 4 w) s = .refused .registerOffset ∧
      hostAccess (.regRead off 4) s = .refused .registerOffset)

/-- 10_state.md R23, 60_exceptions.md R171: the fields of `STATUS` as a host reads it, the reserved bits
zero, and the error codes, of which 6 and 7 are never produced. -/
def Obligations.StatusWordShowsItsFields : Prop :=
  (∀ e : Engine,
    e.statusWord.getLsbD 0 = decide (e.phase ≠ .idle) ∧
    e.statusWord.getLsbD 1 = e.status.done ∧
    e.statusWord.extractLsb' 2 2 = 0#2 ∧
    e.statusWord.extractLsb' 4 3 = e.status.err.code ∧
    e.statusWord.extractLsb' 7 25 = 0#25) ∧
  ErrCode.code .none = 0#3 ∧ ErrCode.code .mode = 1#3 ∧ ErrCode.code .align = 2#3 ∧
  ErrCode.code .oddLen = 3#3 ∧ ErrCode.code .tabLen = 4#3 ∧ ErrCode.code .range = 5#3 ∧
  ∀ c : ErrCode, c.code ≠ 6#3 ∧ c.code ≠ 7#3

/-- 10_state.md R22: `CMD` stores the last accepted launch word; no other event changes it, but for
reset. -/
def Obligations.CmdChangesOnlyAtAnAcceptedLaunch : Prop :=
  ∀ s t : State, step s = .next t →
    t.eng.cmd = s.eng.cmd ∨
    (∃ w rest v chk, s.busy = false ∧ s.inputs = .regWrite 0x00 4 w :: rest ∧
      decode w = Instr.ofVariant v chk ∧ t.eng.cmd = w) ∨
    (∃ rest, s.inputs = .reset :: rest ∧ t.eng.cmd = 0#32)

/-- 10_state.md R22, 60_exceptions.md R182, R183: a host write of a launch word to `CMD` is the only way
an operation starts; nothing else sets `BUSY`. -/
def Obligations.OnlyALaunchWriteStartsAnOperation : Prop :=
  ∀ s t : State, step s = .next t → s.busy = false → t.busy = true →
    ∃ w rest v chk, s.inputs = .regWrite 0x00 4 w :: rest ∧ decode w = Instr.ofVariant v chk

/-! ### Launch, zero count, errors -/

/-- 43_engine_common.md R141: what acceptance does, all at once, seen before the engine's next turn, for
every launch that puts the engine to work, a checked one whose table will fail its validation among them.
That turns stand in the schedule is log entry 7. -/
def Obligations.AcceptanceTakesEffectAtOnce : Prop :=
  ∀ (v : Variant) (chk : Bool) (s : State), launchRuns v chk s → s.sched ≠ [] →
    ∃ t, exec (Instr.ofVariant v chk) s = .next t ∧
      t.eng.cmd = encode (Instr.ofVariant v chk) ∧ t.eng.status = { done := false, err := .none } ∧
      t.eng.cursor = 0#17 ∧ t.busy = true ∧ t.eng.phase = (if chk then .validate else .permute) ∧
      t.mem = s.mem ∧ sameOperands s.eng t.eng ∧ sameSurroundings s t

/-- 43_engine_common.md R143: a launch with `BITREVLEN = 0` completes normally at once, checked or not,
whatever the other operand registers hold; no memory is read or written. -/
def Obligations.ZeroCountCompletesAtOnce : Prop :=
  ∀ (v : Variant) (chk : Bool) (s : State), s.busy = false → s.eng.bitRevLen = 0#16 →
    ∃ t, exec (Instr.ofVariant v chk) s = .next t ∧ goodEnd t ∧
      t.eng.cmd = encode (Instr.ofVariant v chk) ∧ t.eng.cursor = 0#17 ∧
      t.mem = s.mem ∧ t.trace = [] ∧ sameOperands s.eng t.eng ∧ sameSurroundings s t

/-- 60_exceptions.md R173: a nonzero count and `TABBASE[0] != 0` or `BUFBASE mod (W/8) != 0` end the launch
with `E_ALIGN`, checked or not, before any memory access; the state left is R178's. -/
def Obligations.MisalignedBaseEndsWithEAlign : Prop :=
  ∀ (v : Variant) (chk : Bool) (s : State), s.busy = false → s.eng.bitRevLen ≠ 0#16 →
    (s.eng.tabBase.getLsbD 0 = true ∨ s.eng.bufBase.toNat % v.bytes ≠ 0) →
    ∃ t, exec (Instr.ofVariant v chk) s = .next t ∧ reportedFailure t ∧
      t.eng.status.err = .align ∧ t.eng.cursor = 0#17 ∧ t.eng.cmd = encode (Instr.ofVariant v chk) ∧
      t.mem = s.mem ∧ t.trace = [] ∧ sameOperands s.eng t.eng ∧ sameSurroundings s t

/-- 60_exceptions.md R174: an odd count ends a checked launch with `E_ODDLEN` and cursor 0, no memory
accessed; in an unchecked launch it is not detected and the operation has no result
(43_engine_common.md R163), which the model says by a fault at the launch (DEDUCED, log entry 10). That the
test is made in the step of the `CMD` write, under any schedule and before the spans are looked at, is log
entries 11 and 8. -/
def Obligations.OddCountEndsACheckedLaunch : Prop :=
  ∀ (v : Variant) (s : State), s.busy = false → s.eng.bitRevLen.getLsbD 0 = true →
    aligned v s.eng = true →
    (∃ t, exec (Instr.ofVariant v true) s = .next t ∧ reportedFailure t ∧
      t.eng.status.err = .oddLen ∧ t.eng.cursor = 0#17 ∧ t.eng.cmd = encode (Instr.ofVariant v true) ∧
      t.mem = s.mem ∧ t.trace = [] ∧ sameOperands s.eng t.eng ∧ sameSurroundings s t) ∧
    exec (Instr.ofVariant v false) s = .fault .oddCount

/-- 60_exceptions.md R175: a nonzero even count that differs from `TABLEN`, smaller or larger, ends a
checked launch with `E_TABLEN` and cursor 0, no memory accessed; a zero count never raises it. In an
unchecked launch the mismatch has no result (43_engine_common.md R163), which the model says by a fault at
the launch (DEDUCED, log entry 10). That the test is made in the step of the `CMD` write, under any
schedule and before the spans are looked at, is log entries 11 and 8. -/
def Obligations.LengthMismatchEndsACheckedLaunch : Prop :=
  (∀ (v : Variant) (s : State), s.busy = false → s.eng.bitRevLen ≠ 0#16 →
    s.eng.bitRevLen.getLsbD 0 = false → aligned v s.eng = true →
    s.eng.bitRevLen.setWidth 32 ≠ s.eng.tabLen →
    (∃ t, exec (Instr.ofVariant v true) s = .next t ∧ reportedFailure t ∧
      t.eng.status.err = .tabLen ∧ t.eng.cursor = 0#17 ∧ t.eng.cmd = encode (Instr.ofVariant v true) ∧
      t.mem = s.mem ∧ t.trace = [] ∧ sameOperands s.eng t.eng ∧ sameSurroundings s t) ∧
    exec (Instr.ofVariant v false) s = .fault .tableLengthMismatch) ∧
  ∀ (v : Variant) (chk : Bool) (s : State), s.busy = false → s.eng.bitRevLen = 0#16 →
    ∃ t, exec (Instr.ofVariant v chk) s = .next t ∧ t.eng.status.err = .none

/-- 60_exceptions.md R176: the validation pass ends with `E_RANGE` at the first entry index `j` for which
`g*(Tab[j] >> sh) + (g-1) >= NELEM`, `CURSOR = j`; the entries `Tab[0 .. j]` have been read in order, no
later entry and no buffer element, and nothing has been written. -/
def Obligations.FirstOffendingEntryIsReported : Prop :=
  ∀ (v : Variant) (s : State) (j : Nat), s.busy = false → s.sched = [] → s.eng.count ≠ 0 →
    aligned v s.eng = true → oddCount s.eng = false → lengthMatches s.eng = true → spansGood v s →
    j < s.eng.count →
    s.eng.nElem.toNat ≤ v.group * (tabEntry s.eng s.mem j >>> v.shift).toNat + (v.group - 1) →
    (∀ i, i < j →
      v.group * (tabEntry s.eng s.mem i >>> v.shift).toNat + (v.group - 1) < s.eng.nElem.toNat) →
    ∃ t, exec (Instr.ofVariant v true) s = .next t ∧ reportedFailure t ∧
      t.eng.status.err = .range ∧ t.eng.cursor.toNat = j ∧
      t.eng.cmd = encode (Instr.ofVariant v true) ∧ t.mem = s.mem ∧
      t.trace.reverse = (List.range (j + 1)).map Access.readEntry ∧
      sameOperands s.eng t.eng ∧ sameSurroundings s t

/-- 43_engine_common.md R144 (c), 60_exceptions.md R176: the same in single steps. A checked launch whose
first offending entry is `j` is accepted, and the engine's first `j + 1` turns test the entries `0 .. j`,
one a turn (log entries 7, 11), busy until the last of them ends with `E_RANGE`. -/
def Obligations.FirstOffendingEntryEndsTheSingleSteps : Prop :=
  ∀ (v : Variant) (s : State) (j : Nat) (rest : List Turn), launchRuns v true s →
    s.sched = List.replicate (j + 1) .engine ++ rest → j < s.eng.count →
    entryInRange v s.eng s.mem j = false →
    (∀ i, i < j → entryInRange v s.eng s.mem i = true) →
    ∃ u t : State, exec (Instr.ofVariant v true) s = .next u ∧ u.busy = true ∧
      (∀ i, i ≤ j → ∃ w : State,
        (Host.Core.run Sys2Proof.core i u : Host.Outcome State Fault Refusal) = .next w ∧
          w.busy = true ∧ w.mem = s.mem) ∧
      (Host.Core.run Sys2Proof.core (j + 1) u : Host.Outcome State Fault Refusal) = .next t ∧
      reportedFailure t ∧ t.eng.status.err = .range ∧ t.eng.cursor.toNat = j ∧
      t.eng.cmd = encode (Instr.ofVariant v true) ∧ t.mem = s.mem ∧
      t.trace.reverse = (List.range (j + 1)).map Access.readEntry ∧
      sameOperands s.eng t.eng ∧ sameSurroundings { s with sched := rest } t

/-- 43_engine_common.md R163: an unchecked launch with a nonzero count, aligned bases and good spans has a
next state exactly when (a) the count is even, (b) it equals the table's length and (c) every entry is in
range; otherwise the model faults, as R163 asks. -/
def Obligations.UncheckedLaunchIsDefinedExactlyOnItsContract : Prop :=
  ∀ (v : Variant) (s : State), s.mem.wf → s.busy = false → s.eng.count ≠ 0 → aligned v s.eng = true →
    spansGood v s →
    ((∃ t, exec (Instr.ofVariant v false) s = .next t) ↔
      (s.eng.count % 2 = 0 ∧ s.eng.count = s.eng.tabLen.toNat ∧
        ∀ j, j < s.eng.count →
          v.group * (tabEntry s.eng s.mem j >>> v.shift).toNat + (v.group - 1) < s.eng.nElem.toNat)) ∧
    ((∃ t, exec (Instr.ofVariant v false) s = .next t) ∨
      ∃ r, exec (Instr.ofVariant v false) s = .fault r)

/-- 20_memory.md R57, R60, 70_reset_and_hazards.md R208: a launch that reaches its memory accesses with a
span that wraps the address space, with overlapping spans, or with a span on the register block or a
device, is refused under its own name. That the register-only errors come first is the model's reading
(log entry 8). -/
def Obligations.SpansOutsideTheSpecAreRefused : Prop :=
  ∀ (v : Variant) (chk : Bool) (s : State), s.busy = false → s.eng.count ≠ 0 →
    aligned v s.eng = true → oddCount s.eng = false → lengthMatches s.eng = true →
    ((2 ^ 32 < s.eng.bufBase.toNat + s.eng.nElem.toNat * v.bytes ∨
        2 ^ 32 < s.eng.tabBase.toNat + 2 * s.eng.tabLen.toNat) →
      exec (Instr.ofVariant v chk) s = .refused .spanWraps) ∧
    (spansInSpace v s.eng = true → (bufSpan v s.eng).overlaps (tabSpan s.eng) = true →
      exec (Instr.ofVariant v chk) s = .refused .spansOverlap) ∧
    (spansInSpace v s.eng = true → (bufSpan v s.eng).overlaps (tabSpan s.eng) = false →
      (s.platform.ordinary (bufSpan v s.eng) = false ∨ s.platform.ordinary (tabSpan s.eng) = false) →
      exec (Instr.ofVariant v chk) s = .refused .spanNotOrdinaryMemory)

/-- 60_exceptions.md R179: every error is raised before the first buffer access, so after any error memory
holds exactly what it held before the `CMD` write; an error in a single step of the engine finds the
buffer and the table as they were lent. -/
def Obligations.ErrorsLeaveMemoryUntouched : Prop :=
  (∀ (i : Instr) (s t : State), exec i s = .next t → t.eng.status.err ≠ .none →
    t.mem = s.mem ∧ sameOperands s.eng t.eng ∧
    (∀ v chk, i = Instr.ofVariant v chk → s.busy = false →
      ∀ k, Access.readElem k ∉ t.trace ∧ Access.writeElem k ∉ t.trace)) ∧
  ∀ (s t : State) (l : Lease), Inv s → s.busy = true → s.loans.head? = some l →
    engineStep s = .next t →
    t.eng.status.err ≠ .none →
    t.mem = s.mem ∧ bufferIs l.variant t (bufElem l.variant l.eng l.mem) ∧
    ∀ j, j < t.eng.count → tabEntry t.eng t.mem j = tabEntry l.eng l.mem j

/-- 60_exceptions.md R177: of several causes exactly one is reported, the first in the order zero count (no
error), `E_ALIGN`, `E_ODDLEN`, `E_TABLEN`, `E_RANGE` at the lowest offending entry; `E_MODE` comes before all of them,
whatever the operands are. -/
def Obligations.OnlyTheFirstCauseIsReported : Prop :=
  (∀ (v : Variant) (chk : Bool) (s t : State), s.busy = false → s.sched = [] →
    exec (Instr.ofVariant v chk) s = .next t →
    t.eng.status.err =
      if s.eng.count = 0 then .none
      else if aligned v s.eng = false then .align
      else if s.eng.count % 2 = 1 then .oddLen
      else if s.eng.count ≠ s.eng.tabLen.toNat then .tabLen
      else if allInRange v s.eng s.mem = false then .range
      else .none) ∧
  (∀ (v : Variant) (chk : Bool) (s t : State), s.busy = false → s.sched = [] →
    exec (Instr.ofVariant v chk) s = .next t → t.eng.status.err = .range →
    entryInRange v s.eng s.mem t.eng.cursor.toNat = false ∧
    ∀ j, j < t.eng.cursor.toNat → entryInRange v s.eng s.mem j = true) ∧
  (∀ (i : Instr) (s : State), s.busy = false → i.isLaunchAttempt = true → i.launchOf = none →
    ∃ t, exec i s = .next t ∧ t.eng.status.err = .mode)

/-! ### Results and frames -/

/-- 40_apply_scalar16.md R110 with 43_engine_common.md R145, R147, R148, R162: a valid `applyScalar16`,
checked or not, completes; the buffer is the routine's at shift 1 and one element per pair; the table, the
operands and every byte no entry names are unchanged. -/
def Obligations.ApplyScalar16PermutesTheBuffer : Prop :=
  ∀ (chk : Bool) (s : State), s.mem.wf → validLaunch .s16 s → s.sched = [] →
    ∃ t, exec (.applyScalar16 chk) s = .next t ∧ goodEnd t ∧
      t.eng.cmd = (if chk then 0x00000009#32 else 0x00000001#32) ∧ t.eng.cursor.toNat = s.eng.count ∧
      (∀ k, k < s.eng.nElem.toNat → bufElem .s16 t.eng t.mem k =
        apply 1 1 (bufElem .s16 s.eng s.mem) (tabEntry s.eng s.mem) s.eng.count k) ∧
      (∀ j, j < s.eng.count → tabEntry t.eng t.mem j = tabEntry s.eng s.mem j) ∧
      (∀ x, ¬ namedByte .s16 s.eng s.mem x → t.mem.read x = s.mem.read x) ∧
      sameOperands s.eng t.eng ∧ sameSurroundings s t

/-- 41_apply_complex32.md R120, R121: a valid `applyComplex32`, checked or not, completes; the raw values
are the sample indices, and each pair exchanges the elements `2a`, `2b` and the elements `2a+1`, `2b+1`;
nothing else changes. -/
def Obligations.ApplyComplex32PermutesTheBuffer : Prop :=
  ∀ (chk : Bool) (s : State), s.mem.wf → validLaunch .c32 s → s.sched = [] →
    ∃ t, exec (.applyComplex32 chk) s = .next t ∧ goodEnd t ∧
      t.eng.cmd = (if chk then 0x0000000B#32 else 0x00000003#32) ∧ t.eng.cursor.toNat = s.eng.count ∧
      (∀ k, k < s.eng.nElem.toNat → bufElem .c32 t.eng t.mem k =
        apply 0 2 (bufElem .c32 s.eng s.mem) (tabEntry s.eng s.mem) s.eng.count k) ∧
      (∀ j, j < s.eng.count → tabEntry t.eng t.mem j = tabEntry s.eng s.mem j) ∧
      (∀ x, ¬ namedByte .c32 s.eng s.mem x → t.mem.read x = s.mem.read x) ∧
      sameOperands s.eng t.eng ∧ sameSurroundings s t

/-- 42_apply_complex64.md R130, R131: a valid `applyComplex64`, checked or not, completes; the raw values
shifted right by two are sample indices, and each pair exchanges the elements `2a`, `2b` and the elements
`2a+1`, `2b+1`; nothing else changes. -/
def Obligations.ApplyComplex64PermutesTheBuffer : Prop :=
  ∀ (chk : Bool) (s : State), s.mem.wf → validLaunch .c64 s → s.sched = [] →
    ∃ t, exec (.applyComplex64 chk) s = .next t ∧ goodEnd t ∧
      t.eng.cmd = (if chk then 0x0000000D#32 else 0x00000005#32) ∧ t.eng.cursor.toNat = s.eng.count ∧
      (∀ k, k < s.eng.nElem.toNat → bufElem .c64 t.eng t.mem k =
        apply 2 2 (bufElem .c64 s.eng s.mem) (tabEntry s.eng s.mem) s.eng.count k) ∧
      (∀ j, j < s.eng.count → tabEntry t.eng t.mem j = tabEntry s.eng s.mem j) ∧
      (∀ x, ¬ namedByte .c64 s.eng s.mem x → t.mem.read x = s.mem.read x) ∧
      sameOperands s.eng t.eng ∧ sameSurroundings s t

/-- 43_engine_common.md R148: for a launch that meets R163 the operation computes exactly
`Buf <- apply(Buf, Tab, zext(BITREVLEN))` and ends in `BUSY 0, DONE 1, ERR 0`, `CURSOR = zext(BITREVLEN)`;
a checked launch and an unchecked launch leave the same memory. -/
def Obligations.ValidLaunchComputesTheRoutine : Prop :=
  ∀ (v : Variant) (s : State), s.mem.wf → validLaunch v s → s.sched = [] →
    ∃ t u, exec (Instr.ofVariant v false) s = .next t ∧ exec (Instr.ofVariant v true) s = .next u ∧
      goodEnd t ∧ goodEnd u ∧ t.mem = u.mem ∧
      t.eng.cursor.toNat = s.eng.count ∧ u.eng.cursor.toNat = s.eng.count ∧
      ∀ k, k < s.eng.nElem.toNat → bufElem v t.eng t.mem k =
        apply v.shift v.group (bufElem v s.eng s.mem) (tabEntry s.eng s.mem) s.eng.count k

/-- 43_engine_common.md R146, R148: the steps and the atomic view agree, for every launch that puts the
engine to work, a checked one whose table fails its validation among them. Whatever number `m` of turns the
engine takes one by one (log entry 7) before it is left to run, the end is the one the atomic view gives at
once. -/
def Obligations.StepsAgreeWithTheAtomicView : Prop :=
  ∀ (v : Variant) (chk : Bool) (s : State) (m : Nat), s.mem.wf → launchRuns v chk s → s.sched = [] →
    s.inputs = [] → 0 < m →
    ∃ t u w, exec (Instr.ofVariant v chk) s = .next t ∧
      exec (Instr.ofVariant v chk) { s with sched := List.replicate m .engine } = .next u ∧
      u.busy = true ∧
      (Host.Core.run Sys2Proof.core (m + 1) u : Host.Outcome State Fault Refusal) = .next w ∧
      { w with sched := [] } = t

/-- 43_engine_common.md R162: an operation changes only buffer elements that some pair of its table names,
`STATUS`, `CURSOR` and `CMD`: no other buffer element, no table entry, no operand register and no other
memory. A command that launches nothing changes no memory. -/
def Obligations.OperationChangesOnlyWhatItsTableNames : Prop :=
  ∀ (i : Instr) (s t : State), s.mem.wf → exec i s = .next t →
    sameOperands s.eng t.eng ∧ sameSurroundings s t ∧
    (∀ v chk, i = Instr.ofVariant v chk →
      ∀ x, ¬ namedByte v s.eng s.mem x → t.mem.read x = s.mem.read x) ∧
    (∀ x, (tabSpan s.eng).has x = true → t.mem.read x = s.mem.read x) ∧
    (i.launchOf = none → t.mem = s.mem)

/-- 43_engine_common.md R150: one pair, from its start, takes its accesses in the stated order (both
entries; then for each component both reads before both writes, the `a` side first) and does to the buffer
what `pair` of R145 says; `CURSOR` advances by 2 (R146). That each access is one step, and the stages
between them, are the model's (DESIGN CHOICE, log entry 11; R146 allows the split). -/
def Obligations.OnePairTakesItsAccessesInOrder : Prop :=
  ∀ (v : Variant) (s : State), Inv s → s.eng.phase = .permute → s.eng.stage = .readA →
    s.eng.variant = some v → s.eng.cursor.toNat < s.eng.count →
    let i := s.eng.cursor.toNat
    let a := (tabEntry s.eng s.mem i >>> v.shift).toNat
    let b := (tabEntry s.eng s.mem (i + 1) >>> v.shift).toNat
    ∃ t, engineRun (2 + 4 * v.group) s = .next t ∧
      t.eng.cursor.toNat = i + 2 ∧ t.eng.phase = .permute ∧ t.eng.stage = .readA ∧
      t.trace.reverse = s.trace.reverse ++
        ([Access.readEntry i, .readEntry (i + 1)] ++
          (List.range v.group).flatMap fun c =>
            [.readElem (v.group * a + c), .readElem (v.group * b + c),
             .writeElem (v.group * a + c), .writeElem (v.group * b + c)]) ∧
      ∀ k, k < s.eng.nElem.toNat → bufElem v t.eng t.mem k =
        pairExchange v.shift v.group (bufElem v s.eng s.mem)
          (tabEntry s.eng s.mem i) (tabEntry s.eng s.mem (i + 1)) k

/-! ### Laws of the operation -/

/-- 43_engine_common.md R156: for every disjoint in-range table, launching the operation twice restores
memory, for all three widths; for a table with repeated indices it does not in general (R152's example:
`[10,11,12,13]` gives `[10,12,13,11]`, and then `[10,13,11,12]`). -/
def Obligations.SecondLaunchRestoresTheBuffer : Prop :=
  (∀ (v : Variant) (chk chk' : Bool) (s : State), s.mem.wf → validLaunch v s → s.sched = [] →
    tableDisjoint v.shift (tabEntry s.eng s.mem) s.eng.count →
    ∃ t u, exec (Instr.ofVariant v chk) s = .next t ∧ exec (Instr.ofVariant v chk') t = .next u ∧
      u.mem = s.mem) ∧
  (let B : Nat → Nat := fun k => [10, 11, 12, 13].getD k 0
   let T : Nat → BitVec 16 := fun j => [2#16, 4#16, 4#16, 6#16].getD j 0#16
   (List.range 4).map (apply 1 1 B T 4) = [10, 12, 13, 11] ∧
   (List.range 4).map (apply 1 1 (apply 1 1 B T 4) T 4) = [10, 13, 11, 12])

/-- 43_engine_common.md R157: the multiset of element values after a valid operation equals the multiset
before it, for every in-range table, disjoint or not. -/
def Obligations.ElementsAreNeitherLostNorDuplicated : Prop :=
  ∀ (v : Variant) (chk : Bool) (s : State), s.mem.wf → validLaunch v s → s.sched = [] →
    ∃ t, exec (Instr.ofVariant v chk) s = .next t ∧
      List.Perm ((List.range s.eng.nElem.toNat).map (bufElem v t.eng t.mem))
        ((List.range s.eng.nElem.toNat).map (bufElem v s.eng s.mem))

/-- 43_engine_common.md R160: with a bit-reversal table for `2^m` positions, position `p` ends up holding,
component by component, what position `rev_m(p)` held; the pairs for 3-bit addresses are (1,4) and (3,6) only. -/
def Obligations.BitReversalTableGivesBitReversedOrder : Prop :=
  (∀ (v : Variant) (chk : Bool) (s : State) (m : Nat), s.mem.wf → validLaunch v s → s.sched = [] →
    bitReversalTable v.shift m (tabEntry s.eng s.mem) s.eng.count →
    v.group * 2 ^ m ≤ s.eng.nElem.toNat →
    ∃ t, exec (Instr.ofVariant v chk) s = .next t ∧
      ∀ p c, p < 2 ^ m → c < v.group →
        bufElem v t.eng t.mem (v.group * p + c) = bufElem v s.eng s.mem (v.group * bitRev m p + c)) ∧
  ((List.range 8).filter (fun i => decide (i < bitRev 3 i))).map (fun i => (i, bitRev 3 i)) =
    [(1, 4), (3, 6)]

/-- 43_engine_common.md R152: for a disjoint table neither the order of the pairs nor the order of the two
entries inside a pair affects the result. -/
def Obligations.OrderOfDisjointPairsDoesNotMatter : Prop :=
  ∀ (sh g p : Nat) (B : Nat → BitVec 64) (T T' : Nat → BitVec 16),
    tableDisjoint sh T (2 * p) →
    List.Perm ((List.range p).map (pairPositions sh T)) ((List.range p).map (pairPositions sh T')) →
    apply sh g B T (2 * p) = apply sh g B T' (2 * p)

/-- 30_encoding.md R91, 40_apply_scalar16.md R112, 42_apply_complex64.md R132: the `sh` low bits of a raw
value have no effect, whatever their value and in a checked launch too: two launches that differ in those
bits of their tables alone both complete with the same buffer. -/
def Obligations.DiscardedBitsHaveNoEffect : Prop :=
  ∀ (v : Variant) (chk : Bool) (s s' : State), s.mem.wf → s'.mem.wf → validLaunch v s →
    s'.eng = s.eng → s'.platform = s.platform → s.sched = [] → s'.sched = [] →
    (∀ j, j < s.eng.count →
      (tabEntry s'.eng s'.mem j).toNat / 2 ^ v.shift = (tabEntry s.eng s.mem j).toNat / 2 ^ v.shift) →
    (∀ k, k < s.eng.nElem.toNat → bufElem v s'.eng s'.mem k = bufElem v s.eng s.mem k) →
    ∃ t t', exec (Instr.ofVariant v chk) s = .next t ∧ exec (Instr.ofVariant v chk) s' = .next t' ∧
      goodEnd t ∧ goodEnd t' ∧
      ∀ k, k < s.eng.nElem.toNat → bufElem v t'.eng t'.mem k = bufElem v t.eng t.mem k

/-- 30_encoding.md R91, R93: normalization is the unsigned quotient by `2^sh`, and the largest element
indices the engine can form are 32767, 131071 and 32767, each attained. -/
def Obligations.IndexArithmeticStaysInItsRange : Prop :=
  (∀ (v : Variant) (raw : BitVec 16), (normIndex v raw).toNat = raw.toNat / 2 ^ v.shift) ∧
  (∀ raw : BitVec 16, topElem .s16 raw ≤ 32767 ∧ topElem .c32 raw ≤ 131071 ∧ topElem .c64 raw ≤ 32767) ∧
  topElem .s16 0xFFFF#16 = 32767 ∧ topElem .c32 0xFFFF#16 = 131071 ∧ topElem .c64 0xFFFF#16 = 32767

/-- 20_memory.md R57, R58: the byte binding is little-endian: the byte at the lowest address of an entry or
an element holds its bits 7:0, and so on upward. -/
def Obligations.ByteBindingIsLittleEndian : Prop :=
  ∀ (e : Engine) (m : Memory) (n : Nat),
    let t := e.tabBase.toNat + 2 * n
    let b := e.bufBase.toNat
    tabEntry e m n = m.read (t + 1) ++ m.read t ∧
    (bufElem .s16 e m n).setWidth 16 = m.read (b + n * 2 + 1) ++ m.read (b + n * 2) ∧
    (bufElem .c32 e m n).setWidth 32 =
      m.read (b + n * 4 + 3) ++ m.read (b + n * 4 + 2) ++ m.read (b + n * 4 + 1) ++ m.read (b + n * 4) ∧
    bufElem .c64 e m n =
      m.read (b + n * 8 + 7) ++ m.read (b + n * 8 + 6) ++ m.read (b + n * 8 + 5) ++ m.read (b + n * 8 + 4) ++
        m.read (b + n * 8 + 3) ++ m.read (b + n * 8 + 2) ++ m.read (b + n * 8 + 1) ++ m.read (b + n * 8)

/-! ### The whole machine -/

/-- 43_engine_common.md R151: every operation ends after finitely many steps: from every state the engine
is idle, or has faulted, when its run ends; from a state that meets the invariant it is idle. -/
def Obligations.EveryOperationTerminates : Prop :=
  ∀ s : State,
    ((∃ t, runToEnd s = .next t ∧ t.busy = false) ∨ ∃ r, runToEnd s = .fault r) ∧
    (Inv s → ∃ t, runToEnd s = .next t ∧ t.busy = false)

/-- 70_reset_and_hazards.md R200, R201, with 10_state.md R36: reset puts every register at its value and
leaves the engine idle; applied to an idle engine it changes no memory; and the model's reset state is
that engine. The temporaries, which R36 leaves unspecified, are not spoken of. -/
def Obligations.ResetPutsEveryRegisterAtItsValue : Prop :=
  (∀ s : State, ∃ t, hostAccess .reset s = .next t ∧
    (∀ r : Reg, t.eng.regWord r = 0#32) ∧ t.eng.phase = .idle ∧ (s.busy = false → t.mem = s.mem)) ∧
  (∀ r : Reg, State.reset.eng.regWord r = 0#32) ∧ State.reset.eng.phase = .idle

/-- The invariant holds right after reset. -/
def Obligations.ResetStateMeetsTheInvariant : Prop := Inv State.reset

/-- Every step of the machine keeps the invariant: memory in its canonical form, `STATUS` as R32 says, an
idle engine at rest, and a running operation whose buffer is, access by access, what the routine of R145
makes of the buffer it was lent. -/
def Obligations.EveryStepKeepsTheInvariant : Prop :=
  ∀ s t : State, Inv s → step s = .next t → Inv t

/-- 10_state.md R32: the invariants of `STATUS` hold after reset and every step keeps them, from any state
that meets them. -/
def Obligations.StatusInvariantsHold : Prop :=
  statusOk State.reset.eng ∧ ∀ s t : State, statusOk s.eng → step s = .next t → statusOk t.eng

/-- 60_exceptions.md R170: an operation that runs never stops the machine, and the permute pass raises no
error. -/
def Obligations.RunningOperationNeverStops : Prop :=
  ∀ s : State, Inv s → s.busy = true →
    ∃ t, engineStep s = .next t ∧ (s.eng.phase = .permute → t.eng.status.err = .none)

/-- 43_engine_common.md R155: the outcome of a command depends only on the operand registers, the command
word and the contents of buffer and table at launch (and the platform's address map): nothing kept from an
earlier operation, and no other byte of memory, can affect it. -/
def Obligations.NothingIsKeptFromEarlierOperations : Prop :=
  ∀ (v : Variant) (chk : Bool) (s s' : State), s.mem.wf → s'.mem.wf → s.busy = false →
    s'.busy = false → s.sched = [] → s'.sched = [] → sameOperands s.eng s'.eng →
    s'.platform = s.platform →
    (∀ x, ((bufSpan v s.eng).has x || (tabSpan s.eng).has x) = true →
      s'.mem.read x = s.mem.read x) →
    (∃ t t', exec (Instr.ofVariant v chk) s = .next t ∧ exec (Instr.ofVariant v chk) s' = .next t' ∧
      (∀ x, (bufSpan v s.eng).has x = true → t'.mem.read x = t.mem.read x) ∧
      t'.eng.cmd = t.eng.cmd ∧ t'.eng.status = t.eng.status ∧
      t'.eng.cursor = t.eng.cursor ∧ t'.busy = t.busy ∧ t'.trace = t.trace) ∨
    (∃ r, exec (Instr.ofVariant v chk) s = .fault r ∧ exec (Instr.ofVariant v chk) s' = .fault r) ∨
    (∃ r, exec (Instr.ofVariant v chk) s = .refused r ∧ exec (Instr.ofVariant v chk) s' = .refused r)

/-- 70_reset_and_hazards.md R205, R206: another agent's write to the buffer of any open loan, or to the
table of a running operation, is given no meaning. How long a loan is open is log entry 9. -/
def Obligations.LentMemoryIsProtected : Prop :=
  ∀ (s : State) (addr : Word) (data : List Byte), addr.toNat + data.length ≤ 2 ^ 32 →
    s.platform.ordinary (accessSpan addr data.length) = true →
    (∀ l, l ∈ s.loans → (accessSpan addr data.length).overlaps l.span = true →
      hostAccess (.memWrite addr data) s = .refused .bufferWriteWhileLent) ∧
    ((∀ l, l ∈ s.loans → (accessSpan addr data.length).overlaps l.span = false) → s.busy = true →
      (accessSpan addr data.length).overlaps (tabSpan s.eng) = true →
      hostAccess (.memWrite addr data) s = .refused .tableWriteWhileBusy)

/-- 20_memory.md R63, R65, R66 (a): a write of the host or of another agent, on ordinary memory that is
neither lent nor the table of a running operation, stores exactly its bytes, the first at the lowest
address, and changes nothing else of the state. -/
def Obligations.MemoryWriteStoresExactlyItsBytes : Prop :=
  ∀ (s : State) (addr : Word) (data : List Byte), s.mem.wf → addr.toNat + data.length ≤ 2 ^ 32 →
    s.platform.ordinary (accessSpan addr data.length) = true →
    (∀ l, l ∈ s.loans → (accessSpan addr data.length).overlaps l.span = false) →
    (s.busy = true → (accessSpan addr data.length).overlaps (tabSpan s.eng) = false) →
    ∃ m : Memory, hostAccess (.memWrite addr data) s = .next { s with mem := m } ∧ m.wf ∧
      (∀ i b, data[i]? = some b → m.read (addr.toNat + i) = b) ∧
      ∀ x, (x < addr.toNat ∨ addr.toNat + data.length ≤ x) → m.read x = s.mem.read x

/-- 20_memory.md R63, R66 (b): a read of the host or of another agent, on ordinary memory that no open loan
of an operation that permutes holds, returns what memory holds, and changes nothing but the model's records
(log entries 6, 15). -/
def Obligations.MemoryReadReturnsWhatMemoryHolds : Prop :=
  ∀ (s : State) (addr : Word) (len : Nat), addr.toNat + len ≤ 2 ^ 32 →
    s.platform.ordinary (accessSpan addr len) = true →
    (∀ l, l ∈ s.loans → l.permutes = true → (accessSpan addr len).overlaps l.span = false) →
    hostAccess (.memRead addr len) s = .next
      { s with
        replies := .memory addr ((List.range len).map fun i => s.mem.read (addr.toNat + i)) :: s.replies
        draws := s.draws + 1 }

/-- 70_reset_and_hazards.md R205: a launch on an idle engine that answers a next state opens a loan of its
own beside those that are open, and a loan stays open at every step, a later launch and a reset among them,
but for a read of `STATUS` (alone or in the poll loop) while `BUSY = 0`. How the window is read is DEDUCED,
log entry 9. -/
def Obligations.LoansStayOpenUntilStatusIsRead : Prop :=
  (∀ (v : Variant) (chk : Bool) (s t : State), s.busy = false →
    exec (Instr.ofVariant v chk) s = .next t →
    ∃ l, t.loans = l :: s.loans ∧ l.variant = v ∧ sameOperands s.eng l.eng ∧ l.mem = s.mem) ∧
  ∀ (s t : State) (l : Lease), step s = .next t → l ∈ s.loans →
    l ∈ t.loans ∨
    (s.busy = false ∧ ∃ rest, s.inputs = .regRead 0x04 4 :: rest ∨ s.inputs = .poll :: rest)

/-- 20_memory.md R65, 60_exceptions.md R190: a write of another agent outside the two spans and a step of
the engine commute: neither can see the other. -/
def Obligations.WritesOutsideTheSpansCommuteWithTheEngine : Prop :=
  ∀ (s t u : State) (addr : Word) (data : List Byte), Inv s → s.busy = true →
    engineStep s = .next t → hostAccess (.memWrite addr data) s = .next u →
    ∃ w, engineStep u = .next w ∧ hostAccess (.memWrite addr data) t = .next w

/-- 70_reset_and_hazards.md R202: after a reset that cuts an operation short every buffer element holds its
old value or a value the sequence of exchanges gives it, and no more is said; the table and every byte
that no entry names are unchanged; the engine is at its reset values. -/
def Obligations.ResetDuringAnOperation : Prop :=
  ∀ (s : State) (l : Lease), Inv s → s.busy = true → s.loans.head? = some l →
    ∃ t, hostAccess .reset s = .next t ∧
      (∀ r : Reg, t.eng.regWord r = 0#32) ∧ t.busy = false ∧
      (∀ x, (tabSpan s.eng).has x = true → t.mem.read x = s.mem.read x) ∧
      (∀ x, ¬ namedByte l.variant l.eng l.mem x → t.mem.read x = s.mem.read x) ∧
      (∀ k, k < l.eng.nElem.toNat → ∃ p, p ≤ l.eng.count / 2 ∧
        bufElem l.variant l.eng t.mem k = bufAfter l.variant l.eng l.mem p k)

/-- 10_state.md R34: a host read of `CURSOR` while `BUSY = 1` returns some value between 0 and
`zext(BITREVLEN)` inclusive; while `BUSY = 0` the value is exact. -/
def Obligations.CursorReadIsInRangeOrExact : Prop :=
  ∀ s : State,
    (s.busy = true → ∃ t n, hostAccess (.regRead 0x1C 4) s = .next t ∧ n ≤ s.eng.count ∧
      t.replies = .register .cursor (BitVec.ofNat 32 n) :: s.replies ∧ t.eng = s.eng ∧ t.mem = s.mem) ∧
    (s.busy = false → ∃ t, hostAccess (.regRead 0x1C 4) s = .next t ∧
      t.replies = .register .cursor (s.eng.cursor.setWidth 32) :: s.replies ∧ t.eng = s.eng ∧
      t.mem = s.mem)

/-- 20_memory.md R71, 70_reset_and_hazards.md R205: an agent that reads a buffer element while the buffer is
lent to an operation that permutes it gets one of the values the element takes during the sequence of
exchanges, whole; with several open loans of that buffer (log entry 9), one of the values of one of them.
And in any read of ordinary memory each byte is a byte of such a value of a loan that holds it, or, where no
loan does, what memory holds (log entry 6). -/
def Obligations.LentElementReadIsOneOfItsValues : Prop :=
  (∀ (s : State) (l : Lease) (k : Nat) (addr : Word), l ∈ s.loans → l.permutes = true →
    spansInSpace l.variant l.eng = true → k < l.eng.nElem.toNat →
    addr.toNat = elemAddr l.variant l.eng k →
    s.platform.ordinary (accessSpan addr l.variant.bytes) = true →
    (∀ l', l' ∈ s.loans → l'.permutes = true →
      (l'.variant = l.variant ∧ l'.span = l.span) ∨
        (accessSpan addr l.variant.bytes).overlaps l'.span = false) →
    ∃ t l' p, hostAccess (.memRead addr l.variant.bytes) s = .next t ∧
      l' ∈ s.loans ∧ l'.permutes = true ∧ l'.variant = l.variant ∧ l'.span = l.span ∧
      p ≤ l'.eng.count / 2 ∧
      t.replies = .memory addr ((List.range l.variant.bytes).map
        (elemByte (bufAfter l'.variant l'.eng l'.mem p k))) :: s.replies ∧
      t.eng = s.eng ∧ t.mem = s.mem) ∧
  ∀ (s : State) (addr : Word) (len : Nat), addr.toNat + len ≤ 2 ^ 32 →
    s.platform.ordinary (accessSpan addr len) = true →
    ∃ t bytes, hostAccess (.memRead addr len) s = .next t ∧
      t.replies = .memory addr bytes :: s.replies ∧ bytes.length = len ∧
      t.eng = s.eng ∧ t.mem = s.mem ∧
      ∀ i, i < len →
        (∃ l p, l ∈ s.loans ∧ l.permutes = true ∧ l.span.has (addr.toNat + i) = true ∧
          p ≤ l.eng.count / 2 ∧
          bytes[i]? = some (elemByte
            (bufAfter l.variant l.eng l.mem p ((addr.toNat + i - l.eng.bufBase.toNat) / l.variant.bytes))
            ((addr.toNat + i - l.eng.bufBase.toNat) % l.variant.bytes))) ∨
        ((∀ l, l ∈ s.loans → l.permutes = true → l.span.has (addr.toNat + i) = false) ∧
          bytes[i]? = some (s.mem.read (addr.toNat + i)))

/-- A step issues the decoded command (10_state.md R22, 30_encoding.md R86): on the host's turn, with a
write to `CMD` next, the step is `exec` of the command at the state without that access (and, while
`BUSY = 1`, without that turn). `withFetchWord` places a command so. -/
def Obligations.StepIssuesTheDecodedCommand : Prop :=
  (∀ (s : State) (w : Word) (rest : List Input), s.inputs = .regWrite 0x00 4 w :: rest →
    (s.busy = false → step s = exec (decode w) { s with inputs := rest }) ∧
    (∀ turns, s.busy = true → s.sched = .host :: turns →
      step s = exec (decode w) { s with inputs := rest, sched := turns })) ∧
  (∀ (s : State) (i : Instr), i.wf = true →
    step (s.withFetchWord 32 (encode i).toNat) = exec i s ∧
    decodeTableWord 32 (encode i).toNat = some i)

/-- 30_encoding.md R95, 43_engine_common.md R140: the host sequence of a call, started on an idle engine,
runs in its seven accesses to a good end: the poll reads `DONE`, the loan is closed, the buffer is
permuted, and the accesses after the call are still to come. -/
def Obligations.CallSequenceRunsToItsEnd : Prop :=
  ∀ (c : Call) (s : State) (rest : List Input), s.mem.wf → s.busy = false → s.sched = [] →
    s.inputs = c.inputs ++ rest →
    let e : Engine :=
      { s.eng with
        bufBase := c.bufBase, nElem := c.nElem, tabBase := c.tabBase, tabLen := c.tabLen,
        bitRevLen := c.count.setWidth 16 }
    validLaunch c.variant { s with eng := e } →
    ∃ t : State, (Host.Core.run Sys2Proof.core 7 s : Host.Outcome State Fault Refusal) = .next t ∧
      goodEnd t ∧ t.inputs = rest ∧ t.loans = [] ∧
      t.replies = .register .status 0x00000002#32 :: s.replies ∧
      t.eng.cmd = launchWord c.variant c.chk ∧ sameOperands e t.eng ∧
      ∀ k, k < c.nElem.toNat → bufElem c.variant t.eng t.mem k =
        apply c.variant.shift c.variant.group (bufElem c.variant e s.mem) (tabEntry e s.mem) e.count k

/-- 20_memory.md R66 (b), 70_reset_and_hazards.md R205, R209: a read of `STATUS` that shows `BUSY = 0`
closes every open loan, and from then on every agent reads what memory holds; while `BUSY = 1` the loans
stay open. -/
def Obligations.StatusReadMakesTheBufferVisible : Prop :=
  ∀ s : State, ∃ t, hostAccess (.regRead 0x04 4) s = .next t ∧ t.eng = s.eng ∧ t.mem = s.mem ∧
    t.replies = .register .status s.eng.statusWord :: s.replies ∧
    (s.busy = true → t.loans = s.loans) ∧
    (s.busy = false → t.loans = [] ∧ (∀ x, visibleByte t x = s.mem.read x) ∧
      ∀ (addr : Word) (len : Nat), addr.toNat + len ≤ 2 ^ 32 →
        s.platform.ordinary (accessSpan addr len) = true →
        ∃ u, hostAccess (.memRead addr len) t = .next u ∧ u.replies =
          .memory addr ((List.range len).map fun i => s.mem.read (addr.toNat + i)) :: t.replies)

/-- 30_encoding.md R95: the poll loop. On the host's turn while `BUSY = 1` it replies `STATUS` with bit 0
set and stays the host's next access (DEDUCED, log entry 17); when `BUSY = 0` it replies `STATUS` with bit 0
clear, ends, and closes the loans. -/
def Obligations.PollStaysUntilTheEngineIsIdle : Prop :=
  ∀ (s : State) (rest : List Input), s.inputs = .poll :: rest →
    (∀ turns, s.busy = true → s.sched = .host :: turns →
      s.eng.statusWord.getLsbD 0 = true ∧
      step s = .next
        { s with sched := turns, replies := .register .status s.eng.statusWord :: s.replies }) ∧
    (s.busy = false →
      s.eng.statusWord.getLsbD 0 = false ∧
      step s = .next
        { s with
          inputs := rest, loans := [], replies := .register .status s.eng.statusWord :: s.replies })

/-- 30_encoding.md R96: the pseudo-operations. (a) `apply(B, T, n)` is the call of the operation whose
element width is the buffer's, 16, 32 or 64 bits, with the table's length as its count where the count is
omitted; no other width has one. (b) `wait` is the poll loop alone. (c) `nop` is a write of 0 to `CMD` and
changes nothing. -/
def Obligations.PseudoOperationsStandForTheirAccesses : Prop :=
  (∀ (chk : Bool) (bufBase nElem tabBase tabLen n : Word),
    let call (width : Nat) := Call.ofWidth width chk bufBase nElem tabBase tabLen
    (∀ p : Nat × Variant, p ∈ [(16, Variant.s16), (32, .c32), (64, .c64)] →
      call p.1 (some n) = some ⟨p.2, chk, bufBase, nElem, tabBase, tabLen, n⟩ ∧
      call p.1 none = some ⟨p.2, chk, bufBase, nElem, tabBase, tabLen, tabLen⟩) ∧
    ∀ width, width ∉ [16, 32, 64] → call width (some n) = none ∧ call width none = none) ∧
  waitInputs = [.poll] ∧
  ∀ (s : State) (rest : List Input), s.busy = false → s.inputs = nopInputs ++ rest →
    nopInputs = [.regWrite 0x00 4 0x00000000#32] ∧ step s = .next { s with inputs := rest }
end

