-- ==== Sys2Proof/Laws/Memory.lean ====
section
/-! SUPPORT. The laws of memory: a read after a write, the canonical form kept by every memory operation,
the bytes of a wider access, and that two canonical memories that read the same are the same. -/

namespace Sys2Proof.Machine

/-! ### One byte -/

@[simp] theorem Memory.read_nil (a : Nat) : Memory.read [] a = Config.unlistedByte := rfl

@[simp] theorem Memory.read_head (c : Host.Cell) (m : Memory) : Memory.read (c :: m) c.1 = c.2 := by
  simp [Memory.read]

theorem Memory.wf_nil : Memory.wf [] := by decide

theorem Memory.wf_cons {c : Host.Cell} {m : Memory} :
    Memory.wf (c :: m) ↔
      (∀ d ∈ m, c.1 < d.1) ∧ c.2 ≠ Config.unlistedByte ∧ c.1 < Config.addrSpace ∧ m.wf := by
  simp only [Memory.wf, List.pairwise_cons, List.forall_mem_cons]
  tauto

theorem Memory.wf_tail {c : Host.Cell} {m : Memory} (h : Memory.wf (c :: m)) : m.wf :=
  (Memory.wf_cons.1 h).2.2.2

/-- An address no entry has reads as unlisted. -/
theorem Memory.read_of_absent {m : Memory} {a : Nat} (h : ∀ d ∈ m, d.1 ≠ a) :
    m.read a = Config.unlistedByte := by
  induction m with
  | nil => rfl
  | cons c m ih =>
    have hc : c.1 ≠ a := h c (by simp)
    simp only [Memory.read, hc, if_false]
    exact ih fun d hd => h d (by simp [hd])

theorem Memory.read_below {m : Memory} {a : Nat} (h : ∀ d ∈ m, a < d.1) :
    m.read a = Config.unlistedByte :=
  Memory.read_of_absent fun d hd => (Nat.ne_of_lt (h d hd)).symm

/-- Every entry of a write is the new cell or an old one. -/
theorem Memory.mem_write {m : Memory} {a : Nat} {v : Byte} {d : Host.Cell} (h : d ∈ m.write a v) :
    (d = (a, v) ∧ v ≠ Config.unlistedByte) ∨ d ∈ m := by
  induction m with
  | nil =>
    simp only [Memory.write] at h
    split at h <;> simp_all
  | cons c m ih =>
    simp only [Memory.write] at h
    split at h
    · split at h <;> simp_all
    · split at h
      · split at h <;> simp_all
        tauto
      · rcases List.mem_cons.1 h with rfl | h
        · simp
        · rcases ih h with h | h
          · exact .inl h
          · exact .inr (by simp [h])

/-- A write inside the address space keeps the canonical form. -/
theorem Memory.wf_write {m : Memory} {a : Nat} {v : Byte} (h : m.wf) (ha : a < Config.addrSpace) :
    (m.write a v).wf := by
  induction m with
  | nil =>
    simp only [Memory.write]
    split
    · exact Memory.wf_nil
    · simp_all [Memory.wf]
  | cons c m ih =>
    obtain ⟨hlt, hne, hc, hm⟩ := Memory.wf_cons.1 h
    simp only [Memory.write]
    split
    · split
      · exact h
      · refine Memory.wf_cons.2 ⟨?_, by assumption, ha, h⟩
        intro d hd
        rcases List.mem_cons.1 hd with rfl | hd
        · assumption
        · exact Nat.lt_trans (by assumption) (hlt d hd)
    · split
      · split
        · exact hm
        · refine Memory.wf_cons.2 ⟨?_, by assumption, ha, hm⟩
          intro d hd
          have := hlt d hd
          simp_all
      · refine Memory.wf_cons.2 ⟨?_, hne, hc, ih hm⟩
        intro d hd
        rcases Memory.mem_write hd with ⟨rfl, -⟩ | hd
        · simp only
          omega
        · exact hlt d hd

/-- A read after a write: the written byte at its address, the old byte elsewhere. -/
theorem Memory.read_write {m : Memory} (h : m.wf) (a : Nat) (v : Byte) (x : Nat) :
    (m.write a v).read x = if x = a then v else m.read x := by
  induction m with
  | nil =>
    simp only [Memory.write]
    split <;> by_cases hx : x = a <;> simp_all [Memory.read, eq_comm]
  | cons c m ih =>
    obtain ⟨hlt, -, -, hm⟩ := Memory.wf_cons.1 h
    simp only [Memory.write]
    split
    · rename_i hac
      have hbelow : Memory.read (c :: m) a = Config.unlistedByte := by
        refine Memory.read_below fun d hd => ?_
        rcases List.mem_cons.1 hd with rfl | hd
        · exact hac
        · exact Nat.lt_trans hac (hlt d hd)
      split
      · by_cases hx : x = a
        · subst hx; simp_all
        · simp [hx]
      · by_cases hx : x = a
        · subst hx; simp [Memory.read]
        · simp [Memory.read, hx, Ne.symm hx]
    · split
      · rename_i hac
        subst hac
        have hbelow : Memory.read m c.1 = Config.unlistedByte := Memory.read_below hlt
        split
        · by_cases hx : x = c.1
          · subst hx; simp_all
          · simp [Memory.read, hx, Ne.symm hx]
        · by_cases hx : x = c.1
          · subst hx; simp [Memory.read]
          · simp [Memory.read, hx, Ne.symm hx]
      · by_cases hx : c.1 = x
        · subst hx
          simp only [Memory.read, if_true]
          rw [if_neg (by omega)]
        · simp only [Memory.read, hx, if_false, ih hm]

theorem Memory.read_write_same {m : Memory} (h : m.wf) (a : Nat) (v : Byte) :
    (m.write a v).read a = v := by simp [Memory.read_write h]

theorem Memory.read_write_other {m : Memory} (h : m.wf) {a x : Nat} (v : Byte) (hx : x ≠ a) :
    (m.write a v).read x = m.read x := by simp [Memory.read_write h, hx]

/-- Two canonical memories that read the same everywhere are equal. -/
theorem Memory.ext {m m' : Memory} (h : m.wf) (h' : m'.wf) (hr : ∀ a, m.read a = m'.read a) :
    m = m' := by
  induction m generalizing m' with
  | nil =>
    cases m' with
    | nil => rfl
    | cons c m' =>
      have := hr c.1
      rw [Memory.read_head] at this
      exact absurd this.symm (Memory.wf_cons.1 h').2.1
  | cons c m ih =>
    obtain ⟨hlt, hne, -, hm⟩ := Memory.wf_cons.1 h
    cases m' with
    | nil =>
      have := hr c.1
      rw [Memory.read_head] at this
      exact absurd this hne
    | cons c' m' =>
      obtain ⟨hlt', hne', -, hm'⟩ := Memory.wf_cons.1 h'
      have hkey : c.1 = c'.1 := by
        rcases Nat.lt_trichotomy c.1 c'.1 with hl | hl | hl
        · have hb : Memory.read (c' :: m') c.1 = Config.unlistedByte := by
            refine Memory.read_below fun d hd => ?_
            rcases List.mem_cons.1 hd with rfl | hd
            · exact hl
            · exact Nat.lt_trans hl (hlt' d hd)
          have := hr c.1
          rw [hb, Memory.read_head] at this
          exact absurd this hne
        · exact hl
        · have hb : Memory.read (c :: m) c'.1 = Config.unlistedByte := by
            refine Memory.read_below fun d hd => ?_
            rcases List.mem_cons.1 hd with rfl | hd
            · exact hl
            · exact Nat.lt_trans hl (hlt d hd)
          have := hr c'.1
          rw [hb, Memory.read_head] at this
          exact absurd this.symm hne'
      have hval : c.2 = c'.2 := by
        have := hr c.1
        simpa [Memory.read, hkey] using this
      have hrest : ∀ a, Memory.read m a = Memory.read m' a := by
        intro a
        by_cases ha : c.1 = a
        · subst ha
          rw [Memory.read_below hlt, hkey, Memory.read_below hlt']
        · have := hr a
          simpa [Memory.read, ha, ← hkey] using this
      rw [ih hm hm' hrest, Prod.ext hkey hval]

/-! ### Wider accesses (20_memory.md R57, R58) -/

theorem Memory.readLE_lt (m : Memory) (a n : Nat) : m.readLE a n < 256 ^ n := by
  induction n generalizing a with
  | zero => simp [Memory.readLE]
  | succ n ih =>
    have h1 := ih (a + 1)
    have h2 := (m.read a).isLt
    simp only [Memory.readLE, Nat.pow_succ]
    omega

/-- A wide read depends on its own bytes only. -/
theorem Memory.readLE_congr {m m' : Memory} {a n : Nat}
    (h : ∀ x, a ≤ x → x < a + n → m'.read x = m.read x) : m'.readLE a n = m.readLE a n := by
  induction n generalizing a with
  | zero => rfl
  | succ n ih =>
    simp only [Memory.readLE]
    rw [h a (by omega) (by omega), ih fun x h1 h2 => h x (by omega) (by omega)]

theorem Memory.wf_writeLE {m : Memory} {a n : Nat} (v : Nat) (h : m.wf)
    (ha : a + n ≤ Config.addrSpace) : (m.writeLE a n v).wf := by
  induction n generalizing m a v with
  | zero => exact h
  | succ n ih => exact ih _ (Memory.wf_write h (by omega)) (by omega)

/-- A byte after a wide write: byte `x - a` of the value inside the access, the old byte outside. -/
theorem Memory.read_writeLE {m : Memory} {a n : Nat} (v : Nat) (h : m.wf)
    (ha : a + n ≤ Config.addrSpace) (x : Nat) :
    (m.writeLE a n v).read x =
      if a ≤ x ∧ x < a + n then BitVec.ofNat 8 (v / 256 ^ (x - a)) else m.read x := by
  induction n generalizing m a v with
  | zero => simp [Memory.writeLE, show ¬(a ≤ x ∧ x < a) by omega]
  | succ n ih =>
    simp only [Memory.writeLE]
    rw [ih _ (Memory.wf_write h (by omega)) (by omega), Memory.read_write h]
    by_cases hx : x = a
    · subst hx
      simp
    · by_cases hin : a + 1 ≤ x ∧ x < a + 1 + n
      · rw [if_pos hin, if_pos (by omega), Nat.div_div_eq_div_mul, ← Nat.pow_succ',
          show (x - (a + 1)).succ = x - a by omega]
      · rw [if_neg hin, if_neg hx, if_neg (by omega)]

/-- A wide write leaves every byte outside it alone. -/
theorem Memory.read_writeLE_outside {m : Memory} {a n : Nat} (v : Nat) (h : m.wf)
    (ha : a + n ≤ Config.addrSpace) {x : Nat} (hx : x < a ∨ a + n ≤ x) :
    (m.writeLE a n v).read x = m.read x := by
  rw [Memory.read_writeLE v h ha, if_neg (by omega)]

/-- `MemRead` after `MemWrite` at one place gives the low `n` bytes written. -/
theorem Memory.readLE_writeLE {m : Memory} {a n : Nat} (v : Nat) (h : m.wf)
    (ha : a + n ≤ Config.addrSpace) : (m.writeLE a n v).readLE a n = v % 256 ^ n := by
  induction n generalizing m a v with
  | zero => simp [Memory.readLE, Nat.mod_one]
  | succ n ih =>
    have hw := Memory.wf_write (v := BitVec.ofNat 8 v) h (show a < Config.addrSpace by omega)
    simp only [Memory.readLE, Memory.writeLE]
    rw [ih _ hw (by omega), Memory.read_writeLE_outside _ hw (by omega) (by omega),
      Memory.read_write_same h, Nat.pow_succ', Nat.mod_mul]
    simp

/-- A wide write does not change a wide read that shares no byte with it. -/
theorem Memory.readLE_writeLE_apart {m : Memory} {a n b k : Nat} (v : Nat) (h : m.wf)
    (ha : a + n ≤ Config.addrSpace) (hd : b + k ≤ a ∨ a + n ≤ b) :
    (m.writeLE a n v).readLE b k = m.readLE b k :=
  Memory.readLE_congr fun x h1 h2 => Memory.read_writeLE_outside v h ha (by omega)

theorem Memory.wf_writeBytes {m : Memory} {a : Nat} {bs : List Byte} (h : m.wf)
    (ha : a + bs.length ≤ Config.addrSpace) : (m.writeBytes a bs).wf := by
  induction bs generalizing m a with
  | nil => exact h
  | cons b bs ih =>
    simp only [List.length_cons] at ha
    exact ih (Memory.wf_write h (by omega)) (by omega)

/-- A byte after the host wrote bytes: the byte given for it inside, the old byte outside. -/
theorem Memory.read_writeBytes {m : Memory} {a : Nat} {bs : List Byte} (h : m.wf)
    (ha : a + bs.length ≤ Config.addrSpace) (x : Nat) :
    (m.writeBytes a bs).read x =
      if a ≤ x ∧ x < a + bs.length then bs.getD (x - a) 0#8 else m.read x := by
  induction bs generalizing m a with
  | nil => simp [Memory.writeBytes, show ¬(a ≤ x ∧ x < a) by omega]
  | cons b bs ih =>
    simp only [List.length_cons] at ha
    simp only [Memory.writeBytes, List.length_cons]
    rw [ih (Memory.wf_write h (by omega)) (by omega), Memory.read_write h]
    by_cases hx : x = a
    · subst hx
      simp
    · by_cases hin : a + 1 ≤ x ∧ x < a + 1 + bs.length
      · rw [if_pos hin, if_pos (by omega), show x - a = (x - (a + 1)) + 1 by omega,
          List.getD_cons_succ]
      · rw [if_neg hin, if_neg hx, if_neg (by omega)]

end Sys2Proof.Machine
end

