-- ==== Sys2Proof/Laws/State.lean ====
section
/-! SUPPORT. The fields after each named update of the state: one lemma per field per update, true by
definition, so that no later proof unfolds a record update. -/

namespace Sys2Proof.Machine

/-! ### The flags -/

@[simp] theorem Status.launched_done : Status.launched.done = false := rfl
@[simp] theorem Status.launched_err : Status.launched.err = .none := rfl
@[simp] theorem Status.failed_done (code : ErrCode) : (Status.failed code).done = false := rfl
@[simp] theorem Status.failed_err (code : ErrCode) : (Status.failed code).err = code := rfl
@[simp] theorem Status.completed_done (f : Status) : f.completed.done = true := rfl
@[simp] theorem Status.completed_err (f : Status) : f.completed.err = f.err := rfl
@[simp] theorem firstPhase_checked : firstPhase true = (.validate, .testEntry) := rfl
@[simp] theorem firstPhase_unchecked : firstPhase false = (.permute, .readA) := rfl

/-! ### `accept` -/

@[simp] theorem accept_cmd (v : Variant) (chk : Bool) (s : State) :
    (accept v chk s).eng.cmd = launchWord v chk := rfl
@[simp] theorem accept_status (v : Variant) (chk : Bool) (s : State) :
    (accept v chk s).eng.status = Status.launched := rfl
@[simp] theorem accept_bufBase (v : Variant) (chk : Bool) (s : State) :
    (accept v chk s).eng.bufBase = s.eng.bufBase := rfl
@[simp] theorem accept_nElem (v : Variant) (chk : Bool) (s : State) :
    (accept v chk s).eng.nElem = s.eng.nElem := rfl
@[simp] theorem accept_tabBase (v : Variant) (chk : Bool) (s : State) :
    (accept v chk s).eng.tabBase = s.eng.tabBase := rfl
@[simp] theorem accept_tabLen (v : Variant) (chk : Bool) (s : State) :
    (accept v chk s).eng.tabLen = s.eng.tabLen := rfl
@[simp] theorem accept_bitRevLen (v : Variant) (chk : Bool) (s : State) :
    (accept v chk s).eng.bitRevLen = s.eng.bitRevLen := rfl
@[simp] theorem accept_cursor (v : Variant) (chk : Bool) (s : State) :
    (accept v chk s).eng.cursor = 0#17 := rfl
@[simp] theorem accept_phase (v : Variant) (chk : Bool) (s : State) :
    (accept v chk s).eng.phase = (firstPhase chk).1 := rfl
@[simp] theorem accept_stage (v : Variant) (chk : Bool) (s : State) :
    (accept v chk s).eng.stage = (firstPhase chk).2 := rfl
@[simp] theorem accept_tmp (v : Variant) (chk : Bool) (s : State) :
    (accept v chk s).eng.tmp = s.eng.tmp := rfl
@[simp] theorem accept_mem (v : Variant) (chk : Bool) (s : State) :
    (accept v chk s).mem = s.mem := rfl
@[simp] theorem accept_inputs (v : Variant) (chk : Bool) (s : State) :
    (accept v chk s).inputs = s.inputs := rfl
@[simp] theorem accept_replies (v : Variant) (chk : Bool) (s : State) :
    (accept v chk s).replies = s.replies := rfl
@[simp] theorem accept_sched (v : Variant) (chk : Bool) (s : State) :
    (accept v chk s).sched = s.sched := rfl
@[simp] theorem accept_trace (v : Variant) (chk : Bool) (s : State) :
    (accept v chk s).trace = [] := rfl
@[simp] theorem accept_loans (v : Variant) (chk : Bool) (s : State) :
    (accept v chk s).loans = { variant := v, eng := (accept v chk s).eng, mem := s.mem } :: s.loans := rfl
@[simp] theorem accept_draws (v : Variant) (chk : Bool) (s : State) :
    (accept v chk s).draws = s.draws := rfl
@[simp] theorem accept_platform (v : Variant) (chk : Bool) (s : State) :
    (accept v chk s).platform = s.platform := rfl

/-! ### `complete` -/

@[simp] theorem complete_cmd (s : State) :
    (complete s).eng.cmd = s.eng.cmd := rfl
@[simp] theorem complete_status (s : State) :
    (complete s).eng.status = s.eng.status.completed := rfl
@[simp] theorem complete_bufBase (s : State) :
    (complete s).eng.bufBase = s.eng.bufBase := rfl
@[simp] theorem complete_nElem (s : State) :
    (complete s).eng.nElem = s.eng.nElem := rfl
@[simp] theorem complete_tabBase (s : State) :
    (complete s).eng.tabBase = s.eng.tabBase := rfl
@[simp] theorem complete_tabLen (s : State) :
    (complete s).eng.tabLen = s.eng.tabLen := rfl
@[simp] theorem complete_bitRevLen (s : State) :
    (complete s).eng.bitRevLen = s.eng.bitRevLen := rfl
@[simp] theorem complete_cursor (s : State) :
    (complete s).eng.cursor = s.eng.cursor := rfl
@[simp] theorem complete_phase (s : State) :
    (complete s).eng.phase = .idle := rfl
@[simp] theorem complete_stage (s : State) :
    (complete s).eng.stage = .readA := rfl
@[simp] theorem complete_tmp (s : State) :
    (complete s).eng.tmp = s.eng.tmp := rfl
@[simp] theorem complete_mem (s : State) :
    (complete s).mem = s.mem := rfl
@[simp] theorem complete_inputs (s : State) :
    (complete s).inputs = s.inputs := rfl
@[simp] theorem complete_replies (s : State) :
    (complete s).replies = s.replies := rfl
@[simp] theorem complete_sched (s : State) :
    (complete s).sched = s.sched := rfl
@[simp] theorem complete_trace (s : State) :
    (complete s).trace = s.trace := rfl
@[simp] theorem complete_loans (s : State) :
    (complete s).loans = s.loans := rfl
@[simp] theorem complete_draws (s : State) :
    (complete s).draws = s.draws := rfl
@[simp] theorem complete_platform (s : State) :
    (complete s).platform = s.platform := rfl

/-! ### `raiseErr` -/

@[simp] theorem raiseErr_cmd (code : ErrCode) (cur : BitVec 17) (s : State) :
    (raiseErr code cur s).eng.cmd = s.eng.cmd := rfl
@[simp] theorem raiseErr_status (code : ErrCode) (cur : BitVec 17) (s : State) :
    (raiseErr code cur s).eng.status = Status.failed code := rfl
@[simp] theorem raiseErr_bufBase (code : ErrCode) (cur : BitVec 17) (s : State) :
    (raiseErr code cur s).eng.bufBase = s.eng.bufBase := rfl
@[simp] theorem raiseErr_nElem (code : ErrCode) (cur : BitVec 17) (s : State) :
    (raiseErr code cur s).eng.nElem = s.eng.nElem := rfl
@[simp] theorem raiseErr_tabBase (code : ErrCode) (cur : BitVec 17) (s : State) :
    (raiseErr code cur s).eng.tabBase = s.eng.tabBase := rfl
@[simp] theorem raiseErr_tabLen (code : ErrCode) (cur : BitVec 17) (s : State) :
    (raiseErr code cur s).eng.tabLen = s.eng.tabLen := rfl
@[simp] theorem raiseErr_bitRevLen (code : ErrCode) (cur : BitVec 17) (s : State) :
    (raiseErr code cur s).eng.bitRevLen = s.eng.bitRevLen := rfl
@[simp] theorem raiseErr_cursor (code : ErrCode) (cur : BitVec 17) (s : State) :
    (raiseErr code cur s).eng.cursor = cur := rfl
@[simp] theorem raiseErr_phase (code : ErrCode) (cur : BitVec 17) (s : State) :
    (raiseErr code cur s).eng.phase = .idle := rfl
@[simp] theorem raiseErr_stage (code : ErrCode) (cur : BitVec 17) (s : State) :
    (raiseErr code cur s).eng.stage = .readA := rfl
@[simp] theorem raiseErr_tmp (code : ErrCode) (cur : BitVec 17) (s : State) :
    (raiseErr code cur s).eng.tmp = s.eng.tmp := rfl
@[simp] theorem raiseErr_mem (code : ErrCode) (cur : BitVec 17) (s : State) :
    (raiseErr code cur s).mem = s.mem := rfl
@[simp] theorem raiseErr_inputs (code : ErrCode) (cur : BitVec 17) (s : State) :
    (raiseErr code cur s).inputs = s.inputs := rfl
@[simp] theorem raiseErr_replies (code : ErrCode) (cur : BitVec 17) (s : State) :
    (raiseErr code cur s).replies = s.replies := rfl
@[simp] theorem raiseErr_sched (code : ErrCode) (cur : BitVec 17) (s : State) :
    (raiseErr code cur s).sched = s.sched := rfl
@[simp] theorem raiseErr_trace (code : ErrCode) (cur : BitVec 17) (s : State) :
    (raiseErr code cur s).trace = s.trace := rfl
@[simp] theorem raiseErr_loans (code : ErrCode) (cur : BitVec 17) (s : State) :
    (raiseErr code cur s).loans = s.loans := rfl
@[simp] theorem raiseErr_draws (code : ErrCode) (cur : BitVec 17) (s : State) :
    (raiseErr code cur s).draws = s.draws := rfl
@[simp] theorem raiseErr_platform (code : ErrCode) (cur : BitVec 17) (s : State) :
    (raiseErr code cur s).platform = s.platform := rfl

/-! ### `rejectMode` -/

@[simp] theorem rejectMode_cmd (s : State) :
    (rejectMode s).eng.cmd = s.eng.cmd := rfl
@[simp] theorem rejectMode_status (s : State) :
    (rejectMode s).eng.status = Status.failed .mode := rfl
@[simp] theorem rejectMode_bufBase (s : State) :
    (rejectMode s).eng.bufBase = s.eng.bufBase := rfl
@[simp] theorem rejectMode_nElem (s : State) :
    (rejectMode s).eng.nElem = s.eng.nElem := rfl
@[simp] theorem rejectMode_tabBase (s : State) :
    (rejectMode s).eng.tabBase = s.eng.tabBase := rfl
@[simp] theorem rejectMode_tabLen (s : State) :
    (rejectMode s).eng.tabLen = s.eng.tabLen := rfl
@[simp] theorem rejectMode_bitRevLen (s : State) :
    (rejectMode s).eng.bitRevLen = s.eng.bitRevLen := rfl
@[simp] theorem rejectMode_cursor (s : State) :
    (rejectMode s).eng.cursor = 0#17 := rfl
@[simp] theorem rejectMode_phase (s : State) :
    (rejectMode s).eng.phase = s.eng.phase := rfl
@[simp] theorem rejectMode_stage (s : State) :
    (rejectMode s).eng.stage = s.eng.stage := rfl
@[simp] theorem rejectMode_tmp (s : State) :
    (rejectMode s).eng.tmp = s.eng.tmp := rfl
@[simp] theorem rejectMode_mem (s : State) :
    (rejectMode s).mem = s.mem := rfl
@[simp] theorem rejectMode_inputs (s : State) :
    (rejectMode s).inputs = s.inputs := rfl
@[simp] theorem rejectMode_replies (s : State) :
    (rejectMode s).replies = s.replies := rfl
@[simp] theorem rejectMode_sched (s : State) :
    (rejectMode s).sched = s.sched := rfl
@[simp] theorem rejectMode_trace (s : State) :
    (rejectMode s).trace = s.trace := rfl
@[simp] theorem rejectMode_loans (s : State) :
    (rejectMode s).loans = s.loans := rfl
@[simp] theorem rejectMode_draws (s : State) :
    (rejectMode s).draws = s.draws := rfl
@[simp] theorem rejectMode_platform (s : State) :
    (rejectMode s).platform = s.platform := rfl

/-! ### `resetEngine` -/

@[simp] theorem resetEngine_eng (s : State) : (resetEngine s).eng = Engine.reset := rfl
@[simp] theorem resetEngine_mem (s : State) :
    (resetEngine s).mem = s.mem := rfl
@[simp] theorem resetEngine_inputs (s : State) :
    (resetEngine s).inputs = s.inputs := rfl
@[simp] theorem resetEngine_replies (s : State) :
    (resetEngine s).replies = s.replies := rfl
@[simp] theorem resetEngine_sched (s : State) :
    (resetEngine s).sched = s.sched := rfl
@[simp] theorem resetEngine_trace (s : State) :
    (resetEngine s).trace = [] := rfl
@[simp] theorem resetEngine_loans (s : State) :
    (resetEngine s).loans = s.loans := rfl
@[simp] theorem resetEngine_draws (s : State) :
    (resetEngine s).draws = s.draws := rfl
@[simp] theorem resetEngine_platform (s : State) :
    (resetEngine s).platform = s.platform := rfl

/-! ### `log` -/

@[simp] theorem log_eng (x : Access) (s : State) : (s.log x).eng = s.eng := rfl
@[simp] theorem log_mem (x : Access) (s : State) :
    (s.log x).mem = s.mem := rfl
@[simp] theorem log_inputs (x : Access) (s : State) :
    (s.log x).inputs = s.inputs := rfl
@[simp] theorem log_replies (x : Access) (s : State) :
    (s.log x).replies = s.replies := rfl
@[simp] theorem log_sched (x : Access) (s : State) :
    (s.log x).sched = s.sched := rfl
@[simp] theorem log_trace (x : Access) (s : State) :
    (s.log x).trace = x :: s.trace := rfl
@[simp] theorem log_loans (x : Access) (s : State) :
    (s.log x).loans = s.loans := rfl
@[simp] theorem log_draws (x : Access) (s : State) :
    (s.log x).draws = s.draws := rfl
@[simp] theorem log_platform (x : Access) (s : State) :
    (s.log x).platform = s.platform := rfl

/-! ### `setMem` -/

@[simp] theorem setMem_eng (m : Memory) (s : State) : (s.setMem m).eng = s.eng := rfl
@[simp] theorem setMem_mem (m : Memory) (s : State) :
    (s.setMem m).mem = m := rfl
@[simp] theorem setMem_inputs (m : Memory) (s : State) :
    (s.setMem m).inputs = s.inputs := rfl
@[simp] theorem setMem_replies (m : Memory) (s : State) :
    (s.setMem m).replies = s.replies := rfl
@[simp] theorem setMem_sched (m : Memory) (s : State) :
    (s.setMem m).sched = s.sched := rfl
@[simp] theorem setMem_trace (m : Memory) (s : State) :
    (s.setMem m).trace = s.trace := rfl
@[simp] theorem setMem_loans (m : Memory) (s : State) :
    (s.setMem m).loans = s.loans := rfl
@[simp] theorem setMem_draws (m : Memory) (s : State) :
    (s.setMem m).draws = s.draws := rfl
@[simp] theorem setMem_platform (m : Memory) (s : State) :
    (s.setMem m).platform = s.platform := rfl

/-! ### `setCursor` -/

@[simp] theorem setCursor_cmd (c : BitVec 17) (s : State) :
    (s.setCursor c).eng.cmd = s.eng.cmd := rfl
@[simp] theorem setCursor_status (c : BitVec 17) (s : State) :
    (s.setCursor c).eng.status = s.eng.status := rfl
@[simp] theorem setCursor_bufBase (c : BitVec 17) (s : State) :
    (s.setCursor c).eng.bufBase = s.eng.bufBase := rfl
@[simp] theorem setCursor_nElem (c : BitVec 17) (s : State) :
    (s.setCursor c).eng.nElem = s.eng.nElem := rfl
@[simp] theorem setCursor_tabBase (c : BitVec 17) (s : State) :
    (s.setCursor c).eng.tabBase = s.eng.tabBase := rfl
@[simp] theorem setCursor_tabLen (c : BitVec 17) (s : State) :
    (s.setCursor c).eng.tabLen = s.eng.tabLen := rfl
@[simp] theorem setCursor_bitRevLen (c : BitVec 17) (s : State) :
    (s.setCursor c).eng.bitRevLen = s.eng.bitRevLen := rfl
@[simp] theorem setCursor_cursor (c : BitVec 17) (s : State) :
    (s.setCursor c).eng.cursor = c := rfl
@[simp] theorem setCursor_phase (c : BitVec 17) (s : State) :
    (s.setCursor c).eng.phase = s.eng.phase := rfl
@[simp] theorem setCursor_stage (c : BitVec 17) (s : State) :
    (s.setCursor c).eng.stage = s.eng.stage := rfl
@[simp] theorem setCursor_tmp (c : BitVec 17) (s : State) :
    (s.setCursor c).eng.tmp = s.eng.tmp := rfl
@[simp] theorem setCursor_mem (c : BitVec 17) (s : State) :
    (s.setCursor c).mem = s.mem := rfl
@[simp] theorem setCursor_inputs (c : BitVec 17) (s : State) :
    (s.setCursor c).inputs = s.inputs := rfl
@[simp] theorem setCursor_replies (c : BitVec 17) (s : State) :
    (s.setCursor c).replies = s.replies := rfl
@[simp] theorem setCursor_sched (c : BitVec 17) (s : State) :
    (s.setCursor c).sched = s.sched := rfl
@[simp] theorem setCursor_trace (c : BitVec 17) (s : State) :
    (s.setCursor c).trace = s.trace := rfl
@[simp] theorem setCursor_loans (c : BitVec 17) (s : State) :
    (s.setCursor c).loans = s.loans := rfl
@[simp] theorem setCursor_draws (c : BitVec 17) (s : State) :
    (s.setCursor c).draws = s.draws := rfl
@[simp] theorem setCursor_platform (c : BitVec 17) (s : State) :
    (s.setCursor c).platform = s.platform := rfl

/-! ### `setStage` -/

@[simp] theorem setStage_cmd (g : Stage) (s : State) :
    (s.setStage g).eng.cmd = s.eng.cmd := rfl
@[simp] theorem setStage_status (g : Stage) (s : State) :
    (s.setStage g).eng.status = s.eng.status := rfl
@[simp] theorem setStage_bufBase (g : Stage) (s : State) :
    (s.setStage g).eng.bufBase = s.eng.bufBase := rfl
@[simp] theorem setStage_nElem (g : Stage) (s : State) :
    (s.setStage g).eng.nElem = s.eng.nElem := rfl
@[simp] theorem setStage_tabBase (g : Stage) (s : State) :
    (s.setStage g).eng.tabBase = s.eng.tabBase := rfl
@[simp] theorem setStage_tabLen (g : Stage) (s : State) :
    (s.setStage g).eng.tabLen = s.eng.tabLen := rfl
@[simp] theorem setStage_bitRevLen (g : Stage) (s : State) :
    (s.setStage g).eng.bitRevLen = s.eng.bitRevLen := rfl
@[simp] theorem setStage_cursor (g : Stage) (s : State) :
    (s.setStage g).eng.cursor = s.eng.cursor := rfl
@[simp] theorem setStage_phase (g : Stage) (s : State) :
    (s.setStage g).eng.phase = s.eng.phase := rfl
@[simp] theorem setStage_stage (g : Stage) (s : State) :
    (s.setStage g).eng.stage = g := rfl
@[simp] theorem setStage_tmp (g : Stage) (s : State) :
    (s.setStage g).eng.tmp = s.eng.tmp := rfl
@[simp] theorem setStage_mem (g : Stage) (s : State) :
    (s.setStage g).mem = s.mem := rfl
@[simp] theorem setStage_inputs (g : Stage) (s : State) :
    (s.setStage g).inputs = s.inputs := rfl
@[simp] theorem setStage_replies (g : Stage) (s : State) :
    (s.setStage g).replies = s.replies := rfl
@[simp] theorem setStage_sched (g : Stage) (s : State) :
    (s.setStage g).sched = s.sched := rfl
@[simp] theorem setStage_trace (g : Stage) (s : State) :
    (s.setStage g).trace = s.trace := rfl
@[simp] theorem setStage_loans (g : Stage) (s : State) :
    (s.setStage g).loans = s.loans := rfl
@[simp] theorem setStage_draws (g : Stage) (s : State) :
    (s.setStage g).draws = s.draws := rfl
@[simp] theorem setStage_platform (g : Stage) (s : State) :
    (s.setStage g).platform = s.platform := rfl

/-! ### `setTmp` -/

@[simp] theorem setTmp_cmd (t : Temps) (s : State) :
    (s.setTmp t).eng.cmd = s.eng.cmd := rfl
@[simp] theorem setTmp_status (t : Temps) (s : State) :
    (s.setTmp t).eng.status = s.eng.status := rfl
@[simp] theorem setTmp_bufBase (t : Temps) (s : State) :
    (s.setTmp t).eng.bufBase = s.eng.bufBase := rfl
@[simp] theorem setTmp_nElem (t : Temps) (s : State) :
    (s.setTmp t).eng.nElem = s.eng.nElem := rfl
@[simp] theorem setTmp_tabBase (t : Temps) (s : State) :
    (s.setTmp t).eng.tabBase = s.eng.tabBase := rfl
@[simp] theorem setTmp_tabLen (t : Temps) (s : State) :
    (s.setTmp t).eng.tabLen = s.eng.tabLen := rfl
@[simp] theorem setTmp_bitRevLen (t : Temps) (s : State) :
    (s.setTmp t).eng.bitRevLen = s.eng.bitRevLen := rfl
@[simp] theorem setTmp_cursor (t : Temps) (s : State) :
    (s.setTmp t).eng.cursor = s.eng.cursor := rfl
@[simp] theorem setTmp_phase (t : Temps) (s : State) :
    (s.setTmp t).eng.phase = s.eng.phase := rfl
@[simp] theorem setTmp_stage (t : Temps) (s : State) :
    (s.setTmp t).eng.stage = s.eng.stage := rfl
@[simp] theorem setTmp_tmp (t : Temps) (s : State) :
    (s.setTmp t).eng.tmp = t := rfl
@[simp] theorem setTmp_mem (t : Temps) (s : State) :
    (s.setTmp t).mem = s.mem := rfl
@[simp] theorem setTmp_inputs (t : Temps) (s : State) :
    (s.setTmp t).inputs = s.inputs := rfl
@[simp] theorem setTmp_replies (t : Temps) (s : State) :
    (s.setTmp t).replies = s.replies := rfl
@[simp] theorem setTmp_sched (t : Temps) (s : State) :
    (s.setTmp t).sched = s.sched := rfl
@[simp] theorem setTmp_trace (t : Temps) (s : State) :
    (s.setTmp t).trace = s.trace := rfl
@[simp] theorem setTmp_loans (t : Temps) (s : State) :
    (s.setTmp t).loans = s.loans := rfl
@[simp] theorem setTmp_draws (t : Temps) (s : State) :
    (s.setTmp t).draws = s.draws := rfl
@[simp] theorem setTmp_platform (t : Temps) (s : State) :
    (s.setTmp t).platform = s.platform := rfl

/-! ### `beginPermute` -/

@[simp] theorem beginPermute_cmd (s : State) :
    s.beginPermute.eng.cmd = s.eng.cmd := rfl
@[simp] theorem beginPermute_status (s : State) :
    s.beginPermute.eng.status = s.eng.status := rfl
@[simp] theorem beginPermute_bufBase (s : State) :
    s.beginPermute.eng.bufBase = s.eng.bufBase := rfl
@[simp] theorem beginPermute_nElem (s : State) :
    s.beginPermute.eng.nElem = s.eng.nElem := rfl
@[simp] theorem beginPermute_tabBase (s : State) :
    s.beginPermute.eng.tabBase = s.eng.tabBase := rfl
@[simp] theorem beginPermute_tabLen (s : State) :
    s.beginPermute.eng.tabLen = s.eng.tabLen := rfl
@[simp] theorem beginPermute_bitRevLen (s : State) :
    s.beginPermute.eng.bitRevLen = s.eng.bitRevLen := rfl
@[simp] theorem beginPermute_cursor (s : State) :
    s.beginPermute.eng.cursor = 0#17 := rfl
@[simp] theorem beginPermute_phase (s : State) :
    s.beginPermute.eng.phase = .permute := rfl
@[simp] theorem beginPermute_stage (s : State) :
    s.beginPermute.eng.stage = .readA := rfl
@[simp] theorem beginPermute_tmp (s : State) :
    s.beginPermute.eng.tmp = s.eng.tmp := rfl
@[simp] theorem beginPermute_mem (s : State) :
    s.beginPermute.mem = s.mem := rfl
@[simp] theorem beginPermute_inputs (s : State) :
    s.beginPermute.inputs = s.inputs := rfl
@[simp] theorem beginPermute_replies (s : State) :
    s.beginPermute.replies = s.replies := rfl
@[simp] theorem beginPermute_sched (s : State) :
    s.beginPermute.sched = s.sched := rfl
@[simp] theorem beginPermute_trace (s : State) :
    s.beginPermute.trace = s.trace := rfl
@[simp] theorem beginPermute_loans (s : State) :
    s.beginPermute.loans = s.loans := rfl
@[simp] theorem beginPermute_draws (s : State) :
    s.beginPermute.draws = s.draws := rfl
@[simp] theorem beginPermute_platform (s : State) :
    s.beginPermute.platform = s.platform := rfl

/-! ### `hostRead` -/

@[simp] theorem hostRead_eng (r : Reg) (s : State) : (hostRead r s).eng = s.eng := rfl
@[simp] theorem hostRead_mem (r : Reg) (s : State) :
    (hostRead r s).mem = s.mem := rfl
@[simp] theorem hostRead_inputs (r : Reg) (s : State) :
    (hostRead r s).inputs = s.inputs := rfl
@[simp] theorem hostRead_replies (r : Reg) (s : State) :
    (hostRead r s).replies = .register r (hostReadWord r s) :: s.replies := rfl
@[simp] theorem hostRead_sched (r : Reg) (s : State) :
    (hostRead r s).sched = s.sched := rfl
@[simp] theorem hostRead_trace (r : Reg) (s : State) :
    (hostRead r s).trace = s.trace := rfl
@[simp] theorem hostRead_loans (r : Reg) (s : State) :
    (hostRead r s).loans = if r = .status ∧ s.busy = false then [] else s.loans := rfl
@[simp] theorem hostRead_draws (r : Reg) (s : State) :
    (hostRead r s).draws = if r = .cursor ∧ s.busy = true then s.draws + 1 else s.draws := rfl
@[simp] theorem hostRead_platform (r : Reg) (s : State) :
    (hostRead r s).platform = s.platform := rfl

/-! ### `withFetchWord` -/

@[simp] theorem withFetchWord_eng (s : State) (nbits w : Nat) : (s.withFetchWord nbits w).eng = s.eng := rfl
@[simp] theorem withFetchWord_mem (s : State) (nbits w : Nat) :
    (s.withFetchWord nbits w).mem = s.mem := rfl
@[simp] theorem withFetchWord_inputs (s : State) (nbits w : Nat) :
    (s.withFetchWord nbits w).inputs = .regWrite (Reg.offset .cmd) 4 (BitVec.ofNat 32 (w % 2 ^ nbits)) :: s.inputs := rfl
@[simp] theorem withFetchWord_replies (s : State) (nbits w : Nat) :
    (s.withFetchWord nbits w).replies = s.replies := rfl
@[simp] theorem withFetchWord_sched (s : State) (nbits w : Nat) :
    (s.withFetchWord nbits w).sched = if s.busy then .host :: s.sched else s.sched := rfl
@[simp] theorem withFetchWord_trace (s : State) (nbits w : Nat) :
    (s.withFetchWord nbits w).trace = s.trace := rfl
@[simp] theorem withFetchWord_loans (s : State) (nbits w : Nat) :
    (s.withFetchWord nbits w).loans = s.loans := rfl
@[simp] theorem withFetchWord_draws (s : State) (nbits w : Nat) :
    (s.withFetchWord nbits w).draws = s.draws := rfl
@[simp] theorem withFetchWord_platform (s : State) (nbits w : Nat) :
    (s.withFetchWord nbits w).platform = s.platform := rfl

/-! ### `BUSY` and the count after the updates -/

theorem State.busy_eq_phase (s : State) : s.busy = (s.eng.phase != .idle) := rfl
theorem State.busy_false_iff (s : State) : s.busy = false ↔ s.eng.phase = .idle := by
  simp [State.busy, Engine.busy]
@[simp] theorem accept_busy (v : Variant) (chk : Bool) (s : State) : (accept v chk s).busy = true := by
  cases chk <;> rfl
@[simp] theorem complete_busy (s : State) : (complete s).busy = false := rfl
@[simp] theorem raiseErr_busy (code : ErrCode) (cur : BitVec 17) (s : State) :
    (raiseErr code cur s).busy = false := rfl
@[simp] theorem rejectMode_busy (s : State) : (rejectMode s).busy = s.busy := rfl
@[simp] theorem resetEngine_busy (s : State) : (resetEngine s).busy = false := rfl
@[simp] theorem hostRead_busy (r : Reg) (s : State) : (hostRead r s).busy = s.busy := rfl
@[simp] theorem withFetchWord_busy (s : State) (nbits w : Nat) :
    (s.withFetchWord nbits w).busy = s.busy := rfl
@[simp] theorem beginPermute_busy (s : State) : s.beginPermute.busy = true := rfl

end Sys2Proof.Machine
end

