-- ==== Sys2Proof/Laws/Operands.lean ====
section
/-! SUPPORT. The laws of the operands: what the element view of buffer and table depends on, an element
after the write of an element, and that both views fit their spans. -/

namespace Sys2Proof.Machine

/-! ### The variants -/

theorem Variant.bytes_pos (v : Variant) : 0 < v.bytes := by cases v <;> decide
theorem Variant.bytes_le (v : Variant) : v.bytes ≤ 8 := by cases v <;> decide
theorem Variant.group_pos (v : Variant) : 0 < v.group := by cases v <;> decide
theorem Variant.group_le (v : Variant) : v.group ≤ 2 := by cases v <;> decide

/-- `W/8` bytes hold W bits. -/
theorem Variant.pow_bytes (v : Variant) : 256 ^ v.bytes = 2 ^ v.width := by cases v <;> decide

theorem variantOfWsel_wselOf (v : Variant) : variantOfWsel (wselOf v) = some v := by
  cases v <;> decide

/-- The running variant and the `CHK` bit are those of the launch word. -/
@[simp] theorem cmdWsel_launchWord (v : Variant) (chk : Bool) :
    cmdWsel (launchWord v chk) = wselOf v := by
  cases v <;> cases chk <;> decide

@[simp] theorem cmdChk_launchWord (v : Variant) (chk : Bool) : cmdChk (launchWord v chk) = chk := by
  cases v <;> cases chk <;> decide

theorem Engine.variant_of_launchWord {e : Engine} {v : Variant} {chk : Bool}
    (h : e.cmd = launchWord v chk) : e.variant = some v := by
  rw [Engine.variant, h, cmdWsel_launchWord, variantOfWsel_wselOf]

/-! ### Indices -/

theorem elemIndex_le_topElem (v : Variant) (raw : BitVec 16) {c : Nat} (hc : c < v.group) :
    elemIndex v (normIndex v raw) c ≤ topElem v raw := by
  unfold topElem elemIndex
  omega

theorem allInRange_iff {v : Variant} {e : Engine} {m : Memory} :
    allInRange v e m = true ↔ ∀ j, j < e.count → entryInRange v e m j = true := by
  simp [allInRange, List.all_eq_true, List.mem_range]

theorem entryInRange_iff {v : Variant} {e : Engine} {m : Memory} {j : Nat} :
    entryInRange v e m j = true ↔ topElem v (tabEntry e m j) < e.nElem.toNat := by
  simp [entryInRange]

/-! ### What the views depend on -/

theorem elemAddr_congr {e e' : Engine} (h : sameOperands e e') (v : Variant) (k : Nat) :
    elemAddr v e' k = elemAddr v e k := by simp [elemAddr, h.1]

theorem entryAddr_congr {e e' : Engine} (h : sameOperands e e') (j : Nat) :
    entryAddr e' j = entryAddr e j := by simp [entryAddr, h.2.2.1]

theorem count_congr {e e' : Engine} (h : sameOperands e e') : e'.count = e.count := by
  simp [Engine.count, h.2.2.2.2]

theorem bufSpan_congr {e e' : Engine} (h : sameOperands e e') (v : Variant) :
    bufSpan v e' = bufSpan v e := by simp [bufSpan, h.1, h.2.1]

theorem tabSpan_congr {e e' : Engine} (h : sameOperands e e') : tabSpan e' = tabSpan e := by
  simp [tabSpan, h.2.2.1, h.2.2.2.1]

theorem aligned_congr {e e' : Engine} (h : sameOperands e e') (v : Variant) :
    aligned v e' = aligned v e := by simp [aligned, h.1, h.2.2.1]

theorem oddCount_congr {e e' : Engine} (h : sameOperands e e') : oddCount e' = oddCount e := by
  simp [oddCount, count_congr h]

theorem lengthMatches_congr {e e' : Engine} (h : sameOperands e e') :
    lengthMatches e' = lengthMatches e := by simp [lengthMatches, count_congr h, h.2.2.2.1]

theorem bufElem_congr {e e' : Engine} (h : sameOperands e e') (v : Variant) (m : Memory) :
    bufElem v e' m = bufElem v e m := by
  funext k; simp [bufElem, elemAddr_congr h]

theorem tabEntry_congr {e e' : Engine} (h : sameOperands e e') (m : Memory) :
    tabEntry e' m = tabEntry e m := by
  funext j; simp [tabEntry, entryAddr_congr h]

theorem entryInRange_congr {e e' : Engine} (h : sameOperands e e') (v : Variant) (m : Memory) (j : Nat) :
    entryInRange v e' m j = entryInRange v e m j := by
  simp [entryInRange, tabEntry_congr h, h.2.1]

theorem allInRange_congr {e e' : Engine} (h : sameOperands e e') (v : Variant) (m : Memory) :
    allInRange v e' m = allInRange v e m := by
  simp [allInRange, entryInRange_congr h, count_congr h]

theorem bufAfter_congr {e e' : Engine} (h : sameOperands e e') (v : Variant) (m : Memory) (p : Nat) :
    bufAfter v e' m p = bufAfter v e m p := by
  simp [bufAfter, bufElem_congr h, tabEntry_congr h]

theorem sameOperands.refl (e : Engine) : sameOperands e e := ⟨rfl, rfl, rfl, rfl, rfl⟩

theorem sameOperands.symm {e e' : Engine} (h : sameOperands e e') : sameOperands e' e :=
  ⟨h.1.symm, h.2.1.symm, h.2.2.1.symm, h.2.2.2.1.symm, h.2.2.2.2.symm⟩

theorem sameOperands.trans {e e' e'' : Engine} (h : sameOperands e e') (h' : sameOperands e' e'') :
    sameOperands e e'' :=
  ⟨h'.1.trans h.1, h'.2.1.trans h.2.1, h'.2.2.1.trans h.2.2.1, h'.2.2.2.1.trans h.2.2.2.1,
    h'.2.2.2.2.trans h.2.2.2.2⟩

/-! ### Elements and entries in memory -/

theorem bufElem_toNat (v : Variant) (e : Engine) (m : Memory) (k : Nat) :
    (bufElem v e m k).toNat = m.readLE (elemAddr v e k) v.bytes := by
  have h := Memory.readLE_lt m (elemAddr v e k) v.bytes
  have h2 : 256 ^ v.bytes ≤ 2 ^ 64 := by cases v <;> decide
  simp only [bufElem, BitVec.toNat_ofNat]
  exact Nat.mod_eq_of_lt (by omega)

/-- An element has W bits (20_memory.md R51). -/
theorem bufElem_lt (v : Variant) (e : Engine) (m : Memory) (k : Nat) :
    (bufElem v e m k).toNat < 2 ^ v.width := by
  rw [bufElem_toNat, ← Variant.pow_bytes]
  exact Memory.readLE_lt ..

theorem bufElem_mem_congr {v : Variant} {e : Engine} {m m' : Memory} {k : Nat}
    (h : ∀ x, elemAddr v e k ≤ x → x < elemAddr v e k + v.bytes → m'.read x = m.read x) :
    bufElem v e m' k = bufElem v e m k := by
  simp only [bufElem, Memory.readLE_congr h]

theorem tabEntry_mem_congr {e : Engine} {m m' : Memory} {j : Nat}
    (h : ∀ x, entryAddr e j ≤ x → x < entryAddr e j + 2 → m'.read x = m.read x) :
    tabEntry e m' j = tabEntry e m j := by
  simp only [tabEntry, Memory.readLE_congr h]

theorem wf_setBufElem {v : Variant} {e : Engine} {m : Memory} {k : Nat} (x : BitVec 64) (h : m.wf)
    (ha : elemAddr v e k + v.bytes ≤ Config.addrSpace) : (setBufElem v e m k x).wf :=
  Memory.wf_writeLE _ h ha

/-- A byte outside the element is not changed by the write of the element. -/
theorem read_setBufElem_outside {v : Variant} {e : Engine} {m : Memory} {k : Nat} (x : BitVec 64)
    (h : m.wf) (ha : elemAddr v e k + v.bytes ≤ Config.addrSpace) {a : Nat}
    (hx : a < elemAddr v e k ∨ elemAddr v e k + v.bytes ≤ a) :
    (setBufElem v e m k x).read a = m.read a :=
  Memory.read_writeLE_outside _ h ha hx

/-- An element after an element was written: the W-bit value written, or the element as it was. -/
theorem bufElem_setBufElem {v : Variant} {e : Engine} {m : Memory} {k : Nat} {x : BitVec 64} (h : m.wf)
    (ha : elemAddr v e k + v.bytes ≤ Config.addrSpace) (hx : x.toNat < 2 ^ v.width) (j : Nat) :
    bufElem v e (setBufElem v e m k x) j = if j = k then x else bufElem v e m j := by
  split
  · subst j
    apply BitVec.eq_of_toNat_eq
    rw [bufElem_toNat, setBufElem, Memory.readLE_writeLE _ h ha, Variant.pow_bytes,
      Nat.mod_eq_of_lt hx]
  · rename_i hjk
    refine bufElem_mem_congr fun y h1 h2 => read_setBufElem_outside x h ha ?_
    have := Variant.bytes_pos v
    unfold elemAddr at *
    rcases Nat.lt_or_gt_of_ne hjk with hl | hl
    · have := Nat.mul_le_mul_right v.bytes (Nat.succ_le_of_lt hl)
      rw [Nat.succ_mul] at this
      omega
    · have := Nat.mul_le_mul_right v.bytes (Nat.succ_le_of_lt hl)
      rw [Nat.succ_mul] at this
      omega

/-! ### Spans -/

/-- An element of the buffer lies inside the buffer span. -/
theorem elem_in_bufSpan {v : Variant} {e : Engine} {k : Nat} (hk : k < e.nElem.toNat) :
    (bufSpan v e).base ≤ elemAddr v e k ∧ elemAddr v e k + v.bytes ≤ (bufSpan v e).top := by
  have := Nat.mul_le_mul_right v.bytes (Nat.succ_le_of_lt hk)
  rw [Nat.succ_mul] at this
  simp only [bufSpan, Span.top, elemAddr]
  omega

/-- An entry of the table lies inside the table span. -/
theorem entry_in_tabSpan {e : Engine} {j : Nat} (hj : j < e.tabLen.toNat) :
    (tabSpan e).base ≤ entryAddr e j ∧ entryAddr e j + 2 ≤ (tabSpan e).top := by
  simp only [tabSpan, Span.top, entryAddr]
  omega

theorem overlaps_false_iff {a b : Span} :
    a.overlaps b = false ↔ a.len = 0 ∨ b.len = 0 ∨ b.top ≤ a.base ∨ a.top ≤ b.base := by
  simp [Span.overlaps]
  omega

theorem spansInSpace_iff {v : Variant} {e : Engine} : spansInSpace v e = true ↔
    (bufSpan v e).top ≤ Config.addrSpace ∧ (tabSpan e).top ≤ Config.addrSpace := by
  simp [spansInSpace]

theorem spansApart_iff {v : Variant} {e : Engine} :
    spansApart v e = true ↔ (bufSpan v e).overlaps (tabSpan e) = false := by
  simp [spansApart]

/-- An element inside the address space, when the spans are. -/
theorem elem_in_space {v : Variant} {e : Engine} {k : Nat} (h : spansInSpace v e = true)
    (hk : k < e.nElem.toNat) : elemAddr v e k + v.bytes ≤ Config.addrSpace :=
  Nat.le_trans (elem_in_bufSpan hk).2 (spansInSpace_iff.1 h).1

/-- An entry inside the address space, when the spans are. -/
theorem entry_in_space {v : Variant} {e : Engine} {j : Nat} (h : spansInSpace v e = true)
    (hj : j < e.tabLen.toNat) : entryAddr e j + 2 ≤ Config.addrSpace :=
  Nat.le_trans (entry_in_tabSpan hj).2 (spansInSpace_iff.1 h).2

/-- A byte of the table is not a byte of the buffer, when the spans are apart. -/
theorem apart_bytes {v : Variant} {e : Engine} (h : spansApart v e = true) {k : Nat}
    (hk : k < e.nElem.toNat) {x : Nat} (hx : (tabSpan e).has x = true) :
    x < elemAddr v e k ∨ elemAddr v e k + v.bytes ≤ x := by
  have h1 := overlaps_false_iff.1 (spansApart_iff.1 h)
  have h2 := elem_in_bufSpan (v := v) hk
  have := Variant.bytes_pos v
  simp only [Span.has, Bool.and_eq_true, decide_eq_true_eq] at hx
  simp only [Span.top] at *
  omega

/-- The write of a buffer element leaves the table alone (20_memory.md R62), when the spans are apart. -/
theorem tabEntry_setBufElem {v : Variant} {e : Engine} {m : Memory} {k j : Nat} (x : BitVec 64)
    (h : m.wf) (hs : spansInSpace v e = true) (hap : spansApart v e = true) (hk : k < e.nElem.toNat)
    (hj : j < e.tabLen.toNat) : tabEntry e (setBufElem v e m k x) j = tabEntry e m j := by
  refine tabEntry_mem_congr fun y h1 h2 => ?_
  refine read_setBufElem_outside x h (elem_in_space hs hk) (apart_bytes hap hk ?_)
  have := entry_in_tabSpan (e := e) hj
  simp only [Span.has, Bool.and_eq_true, decide_eq_true_eq]
  omega

end Sys2Proof.Machine
end

