-- ==== Sys2Proof/Laws/Permute.lean ====
section
/-! SUPPORT. The small laws of the generic routine: each unfolds one definition once. -/

namespace Sys2Proof.Machine

variable {α : Type}

theorem swapElems_left (B : Nat → α) (k1 k2 : Nat) : swapElems B k1 k2 k1 = B k2 := by
  simp [swapElems]

theorem swapElems_right (B : Nat → α) (k1 k2 : Nat) : swapElems B k1 k2 k2 = B k1 := by
  by_cases h : k2 = k1 <;> simp [swapElems, h]

theorem swapElems_other (B : Nat → α) {k1 k2 k : Nat} (h1 : k ≠ k1) (h2 : k ≠ k2) :
    swapElems B k1 k2 k = B k := by simp [swapElems, h1, h2]

/-- A self pair changes nothing (43_engine_common.md R153). -/
@[simp] theorem swapElems_self (B : Nat → α) (k : Nat) : swapElems B k k = B := by
  funext x; by_cases h : x = k <;> simp [swapElems, h]

theorem swapElems_comm (B : Nat → α) (k1 k2 : Nat) : swapElems B k1 k2 = swapElems B k2 k1 := by
  funext x
  by_cases h1 : x = k1 <;> by_cases h2 : x = k2 <;> simp_all [swapElems]

/-- An exchange is its own inverse. -/
@[simp] theorem swapElems_swapElems (B : Nat → α) (k1 k2 : Nat) :
    swapElems (swapElems B k1 k2) k1 k2 = B := by
  funext x
  by_cases h1 : x = k1
  · subst h1; rw [swapElems_left, swapElems_right]
  · by_cases h2 : x = k2
    · subst h2; rw [swapElems_right, swapElems_left]
    · rw [swapElems_other _ h1 h2, swapElems_other _ h1 h2]

@[simp] theorem exchangeComponents_zero (g a b : Nat) (B : Nat → α) :
    exchangeComponents g a b 0 B = B := rfl

theorem exchangeComponents_succ (g a b c : Nat) (B : Nat → α) :
    exchangeComponents g a b (c + 1) B =
      swapElems (exchangeComponents g a b c B) (g * a + c) (g * b + c) := rfl

@[simp] theorem applyPairs_zero (sh g : Nat) (B : Nat → α) (T : Nat → BitVec 16) :
    applyPairs sh g B T 0 = B := rfl

theorem applyPairs_succ (sh g : Nat) (B : Nat → α) (T : Nat → BitVec 16) (p : Nat) :
    applyPairs sh g B T (p + 1) =
      pairExchange sh g (applyPairs sh g B T p) (T (2 * p)) (T (2 * p + 1)) := rfl

/-- Each value after an exchange is a value before it. -/
theorem exchangeComponents_value (g a b c : Nat) (B : Nat → α) (k : Nat) :
    ∃ j, exchangeComponents g a b c B k = B j := by
  induction c generalizing k with
  | zero => exact ⟨k, rfl⟩
  | succ c ih =>
    rw [exchangeComponents_succ]
    unfold swapElems
    split
    · exact ih _
    · split <;> exact ih _

/-- Every element leaves an operation as some element entered it (43_engine_common.md R161). -/
theorem applyPairs_value (sh g : Nat) (B : Nat → α) (T : Nat → BitVec 16) (p k : Nat) :
    ∃ j, applyPairs sh g B T p k = B j := by
  induction p generalizing k with
  | zero => exact ⟨k, rfl⟩
  | succ p ih =>
    obtain ⟨j, hj⟩ := exchangeComponents_value g (T (2 * p) >>> sh).toNat (T (2 * p + 1) >>> sh).toNat g
      (applyPairs sh g B T p) k
    exact ⟨(ih j).choose, by rw [applyPairs_succ, pairExchange, hj, ← (ih j).choose_spec]⟩

/-- A complex or scalar pair is the exchange of all `g` components. -/
theorem bufAfter_succ (v : Variant) (e : Engine) (m : Memory) (p : Nat) :
    bufAfter v e m (p + 1) =
      exchangeComponents v.group (normIndex v (tabEntry e m (2 * p))).toNat
        (normIndex v (tabEntry e m (2 * p + 1))).toNat v.group (bufAfter v e m p) := rfl

@[simp] theorem bufAfter_zero (v : Variant) (e : Engine) (m : Memory) :
    bufAfter v e m 0 = bufElem v e m := rfl

/-- The loop of the routine with the first pair peeled off. -/
theorem applyPairs_first (sh g : Nat) (B : Nat → α) (T : Nat → BitVec 16) (p : Nat) :
    applyPairs sh g B T (p + 1) =
      applyPairs sh g (pairExchange sh g B (T 0) (T 1)) (fun j => T (j + 2)) p := by
  induction p with
  | zero => rfl
  | succ p ih => rw [applyPairs_succ, ih, applyPairs_succ]; rfl

end Sys2Proof.Machine
end

