-- ==== Sys2Proof/Laws/Engine.lean ====
section
/-! SUPPORT. What the engine can do, said once: for each guarded access, each step of the two passes, the
run and the launch, one lemma with every case in which it answers a next state, and one that gives the
answer where the guards hold. -/

namespace Sys2Proof.Machine

/-! ### Guarded accesses -/

theorem readEntry_ok {j : Nat} {s : State} {f : BitVec 16 → State → Outcome}
    (hj : j < s.eng.tabLen.toNat) (ha : entryAddr s.eng j + 2 ≤ Config.addrSpace) :
    readEntry j s f = f (tabEntry s.eng s.mem j) (s.log (.readEntry j)) := by
  rw [readEntry, if_neg (by omega), if_neg (by omega)]

theorem readEntry_next {j : Nat} {s t : State} {f : BitVec 16 → State → Outcome}
    (h : readEntry j s f = .next t) :
    j < s.eng.tabLen.toNat ∧ entryAddr s.eng j + 2 ≤ Config.addrSpace ∧
      f (tabEntry s.eng s.mem j) (s.log (.readEntry j)) = .next t := by
  unfold readEntry at h
  split at h
  · cases h
  · split at h
    · cases h
    · exact ⟨by omega, by omega, h⟩

theorem guardElem_ok {v : Variant} {k : Nat} {s : State} {out : Outcome}
    (hk : k < s.eng.nElem.toNat) (ha : elemAddr v s.eng k + v.bytes ≤ Config.addrSpace) :
    guardElem v k s out = out := by
  rw [guardElem, if_neg (by omega), if_neg (by omega)]

theorem guardElem_next {v : Variant} {k : Nat} {s t : State} {out : Outcome}
    (h : guardElem v k s out = .next t) :
    k < s.eng.nElem.toNat ∧ elemAddr v s.eng k + v.bytes ≤ Config.addrSpace ∧ out = .next t := by
  unfold guardElem at h
  split at h
  · cases h
  · split at h
    · cases h
    · exact ⟨by omega, by omega, h⟩

/-! ### The validation pass -/

/-- The state in which the next entry is tested: `CURSOR` names it. -/
def atEntry (s : State) : State :=
  if s.eng.stage = .nextEntry then s.setCursor (s.eng.cursor + 1#17) else s

theorem validateStep_eq (v : Variant) (s : State) :
    validateStep v s = readEntry (atEntry s).eng.cursor.toNat (atEntry s) (entryTested v) := rfl

/-- Everything a tested entry can lead to. -/
theorem entryTested_cases (v : Variant) (raw : BitVec 16) (s : State) :
    (s.eng.nElem.toNat ≤ topElem v raw ∧
      entryTested v raw s = .next (raiseErr .range s.eng.cursor s)) ∨
    (topElem v raw < s.eng.nElem.toNat ∧ s.eng.count ≤ s.eng.cursor.toNat + 1 ∧
      entryTested v raw s = .next s.beginPermute) ∨
    (topElem v raw < s.eng.nElem.toNat ∧ s.eng.cursor.toNat + 1 < s.eng.count ∧
      entryTested v raw s = .next (s.setStage .nextEntry)) := by
  unfold entryTested
  split
  · exact .inl ⟨by omega, rfl⟩
  · split
    · exact .inr (.inl ⟨by omega, by omega, rfl⟩)
    · exact .inr (.inr ⟨by omega, by omega, rfl⟩)

/-- Everything a step of the validation pass can do. -/
theorem validateStep_next {v : Variant} {s t : State} (h : validateStep v s = .next t) :
    (atEntry s).eng.cursor.toNat < s.eng.tabLen.toNat ∧
    ((s.eng.nElem.toNat ≤ topElem v (tabEntry s.eng s.mem (atEntry s).eng.cursor.toNat) ∧
        t = raiseErr .range (atEntry s).eng.cursor
          ((atEntry s).log (.readEntry (atEntry s).eng.cursor.toNat))) ∨
     (entryInRange v s.eng s.mem (atEntry s).eng.cursor.toNat = true ∧
        s.eng.count ≤ (atEntry s).eng.cursor.toNat + 1 ∧
        t = ((atEntry s).log (.readEntry (atEntry s).eng.cursor.toNat)).beginPermute) ∨
     (entryInRange v s.eng s.mem (atEntry s).eng.cursor.toNat = true ∧
        (atEntry s).eng.cursor.toNat + 1 < s.eng.count ∧
        t = ((atEntry s).log (.readEntry (atEntry s).eng.cursor.toNat)).setStage .nextEntry)) := by
  have hops : sameOperands s.eng (atEntry s).eng := by
    unfold atEntry; split <;> exact sameOperands.refl _
  have hmem : (atEntry s).mem = s.mem := by unfold atEntry; split <;> rfl
  rw [validateStep_eq] at h
  obtain ⟨hj, -, hf⟩ := readEntry_next h
  rw [tabEntry_congr hops, hmem] at hf
  refine ⟨by rw [← hops.2.2.2.1]; exact hj, ?_⟩
  have hn := hops.2.1
  have hc := count_congr hops
  rcases entryTested_cases v (tabEntry s.eng s.mem (atEntry s).eng.cursor.toNat)
    ((atEntry s).log (.readEntry (atEntry s).eng.cursor.toNat)) with ⟨h1, he⟩ | ⟨h1, h2, he⟩ | ⟨h1, h2, he⟩ <;>
    rw [he] at hf <;> injection hf with hf <;> simp only [log_eng] at h1 <;> rw [hn] at h1
  · exact .inl ⟨h1, hf.symm⟩
  · simp only [log_eng] at h2; rw [hc] at h2
    exact .inr (.inl ⟨entryInRange_iff.2 h1, h2, hf.symm⟩)
  · simp only [log_eng] at h2; rw [hc] at h2
    exact .inr (.inr ⟨entryInRange_iff.2 h1, h2, hf.symm⟩)

/-! ### The permute pass -/

/-- The state after `rawA` was read. -/
def gotA (v : Variant) (s : State) : State :=
  ((s.log (.readEntry s.eng.cursor.toNat)).setTmp
    { s.eng.tmp with
      rawA := tabEntry s.eng s.mem s.eng.cursor.toNat
      a := normIndex v (tabEntry s.eng s.mem s.eng.cursor.toNat) }).setStage .readB

/-- The state after `rawB` was read. -/
def gotB (v : Variant) (s : State) : State :=
  ((s.log (.readEntry (s.eng.cursor.toNat + 1))).setTmp
    { s.eng.tmp with
      rawB := tabEntry s.eng s.mem (s.eng.cursor.toNat + 1)
      b := normIndex v (tabEntry s.eng s.mem (s.eng.cursor.toNat + 1))
      k := 0#1 }).setStage .loadA

/-- The state after the `a` side was read. -/
def gotT0 (v : Variant) (s : State) : State :=
  ((s.log (.readElem (sideA v s.eng))).setTmp
    { s.eng.tmp with t0 := bufElem v s.eng s.mem (sideA v s.eng) }).setStage .loadB

/-- The state after the `b` side was read. -/
def gotT1 (v : Variant) (s : State) : State :=
  ((s.log (.readElem (sideB v s.eng))).setTmp
    { s.eng.tmp with t1 := bufElem v s.eng s.mem (sideB v s.eng) }).setStage .storeA

/-- The state after the `a` side was written. -/
def putA (v : Variant) (s : State) : State :=
  ((s.setMem (setBufElem v s.eng s.mem (sideA v s.eng) s.eng.tmp.t1)).log
    (.writeElem (sideA v s.eng))).setStage .storeB

/-- The state after the `b` side was written. -/
def putB (v : Variant) (s : State) : State :=
  exchangeDone v ((s.setMem (setBufElem v s.eng s.mem (sideB v s.eng) s.eng.tmp.t0)).log
    (.writeElem (sideB v s.eng)))

/-- The stage at which a pair begins or the pass ends. -/
def atPairStart (s : State) : Prop :=
  s.eng.stage = .readA ∨ s.eng.stage = .testEntry ∨ s.eng.stage = .nextEntry

/-- Everything a step of the permute pass can do. -/
theorem permuteStep_next {v : Variant} {s t : State} (h : permuteStep v s = .next t) :
    (atPairStart s ∧ s.eng.count ≤ s.eng.cursor.toNat ∧ t = complete s) ∨
    (atPairStart s ∧ s.eng.cursor.toNat < s.eng.count ∧
      s.eng.cursor.toNat < s.eng.tabLen.toNat ∧ t = gotA v s) ∨
    (s.eng.stage = .readB ∧ s.eng.cursor.toNat + 1 < s.eng.tabLen.toNat ∧ t = gotB v s) ∨
    (s.eng.stage = .loadA ∧ sideA v s.eng < s.eng.nElem.toNat ∧ t = gotT0 v s) ∨
    (s.eng.stage = .loadB ∧ sideB v s.eng < s.eng.nElem.toNat ∧ t = gotT1 v s) ∨
    (s.eng.stage = .storeA ∧ sideA v s.eng < s.eng.nElem.toNat ∧
      elemAddr v s.eng (sideA v s.eng) + v.bytes ≤ Config.addrSpace ∧ t = putA v s) ∨
    (s.eng.stage = .storeB ∧ sideB v s.eng < s.eng.nElem.toNat ∧
      elemAddr v s.eng (sideB v s.eng) + v.bytes ≤ Config.addrSpace ∧ t = putB v s) := by
  have hstart : atPairStart s →
      (if s.eng.count ≤ s.eng.cursor.toNat then .next (complete s)
       else readEntry s.eng.cursor.toNat s fun raw t =>
        .next ((t.setTmp { t.eng.tmp with rawA := raw, a := normIndex v raw }).setStage .readB) : Outcome)
        = .next t →
      (atPairStart s ∧ s.eng.count ≤ s.eng.cursor.toNat ∧ t = complete s) ∨
      (atPairStart s ∧ s.eng.cursor.toNat < s.eng.count ∧
        s.eng.cursor.toNat < s.eng.tabLen.toNat ∧ t = gotA v s) := by
    intro hs h
    split at h
    · injection h with h
      exact .inl ⟨hs, by assumption, h.symm⟩
    · obtain ⟨hj, -, h⟩ := readEntry_next h
      injection h with h
      exact .inr ⟨hs, by omega, hj, h.symm⟩
  unfold permuteStep at h
  split at h
  · rcases hstart (.inl (by assumption)) h with h | h
    · exact .inl h
    · exact .inr (.inl h)
  · rcases hstart (.inr (.inl (by assumption))) h with h | h
    · exact .inl h
    · exact .inr (.inl h)
  · rcases hstart (.inr (.inr (by assumption))) h with h | h
    · exact .inl h
    · exact .inr (.inl h)
  · obtain ⟨hj, -, h⟩ := readEntry_next h
    injection h with h
    exact .inr (.inr (.inl ⟨by assumption, hj, h.symm⟩))
  · obtain ⟨hk, -, h⟩ := guardElem_next h
    injection h with h
    exact .inr (.inr (.inr (.inl ⟨by assumption, hk, h.symm⟩)))
  · obtain ⟨hk, -, h⟩ := guardElem_next h
    injection h with h
    exact .inr (.inr (.inr (.inr (.inl ⟨by assumption, hk, h.symm⟩))))
  · obtain ⟨hk, ha, h⟩ := guardElem_next h
    injection h with h
    exact .inr (.inr (.inr (.inr (.inr (.inl ⟨by assumption, hk, ha, h.symm⟩)))))
  · obtain ⟨hk, ha, h⟩ := guardElem_next h
    injection h with h
    exact .inr (.inr (.inr (.inr (.inr (.inr ⟨by assumption, hk, ha, h.symm⟩)))))

theorem permuteStep_complete {v : Variant} {s : State} (hg : s.eng.stage = .readA)
    (hc : s.eng.count ≤ s.eng.cursor.toNat) : permuteStep v s = .next (complete s) := by
  rw [permuteStep, hg]
  exact if_pos hc

theorem permuteStep_readA {v : Variant} {s : State} (hg : s.eng.stage = .readA)
    (hc : s.eng.cursor.toNat < s.eng.count) (hj : s.eng.cursor.toNat < s.eng.tabLen.toNat)
    (ha : entryAddr s.eng s.eng.cursor.toNat + 2 ≤ Config.addrSpace) :
    permuteStep v s = .next (gotA v s) := by
  rw [permuteStep, hg]
  exact (if_neg (by omega)).trans (readEntry_ok hj ha)

theorem permuteStep_readB {v : Variant} {s : State} (hg : s.eng.stage = .readB)
    (hj : s.eng.cursor.toNat + 1 < s.eng.tabLen.toNat)
    (ha : entryAddr s.eng (s.eng.cursor.toNat + 1) + 2 ≤ Config.addrSpace) :
    permuteStep v s = .next (gotB v s) := by
  rw [permuteStep, hg]
  exact readEntry_ok hj ha

theorem permuteStep_loadA {v : Variant} {s : State} (hg : s.eng.stage = .loadA)
    (hk : sideA v s.eng < s.eng.nElem.toNat)
    (ha : elemAddr v s.eng (sideA v s.eng) + v.bytes ≤ Config.addrSpace) :
    permuteStep v s = .next (gotT0 v s) := by
  rw [permuteStep, hg]
  exact guardElem_ok hk ha

theorem permuteStep_loadB {v : Variant} {s : State} (hg : s.eng.stage = .loadB)
    (hk : sideB v s.eng < s.eng.nElem.toNat)
    (ha : elemAddr v s.eng (sideB v s.eng) + v.bytes ≤ Config.addrSpace) :
    permuteStep v s = .next (gotT1 v s) := by
  rw [permuteStep, hg]
  exact guardElem_ok hk ha

theorem permuteStep_storeA {v : Variant} {s : State} (hg : s.eng.stage = .storeA)
    (hk : sideA v s.eng < s.eng.nElem.toNat)
    (ha : elemAddr v s.eng (sideA v s.eng) + v.bytes ≤ Config.addrSpace) :
    permuteStep v s = .next (putA v s) := by
  rw [permuteStep, hg]
  exact guardElem_ok hk ha

theorem permuteStep_storeB {v : Variant} {s : State} (hg : s.eng.stage = .storeB)
    (hk : sideB v s.eng < s.eng.nElem.toNat)
    (ha : elemAddr v s.eng (sideB v s.eng) + v.bytes ≤ Config.addrSpace) :
    permuteStep v s = .next (putB v s) := by
  rw [permuteStep, hg]
  exact guardElem_ok hk ha

/-- Everything an engine step can do. -/
theorem engineStep_next {s t : State} (h : engineStep s = .next t) :
    (s.eng.phase = .idle ∧ t = s) ∨
    (∃ v, s.eng.phase = .validate ∧ s.eng.variant = some v ∧ validateStep v s = .next t) ∨
    (∃ v, s.eng.phase = .permute ∧ s.eng.variant = some v ∧ permuteStep v s = .next t) := by
  unfold engineStep at h
  split at h
  · injection h with h
    exact .inl ⟨by assumption, h.symm⟩
  · split at h
    · exact .inr (.inl ⟨_, by assumption, by assumption, h⟩)
    · cases h
  · split at h
    · exact .inr (.inr ⟨_, by assumption, by assumption, h⟩)
    · cases h

theorem engineStep_validate {s : State} {v : Variant} (hp : s.eng.phase = .validate)
    (hv : s.eng.variant = some v) : engineStep s = validateStep v s := by
  simp [engineStep, hp, hv]

theorem engineStep_permute {s : State} {v : Variant} (hp : s.eng.phase = .permute)
    (hv : s.eng.variant = some v) : engineStep s = permuteStep v s := by
  simp [engineStep, hp, hv]

/-! ### Runs -/

@[simp] theorem engineRun_zero (s : State) : engineRun 0 s = .next s := rfl

theorem engineRun_idle {s : State} (h : s.busy = false) (f : Nat) : engineRun f s = .next s := by
  cases f <;> simp [engineRun, h]

theorem engineRun_step {s t : State} (hb : s.busy = true) (h : engineStep s = .next t) (f : Nat) :
    engineRun (f + 1) s = engineRun f t := by
  simp [engineRun, hb, h]

/-- A run is a shorter run and then the rest of it. -/
theorem engineRun_add {s t : State} {f : Nat} (h : engineRun f s = .next t) (g : Nat) :
    engineRun (f + g) s = engineRun g t := by
  induction f generalizing s with
  | zero =>
    injection h with h
    rw [h, Nat.zero_add]
  | succ f ih =>
    rw [Nat.succ_add]
    by_cases hb : s.busy = true
    · simp only [engineRun, hb, if_true] at h ⊢
      split at h
      · exact ih h
      · cases h
      · cases h
    · simp only [Bool.not_eq_true] at hb
      rw [engineRun_idle hb] at h
      injection h with h
      subst h
      rw [engineRun_idle hb, engineRun_idle hb]

/-- What every engine step keeps, a run keeps. -/
theorem engineRun_keeps {P : State → Prop} (hstep : ∀ s t, P s → s.busy = true → engineStep s = .next t → P t)
    {s t : State} (hs : P s) {f : Nat} (h : engineRun f s = .next t) : P t := by
  induction f generalizing s with
  | zero => injection h with h; exact h ▸ hs
  | succ f ih =>
    simp only [engineRun] at h
    split at h
    · rename_i hb
      split at h
      · exact ih (hstep _ _ hs hb (by assumption)) h
      · cases h
      · cases h
    · injection h with h; exact h ▸ hs

/-! ### Launch -/

/-- Everything a launch can answer with a next state: ignored, rejected, or what follows acceptance. -/
theorem launch_next {impl : List Variant} {v : Variant} {chk : Bool} {s t : State}
    (h : launch impl v chk s = .next t) :
    (s.busy = true ∧ t = s) ∨
    (s.busy = false ∧ Config.built impl v = false ∧ t = rejectMode s) ∨
    (s.busy = false ∧ Config.built impl v = true ∧ afterAccept v chk (accept v chk s) = .next t) := by
  unfold launch at h
  split at h
  · injection h with h; exact .inl ⟨by assumption, h.symm⟩
  · split at h
    · injection h with h; exact .inr (.inl ⟨(Bool.not_eq_true _).mp ‹¬s.busy = true›, by assumption, h.symm⟩)
    · exact .inr (.inr ⟨by simpa using ‹¬s.busy = true›, by simpa using ‹¬Config.built impl v = false›, h⟩)

/-- Everything that can follow acceptance with a next state. -/
theorem afterAccept_next {v : Variant} {chk : Bool} {s t : State} (h : afterAccept v chk s = .next t) :
    (s.eng.count = 0 ∧ t = complete s) ∨
    (s.eng.count ≠ 0 ∧ aligned v s.eng = false ∧ t = raiseErr .align 0#17 s) ∨
    (s.eng.count ≠ 0 ∧ aligned v s.eng = true ∧ oddCount s.eng = true ∧ chk = true ∧
      t = raiseErr .oddLen 0#17 s) ∨
    (s.eng.count ≠ 0 ∧ aligned v s.eng = true ∧ oddCount s.eng = false ∧ lengthMatches s.eng = false ∧
      chk = true ∧ t = raiseErr .tabLen 0#17 s) ∨
    (s.eng.count ≠ 0 ∧ aligned v s.eng = true ∧ oddCount s.eng = false ∧ lengthMatches s.eng = true ∧
      spansGood v s ∧ (chk = true ∨ allInRange v s.eng s.mem = true) ∧ runUnlessScheduled s = .next t) := by
  unfold afterAccept at h
  split at h
  · injection h with h; exact .inl ⟨by assumption, h.symm⟩
  split at h
  · injection h with h; exact .inr (.inl ⟨by assumption, by assumption, h.symm⟩)
  have hal : aligned v s.eng = true := by simpa using ‹¬aligned v s.eng = false›
  split at h
  · split at h
    · injection h with h
      exact .inr (.inr (.inl ⟨by assumption, hal, by assumption, by assumption, h.symm⟩))
    · cases h
  have hev : oddCount s.eng = false := by simpa using ‹¬oddCount s.eng = true›
  split at h
  · split at h
    · injection h with h
      exact .inr (.inr (.inr (.inl ⟨by assumption, hal, hev, by assumption, by assumption, h.symm⟩)))
    · cases h
  have hlen : lengthMatches s.eng = true := by simpa using ‹¬lengthMatches s.eng = false›
  unfold withGoodSpans at h
  split at h
  · cases h
  split at h
  · cases h
  split at h
  · cases h
  have hsp : spansGood v s :=
    ⟨by simpa using ‹¬spansInSpace v s.eng = false›, by simpa using ‹¬spansApart v s.eng = false›,
      by simpa using ‹¬spansOrdinary v s.platform s.eng = false›⟩
  refine .inr (.inr (.inr (.inr ⟨by assumption, hal, hev, hlen, hsp, ?_⟩)))
  split at h
  · exact ⟨.inl (by assumption), h⟩
  · split at h
    · exact ⟨.inr (by assumption), h⟩
    · cases h

/-- A valid launch, checked or not, puts the engine to work. -/
theorem validLaunch.launchRuns {v : Variant} {s : State} (h : validLaunch v s) (chk : Bool) :
    launchRuns v chk s := by
  obtain ⟨hidle, hc, hsp⟩ := h
  simp only [contractHolds, Bool.and_eq_true, decide_eq_true_eq, Bool.not_eq_true'] at hc
  obtain ⟨⟨⟨⟨hn, hal⟩, hev⟩, hlen⟩, hin⟩ := hc
  exact ⟨hidle, hn, hal, hev, hlen, hsp, .inr hin⟩

/-- A launch that puts the engine to work starts the operation (43_engine_common.md R140). -/
theorem launch_runs {v : Variant} {s : State} {chk : Bool} {impl : List Variant}
    (hb : Config.built impl v = true) (h : launchRuns v chk s) :
    launch impl v chk s = runUnlessScheduled (accept v chk s) := by
  obtain ⟨hidle, hn, hal, hev, hlen, ⟨h1, h2, h3⟩, hin⟩ := h
  have hops : sameOperands s.eng (accept v chk s).eng := sameOperands.refl _
  unfold launch afterAccept withGoodSpans
  rw [count_congr hops, aligned_congr hops, oddCount_congr hops, lengthMatches_congr hops,
    allInRange_congr hops]
  have g1 : spansInSpace v (accept v chk s).eng = true := h1
  have g2 : spansApart v (accept v chk s).eng = true := h2
  have g3 : spansOrdinary v (accept v chk s).platform (accept v chk s).eng = true := h3
  simp only [hidle, hb, hn, hal, hev, hlen, g1, g2, g3, accept_mem, if_false,
    Bool.false_eq_true, reduceCtorEq]
  rcases hin with hin | hin
  · simp only [hin, if_true]
  · simp only [hin, if_true]
    split <;> rfl

/-- A launch that meets its contract starts the operation (43_engine_common.md R140). -/
theorem launch_valid {v : Variant} {s : State} (chk : Bool) {impl : List Variant}
    (hb : Config.built impl v = true) (h : validLaunch v s) :
    launch impl v chk s = runUnlessScheduled (accept v chk s) :=
  launch_runs hb (h.launchRuns chk)

theorem reservedAttempt_next {s t : State} (h : reservedAttempt s = .next t) :
    (s.busy = true ∧ t = s) ∨ (s.busy = false ∧ t = rejectMode s) := by
  unfold reservedAttempt at h
  split at h <;> injection h with h
  · exact .inl ⟨by assumption, h.symm⟩
  · exact .inr ⟨(Bool.not_eq_true _).mp ‹¬s.busy = true›, h.symm⟩

/-- Everything a command can answer with a next state. -/
theorem exec_next {i : Instr} {s t : State} (h : exec i s = .next t) :
    (t = s ∧ (s.busy = true ∨ i.isLaunchAttempt = false)) ∨
    (s.busy = false ∧ i.isLaunchAttempt = true ∧ i.launchOf = none ∧ t = rejectMode s) ∨
    (∃ v chk, i = Instr.ofVariant v chk ∧ s.busy = false ∧
      afterAccept v chk (accept v chk s) = .next t) := by
  have hop : ∀ v chk, launch Config.implVariants v chk s = .next t →
      (t = s ∧ (s.busy = true ∨ (Instr.ofVariant v chk).isLaunchAttempt = false)) ∨
      (∃ v' chk', Instr.ofVariant v chk = Instr.ofVariant v' chk' ∧ s.busy = false ∧
        afterAccept v' chk' (accept v' chk' s) = .next t) := by
    intro v chk h
    rcases launch_next h with ⟨hb, ht⟩ | ⟨-, hnb, -⟩ | ⟨hb, -, ha⟩
    · exact .inl ⟨ht, .inl hb⟩
    · cases v <;> cases hnb
    · exact .inr ⟨v, chk, rfl, hb, ha⟩
  have hres : i.isLaunchAttempt = true → i.launchOf = none → reservedAttempt s = .next t →
      (t = s ∧ (s.busy = true ∨ i.isLaunchAttempt = false)) ∨
      (s.busy = false ∧ i.isLaunchAttempt = true ∧ i.launchOf = none ∧ t = rejectMode s) := by
    intro h1 h2 h
    rcases reservedAttempt_next h with ⟨hb, ht⟩ | ⟨hb, ht⟩
    · exact .inl ⟨ht, .inl hb⟩
    · exact .inr ⟨hb, h1, h2, ht⟩
  cases i with
  | applyScalar16 chk => exact (hop .s16 chk h).imp_right .inr
  | applyComplex32 chk => exact (hop .c32 chk h).imp_right .inr
  | applyComplex64 chk => exact (hop .c64 chk h).imp_right .inr
  | nop rest => injection h with h; exact .inl ⟨h.symm, .inr rfl⟩
  | reservedWsel3 chk => exact (hres rfl rfl h).imp_right .inl
  | reservedRsv rsv low => exact (hres rfl rfl h).imp_right .inl

end Sys2Proof.Machine
end

