-- ==== Sys2Proof/Laws/HostPort.lean ====
section
/-! SUPPORT. What the outside world's accesses and one step of the machine can do, said once. -/

namespace Sys2Proof.Machine

@[simp] theorem Reg.ofOffset_offset (r : Reg) : Reg.ofOffset r.offset = some r := by
  cases r <;> decide

theorem Reg.offset_of_ofOffset {off : Nat} {r : Reg} (h : Reg.ofOffset off = some r) :
    off = r.offset := by
  unfold Reg.ofOffset at h
  repeat' split at h
  all_goals first
    | (injection h with h; subst h; simpa [Reg.offset])
    | cases h

/-- An access that reaches a register: 4 bytes at the register's offset. -/
theorem withReg_next {off size : Nat} {f : Reg → Outcome} {t : State} (h : withReg off size f = .next t) :
    ∃ r : Reg, off = r.offset ∧ size = 4 ∧ f r = .next t := by
  unfold withReg at h
  split at h
  · cases h
  · split at h
    · rename_i hn r hr
      exact ⟨r, Reg.offset_of_ofOffset hr, by omega, h⟩
    · cases h

@[simp] theorem withReg_offset (r : Reg) (f : Reg → Outcome) : withReg r.offset 4 f = f r := by
  cases r <;> rfl

theorem withOrdinaryAccess_next {addr : Word} {len : Nat} {s t : State} {out : Outcome}
    (h : withOrdinaryAccess addr len s out = .next t) :
    addr.toNat + len ≤ Config.addrSpace ∧ s.platform.ordinary (accessSpan addr len) = true ∧
      out = .next t := by
  unfold withOrdinaryAccess at h
  split at h
  · cases h
  · split at h
    · cases h
    · rename_i h1 h2
      exact ⟨by simpa [accessSpan, Span.top] using h1, by simpa using h2, h⟩

theorem withOrdinaryAccess_ok {addr : Word} {len : Nat} {s : State} {out : Outcome}
    (ha : addr.toNat + len ≤ Config.addrSpace)
    (ho : s.platform.ordinary (accessSpan addr len) = true) :
    withOrdinaryAccess addr len s out = out := by
  have ha' : ¬Config.addrSpace < (accessSpan addr len).top := Nat.not_lt.2 ha
  rw [withOrdinaryAccess, if_neg ha', if_neg (by simp [ho])]

/-! ### Loans -/

theorem touchesLentBuffer_eq_false {a : Span} {s : State} :
    touchesLentBuffer a s = false ↔ ∀ l, l ∈ s.loans → a.overlaps l.span = false := by
  simp [touchesLentBuffer]

theorem touchesLentBuffer_eq_true {a : Span} {s : State} :
    touchesLentBuffer a s = true ↔ ∃ l, l ∈ s.loans ∧ a.overlaps l.span = true := by
  simp [touchesLentBuffer]

theorem mem_coveringLoans {s : State} {x : Nat} {l : Lease} :
    l ∈ coveringLoans s x ↔ l ∈ s.loans ∧ l.permutes = true ∧ l.span.has x = true := by
  simp [coveringLoans]

theorem observedPairs_le (l : Lease) (draw k : Nat) : observedPairs l draw k ≤ l.eng.count / 2 :=
  Nat.le_of_lt_succ (Nat.mod_lt _ (Nat.succ_pos _))

/-- Everything a byte that an agent reads can be: a byte some open loan holds, or what memory holds. -/
theorem visibleByte_cases (s : State) (x : Nat) :
    (∃ l, l ∈ coveringLoans s x ∧ visibleByte s x = observedByte l s.draws x) ∨
    (coveringLoans s x = [] ∧ visibleByte s x = s.mem.read x) := by
  unfold visibleByte
  split
  · rename_i l hl
    exact .inl ⟨l, List.mem_of_getElem? hl, rfl⟩
  · rename_i hl
    refine .inr ⟨?_, rfl⟩
    by_contra hne
    have hpos : 0 < (coveringLoans s x).length := List.length_pos_iff.2 hne
    exact absurd (List.getElem?_eq_none_iff.1 hl) (Nat.not_le.2 (Nat.mod_lt _ hpos))

/-- A byte that no open loan holds is read as memory holds it. -/
theorem visibleByte_of_not_lent {s : State} {x : Nat}
    (h : ∀ l, l ∈ s.loans → l.permutes = true → l.span.has x = false) :
    visibleByte s x = s.mem.read x := by
  rcases visibleByte_cases s x with ⟨l, hl, -⟩ | ⟨-, he⟩
  · obtain ⟨hl, hp, hx⟩ := mem_coveringLoans.1 hl
    rw [h l hl hp] at hx
    cases hx
  · exact he

@[simp] theorem visibleByte_no_loans {s : State} (h : s.loans = []) (x : Nat) :
    visibleByte s x = s.mem.read x :=
  visibleByte_of_not_lent (by simp [h])

/-- A write of the outside world to ordinary memory that is neither lent nor the table in use. -/
theorem hostMemWrite_ok {addr : Word} {data : List Byte} {s : State}
    (ha : addr.toNat + data.length ≤ Config.addrSpace)
    (ho : s.platform.ordinary (accessSpan addr data.length) = true)
    (hl : touchesLentBuffer (accessSpan addr data.length) s = false)
    (ht : touchesBusyTable (accessSpan addr data.length) s = false) :
    hostMemWrite addr data s = .next (s.setMem (s.mem.writeBytes addr.toNat data)) := by
  rw [hostMemWrite, withOrdinaryAccess_ok ha ho, hl, ht]
  rfl

/-- What the poll does while the engine is busy: it replies and stays. -/
theorem hostPoll_busy {s : State} (h : s.busy = true) :
    hostPoll s = { hostRead .status s with inputs := .poll :: s.inputs } := if_pos h

/-- What the poll does when the engine is idle: it is a read of `STATUS`. -/
theorem hostPoll_idle {s : State} (h : s.busy = false) : hostPoll s = hostRead .status s :=
  if_neg (by simp [h])

@[simp] theorem applyReset_loans (s : State) : (applyReset s).loans = s.loans := by
  unfold applyReset
  repeat' split
  all_goals rfl

/-! ### Accesses of the outside world -/

/-- The state after a memory read of the outside world. -/
def memReplied (addr : Word) (len : Nat) (s : State) : State :=
  { s with
    replies := .memory addr ((List.range len).map fun i => visibleByte s (addr.toNat + i)) :: s.replies
    draws := s.draws + 1 }

/-- A read of the outside world of ordinary memory. -/
theorem hostMemRead_ok {addr : Word} {len : Nat} {s : State}
    (ha : addr.toNat + len ≤ Config.addrSpace)
    (ho : s.platform.ordinary (accessSpan addr len) = true) :
    hostMemRead addr len s = .next (memReplied addr len s) := withOrdinaryAccess_ok ha ho

/-- Everything one access of the outside world can do. -/
theorem hostAccess_next {x : Input} {s t : State} (h : hostAccess x s = .next t) :
    (∃ w, x = .regWrite 0 4 w ∧ exec (decode w) s = .next t) ∨
    (∃ (r : Reg) (w : Word), x = .regWrite r.offset 4 w ∧ r ≠ .cmd ∧ s.busy = true ∧ t = s) ∨
    (∃ (r : Reg) (w : Word), x = .regWrite r.offset 4 w ∧ r ≠ .cmd ∧ s.busy = false ∧
      t = { s with eng := s.eng.writeReg r w }) ∨
    (∃ r : Reg, x = .regRead r.offset 4 ∧ t = hostRead r s) ∨
    (x = .poll ∧ t = hostPoll s) ∨
    (∃ addr data, x = .memWrite addr data ∧ addr.toNat + data.length ≤ Config.addrSpace ∧
      s.platform.ordinary (accessSpan addr data.length) = true ∧
      touchesLentBuffer (accessSpan addr data.length) s = false ∧
      touchesBusyTable (accessSpan addr data.length) s = false ∧
      t = s.setMem (s.mem.writeBytes addr.toNat data)) ∨
    (∃ addr len, x = .memRead addr len ∧ t = memReplied addr len s) ∨
    (x = .reset ∧ t = applyReset s) := by
  cases x with
  | regWrite off size w =>
    obtain ⟨r, rfl, rfl, hf⟩ := withReg_next h
    by_cases hr : r = .cmd
    · subst hr
      exact .inl ⟨w, rfl, hf⟩
    · have hw : hostWrite r w s = if s.busy then .next s else .next { s with eng := s.eng.writeReg r w } := by
        cases r <;> first | exact absurd rfl hr | rfl
      rw [hw] at hf
      split at hf <;> injection hf with hf
      · exact .inr (.inl ⟨r, w, rfl, hr, by assumption, hf.symm⟩)
      · exact .inr (.inr (.inl ⟨r, w, rfl, hr, (Bool.not_eq_true _).mp ‹¬s.busy = true›, hf.symm⟩))
  | regRead off size =>
    obtain ⟨r, rfl, rfl, hf⟩ := withReg_next h
    injection hf with hf
    exact .inr (.inr (.inr (.inl ⟨r, rfl, hf.symm⟩)))
  | poll =>
    injection h with h
    exact .inr (.inr (.inr (.inr (.inl ⟨rfl, h.symm⟩))))
  | memWrite addr data =>
    obtain ⟨h1, h2, h3⟩ := withOrdinaryAccess_next h
    split at h3
    · cases h3
    split at h3
    · cases h3
    injection h3 with h3
    exact .inr (.inr (.inr (.inr (.inr (.inl ⟨addr, data, rfl, h1, h2, (Bool.not_eq_true _).mp (by assumption),
      (Bool.not_eq_true _).mp (by assumption), h3.symm⟩)))))
  | memRead addr len =>
    obtain ⟨-, -, h3⟩ := withOrdinaryAccess_next h
    injection h3 with h3
    exact .inr (.inr (.inr (.inr (.inr (.inr (.inl ⟨addr, len, rfl, h3.symm⟩))))))
  | reset =>
    injection h with h
    exact .inr (.inr (.inr (.inr (.inr (.inr (.inr ⟨rfl, h.symm⟩))))))

/-- Everything the outside world's turn can do. -/
theorem hostTurn_next {s t : State} (h : hostTurn s = .next t) :
    (s.inputs = [] ∧ t = s) ∨
    (∃ x rest, s.inputs = x :: rest ∧ hostAccess x { s with inputs := rest } = .next t) := by
  unfold hostTurn at h
  split at h
  · injection h with h; exact .inl ⟨by assumption, h.symm⟩
  · exact .inr ⟨_, _, by assumption, h⟩

/-- Everything one step of the machine can do. -/
theorem step_next {s t : State} (h : step s = .next t) :
    (s.busy = true ∧ s.sched = [] ∧ runToEnd s = .next t) ∨
    (∃ rest, s.busy = true ∧ s.sched = .engine :: rest ∧ engineStep { s with sched := rest } = .next t) ∨
    (∃ rest, s.busy = true ∧ s.sched = .host :: rest ∧ hostTurn { s with sched := rest } = .next t) ∨
    (s.busy = false ∧ hostTurn s = .next t) := by
  unfold step at h
  split at h
  · split at h
    · exact .inl ⟨by assumption, by assumption, h⟩
    · exact .inr (.inl ⟨_, by assumption, by assumption, h⟩)
    · exact .inr (.inr (.inl ⟨_, by assumption, by assumption, h⟩))
  · exact .inr (.inr (.inr ⟨(Bool.not_eq_true _).mp (by assumption), h⟩))

/-- The command placed by `withFetchWord` is what the next step issues. -/
theorem hostTurn_regWrite_cmd {s : State} {w : Word} {rest : List Input}
    (h : s.inputs = .regWrite (Reg.offset .cmd) 4 w :: rest) :
    hostTurn s = exec (decode w) { s with inputs := rest } := by
  simp only [hostTurn, h, hostAccess, withReg_offset, hostWrite]

end Sys2Proof.Machine
end

