-- ==== Sys2Proof/Laws/PerInstr.lean ====
section
/-! SUPPORT. What holds of every command, one lemma for each constructor of Instr. The family StartBit: bit
0 of a command's word is 1 exactly when the command is a launch attempt (30_encoding.md R82, R89). -/

namespace Sys2Proof.Laws

/-- Bit 0 of the word says whether the command is a launch attempt. -/
def StartBit.Statement (i : Instr) : Prop := cmdStart (encode i) = i.isLaunchAttempt

theorem StartBit.applyScalar16 (chk : Bool) : StartBit.Statement (.applyScalar16 chk) := by
  cases chk <;> rfl

theorem StartBit.applyComplex32 (chk : Bool) : StartBit.Statement (.applyComplex32 chk) := by
  cases chk <;> rfl

theorem StartBit.applyComplex64 (chk : Bool) : StartBit.Statement (.applyComplex64 chk) := by
  cases chk <;> rfl

theorem StartBit.nop (rest : BitVec 31) : StartBit.Statement (.nop rest) := by
  show (rest ++ 0#1).getLsbD 0 = false
  rw [BitVec.getLsbD_append]
  rfl

theorem StartBit.reservedWsel3 (chk : Bool) : StartBit.Statement (.reservedWsel3 chk) := by
  cases chk <;> rfl

theorem StartBit.reservedRsv (rsv : BitVec 28) (low : BitVec 3) :
    StartBit.Statement (.reservedRsv rsv low) := by
  show (rsv ++ low ++ 1#1).getLsbD 0 = true
  rw [BitVec.getLsbD_append]
  rfl

end Sys2Proof.Laws
end

