-- ==== Sys2Proof/Tests/Slice0.lean ====
section
/-! SUPPORT. The model's own tests. Expected results are the vectors of spec/95_test_vectors.md (S, C32,
C64, L and E) and the words of 30_encoding.md R87 written out bit by bit. Then, for every statement with
hypotheses, a state and operands that meet them. -/

namespace Sys2Proof.Tests

open Sys2Proof Sys2Proof.Machine

/-! ### Well-formedness and words -/

theorem test_wf_refuses_reserved_rsv_without_a_bit :
    Instr.wf (.reservedRsv 0#28 0b111#3) = false := by decide
theorem test_wf_takes_reserved_rsv_with_a_bit : Instr.wf (.reservedRsv 1#28 0#3) = true := by decide

theorem test_decode_applyScalar16 :
    decode 0b00000000000000000000000000000001#32 = .applyScalar16 false := by decide
theorem test_decode_applyScalar16_chk :
    decode 0b00000000000000000000000000001001#32 = .applyScalar16 true := by decide
theorem test_decode_applyComplex32 :
    decode 0b00000000000000000000000000000011#32 = .applyComplex32 false := by decide
theorem test_decode_applyComplex32_chk :
    decode 0b00000000000000000000000000001011#32 = .applyComplex32 true := by decide
theorem test_decode_applyComplex64 :
    decode 0b00000000000000000000000000000101#32 = .applyComplex64 false := by decide
theorem test_decode_applyComplex64_chk :
    decode 0b00000000000000000000000000001101#32 = .applyComplex64 true := by decide
theorem test_decode_nop : decode 0b00000000000000000000000000000000#32 = .nop 0#31 := by decide
theorem test_decode_nop_other_bits :
    decode 0b11111111111111111111111111111110#32 = .nop 0x7FFFFFFF#31 := by decide
theorem test_decode_reservedWsel3 :
    decode 0b00000000000000000000000000001111#32 = .reservedWsel3 true := by decide
theorem test_decode_reservedRsv :
    decode 0b00000000000000000000000000010001#32 = .reservedRsv 1#28 0b000#3 := by decide
theorem test_decode_rsv_before_wsel :
    decode 0b00000000000000000000000000010111#32 = .reservedRsv 1#28 0b011#3 := by decide
theorem test_decode_bytes_truncated :
    (match decodeBytes [9#8, 0#8, 0#8] with | .error e => e == .truncated | .ok _ => false) = true := by
  decide
theorem test_decode_bytes_lowest_first :
    (match decodeBytes [9#8, 0#8, 0#8, 0#8, 7#8] with
      | .ok (i, rest) => i == .applyScalar16 true && rest == [7#8]
      | .error _ => false) = true := by decide
theorem test_decodeTableWord : decodeTableWord 32 0x0000000B = some (.applyComplex32 true) := by decide

/-! ### Small states -/

/-- Elements laid down from a base up. -/
def putElems (bytes base : Nat) : List Nat → Memory → Memory
  | [], m => m
  | x :: xs, m => putElems bytes (base + bytes) xs (m.writeLE base bytes x)

/-- The buffer at 0x20000000 and the table at 0x20000100, as in P1 of 95_test_vectors.md. -/
def small (v : Variant) (buf tab : List Nat) (count : Nat) : State :=
  { State.reset with
    eng := { Engine.reset with
      bufBase := 0x20000000#32, nElem := BitVec.ofNat 32 buf.length, tabBase := 0x20000100#32,
      tabLen := BitVec.ofNat 32 tab.length, bitRevLen := BitVec.ofNat 16 count }
    mem := putElems 2 0x20000100 tab (putElems v.bytes 0x20000000 buf []) }

/-- The buffer, `STATUS` and `CURSOR` of a next state. -/
def seen (v : Variant) : Outcome → Option (List Nat × Nat × Nat)
  | .next t => some ((List.range t.eng.nElem.toNat).map fun k => (bufElem v t.eng t.mem k).toNat,
      t.eng.statusWord.toNat, t.eng.cursor.toNat)
  | .fault _ => none
  | .refused _ => none

/-- The state of a next outcome; the state given for any other. -/
def nextOr (s : State) : Outcome → State
  | .next t => t
  | .fault _ => s
  | .refused _ => s

/-- S1. -/
def s1 : State := small .s16 [0, 1, 2, 3, 4, 5, 6, 7] [2, 8, 6, 12] 4
/-- C32-2. -/
def c1 : State :=
  small .c32 [0xA0000000, 0xA0000001, 0xA0000100, 0xA0000101, 0xA0000200, 0xA0000201, 0xA0000300,
    0xA0000301] [1, 2] 2
/-- C64-4, with bits in the places the shift discards. -/
def d1 : State :=
  small .c64 [0xC000000000000000, 0xC000000000000001, 0xC000000000000100, 0xC000000000000101,
    0xC000000000000200, 0xC000000000000201, 0xC000000000000300, 0xC000000000000301] [6, 11] 2

/-- S1 launched unchecked, its first pair done. -/
def mid : State := nextOr s1 (engineRun 6 (accept .s16 false s1))

/-- A state whose last launch attempt failed. -/
def failed : State := rejectMode s1

/-! ### One step each, from the vectors -/

theorem test_applyScalar16_S1 :
    seen .s16 (exec (.applyScalar16 false) s1) = some ([0, 4, 2, 6, 1, 5, 3, 7], 0x02, 4) := by decide
theorem test_applyScalar16_E5 :
    seen .s16 (exec (.applyScalar16 true) (small .s16 [0, 1, 2, 3, 4, 5, 6, 7] [2, 8, 6, 16] 4)) =
      some ([0, 1, 2, 3, 4, 5, 6, 7], 0x50, 3) := by decide
theorem test_applyComplex32_C32_2 :
    seen .c32 (exec (.applyComplex32 true) c1) =
      some ([0xA0000000, 0xA0000001, 0xA0000200, 0xA0000201, 0xA0000100, 0xA0000101, 0xA0000300,
        0xA0000301], 0x02, 2) := by decide
/-- 41_apply_complex32.md R123: odd `NELEM`, `2*1 + 1 >= 3`. -/
theorem test_applyComplex32_odd_nelem :
    seen .c32 (exec (.applyComplex32 true) (small .c32 [5, 6, 7] [0, 1] 2)) =
      some ([5, 6, 7], 0x50, 1) := by decide
theorem test_applyComplex64_C64_4 :
    seen .c64 (exec (.applyComplex64 false) d1) =
      some ([0xC000000000000000, 0xC000000000000001, 0xC000000000000200, 0xC000000000000201,
        0xC000000000000100, 0xC000000000000101, 0xC000000000000300, 0xC000000000000301], 0x02, 2) := by
  decide
theorem test_applyComplex64_E20 :
    (match exec (.applyComplex64 true) { d1 with eng := { d1.eng with bufBase := 0x20000004#32 } } with
      | .next t => t.eng.statusWord == 0x20#32 && t.trace == []
      | _ => false) = true := by decide
theorem test_nop_L4 :
    (match exec (.nop 0x7FFFFFFF#31) failed with
      | .next t => t == failed
      | _ => false) = true := by decide
theorem test_reservedWsel3_L5 :
    seen .s16 (exec (.reservedWsel3 true) s1) = some ([0, 1, 2, 3, 4, 5, 6, 7], 0x10, 0) := by decide
theorem test_reservedRsv_L6 :
    (match exec (.reservedRsv 0x8000000#28 0#3) s1 with
      | .next t => t.eng.statusWord == 0x10#32 && t.eng.cmd == s1.eng.cmd
      | _ => false) = true := by decide
/-- P6: `BITREVLEN` keeps bits 15:0 only. -/
theorem test_bitRevLen_P6 :
    (match step { State.reset with inputs := [.regWrite 0x18 4 0x00030004#32] } with
      | .next t => t.eng.regWord .bitRevLen == 0x00000004#32
      | _ => false) = true := by decide
/-- P5: a launch straight after reset is the zero-count exit. -/
theorem test_launch_after_reset_P5 :
    (match step (State.reset.withFetchWord 32 0x00000009) with
      | .next t => t.eng.cmd == 0x00000009#32 && t.eng.statusWord == 0x02#32 && t.mem == []
      | _ => false) = true := by decide

/-! ### Witnesses: the hypotheses of each statement can be met -/

theorem s1_wf : s1.mem.wf := by decide
theorem s1_valid : validLaunch .s16 s1 := ⟨by decide, by decide, by decide, by decide, by decide⟩
theorem c1_valid : validLaunch .c32 c1 := ⟨by decide, by decide, by decide, by decide, by decide⟩
theorem d1_valid : validLaunch .c64 d1 := ⟨by decide, by decide, by decide, by decide, by decide⟩

/-- The invariant holds in the middle of an operation. -/
theorem mid_inv : Inv mid := by
  refine ⟨by decide, ⟨by decide, by decide⟩, by decide, fun _ => ⟨_, _, rfl, ?_⟩⟩
  exact ⟨⟨rfl, rfl, rfl, rfl, rfl⟩, by decide, by decide, by decide, by decide, by decide,
    ⟨by decide, by decide, by decide⟩, by decide, by decide,
    .inr ⟨by decide, by decide, by decide, by decide, by
      show ∀ k, k < 8 → _
      decide⟩⟩

/-- S1 launched twice, no read of `STATUS` between. -/
def relaunched : State := nextOr s1 (exec (.applyScalar16 true) (nextOr s1 (exec (.applyScalar16 false) s1)))

/-- After S1 a zero-count launch for another buffer, no read of `STATUS` between. -/
def elsewhere : State :=
  let s := nextOr s1 (exec (.applyScalar16 false) s1)
  nextOr s1 (exec (.applyScalar16 false)
    { s with eng := { s.eng with bufBase := 0x20001000#32, bitRevLen := 0#16 } })

/-- 70_reset_and_hazards.md R205: the first loan outlives the second launch, and the read of `STATUS` ends
both. -/
theorem test_second_launch_keeps_the_first_loan :
    (match hostAccess (.memWrite 0x20000000#32 [0#8]) elsewhere,
        hostAccess (.regRead 0x04 4) elsewhere with
      | .refused .bufferWriteWhileLent, .next t =>
        (match hostAccess (.memWrite 0x20000000#32 [0x5A#8]) t with
          | .next u => u.mem.read 0x20000000 == 0x5A#8
          | _ => false)
      | _, _ => false) = true := by decide

theorem witness_DecodeOfEncodeIsTheCommand :
    Instr.wf (.reservedRsv 0xFFFFFFF#28 0b111#3) = true ∧ Instr.wf (.nop 0x7FFFFFFF#31) = true := by decide
theorem witness_NopWriteChangesNothing : (0xFFFFFFFE#32 : Word).getLsbD 0 = false := by decide
theorem witness_ReservedLaunchAttemptReportsEMode :
    State.reset.busy = false ∧ (0x00000011#32 : Word).getLsbD 0 = true ∧
    (0x00000011#32 : Word).extractLsb' 4 28 ≠ 0#28 ∧ (0x0000000F#32 : Word).getLsbD 0 = true ∧
    (0x0000000F#32 : Word).extractLsb' 1 2 = 0b11#2 ∧ Variant.c32 ≠ .s16 ∧
    Variant.c32 ∉ [Variant.s16] := by decide
theorem witness_WritesWhileBusyAreIgnored : mid.busy = true := by decide
theorem witness_OperandRegistersHoldWhatIsWritten : failed.busy = false := by decide
theorem witness_IdleReadReturnsTheRegister : relaunched.busy = false ∧ relaunched.eng.cmd = 0x00000009#32 := by
  decide
theorem witness_MisshapenRegisterAccessIsRefused :
    (2 ≠ 4 ∨ 0x18 % 4 ≠ 0) ∧ (4 ≠ 4 ∨ 0x1E % 4 ≠ 0) ∧ 0x20 % 4 = 0 ∧ 0x20 ≤ 0x20 := by decide
theorem witness_CmdChangesOnlyAtAnAcceptedLaunch :
    (match step (s1.withFetchWord 32 0x00000009), step { failed with inputs := [.reset] }, step mid with
      | .next t, .next u, .next w =>
        t.eng.cmd == 0x00000009#32 && u.eng.cmd == 0#32 && w.eng.cmd == mid.eng.cmd
      | _, _, _ => false) = true := by decide
theorem witness_OnlyALaunchWriteStartsAnOperation :
    s1.busy = false ∧ (match step ({ s1 with sched := [.host] }.withFetchWord 32 0x00000001) with
      | .next t => t.busy
      | _ => false) = true := by decide
theorem witness_AcceptanceTakesEffectAtOnce :
    launchRuns .s16 false { s1 with sched := [.engine] } ∧ { s1 with sched := [.engine] }.sched ≠ [] :=
  ⟨⟨by decide, by decide, by decide, by decide, by decide, ⟨by decide, by decide, by decide⟩, by decide⟩,
    by decide⟩
/-- E5 with turns in the schedule. -/
theorem witness_FirstOffendingEntryEndsTheSingleSteps :
    let s : State :=
      { small .s16 [0, 1, 2, 3, 4, 5, 6, 7] [2, 8, 6, 16] 4 with
        sched := List.replicate 4 .engine ++ [.host] }
    launchRuns .s16 true s ∧ s.sched = List.replicate (3 + 1) .engine ++ [.host] ∧ 3 < s.eng.count ∧
    entryInRange .s16 s.eng s.mem 3 = false ∧
    (∀ i, i < 3 → entryInRange .s16 s.eng s.mem i = true) :=
  ⟨⟨by decide, by decide, by decide, by decide, by decide, ⟨by decide, by decide, by decide⟩, by decide⟩,
    rfl, by decide, by decide, by decide⟩
theorem witness_ZeroCountCompletesAtOnce :
    State.reset.busy = false ∧ State.reset.eng.bitRevLen = 0#16 := by decide
/-- `TABBASE` odd; `BUFBASE` a multiple of 4 and not of 8 under `C64` (E20, E21). -/
theorem witness_MisalignedBaseEndsWithEAlign :
    s1.busy = false ∧ s1.eng.bitRevLen ≠ 0#16 ∧
    (Engine.tabBase { s1.eng with tabBase := 0x20000101#32 }).getLsbD 0 = true ∧
    (Engine.bufBase { s1.eng with bufBase := 0x20000004#32 }).toNat % Variant.bytes .c64 ≠ 0 := by decide
theorem witness_OddCountEndsACheckedLaunch :
    let s := small .s16 [0, 1, 2, 3, 4, 5, 6, 7] [2, 8, 6, 12] 3
    s.busy = false ∧ s.eng.bitRevLen.getLsbD 0 = true ∧ aligned .s16 s.eng = true := by decide
/-- A count below the table's length (E4) and one above it. -/
theorem witness_LengthMismatchEndsACheckedLaunch :
    let s := small .s16 [0, 1, 2, 3, 4, 5, 6, 7] [2, 8, 6, 12] 2
    let u := small .s16 [0, 1, 2, 3, 4, 5, 6, 7] [2, 8, 6, 12] 6
    s.busy = false ∧ s.eng.bitRevLen ≠ 0#16 ∧ s.eng.bitRevLen.getLsbD 0 = false ∧
    aligned .s16 s.eng = true ∧ s.eng.bitRevLen.setWidth 32 ≠ s.eng.tabLen ∧
    u.busy = false ∧ u.eng.bitRevLen ≠ 0#16 ∧ u.eng.bitRevLen.getLsbD 0 = false ∧
    aligned .s16 u.eng = true ∧ u.eng.bitRevLen.setWidth 32 ≠ u.eng.tabLen := by decide
/-- E5: `16 >> 1 = 8 >= 8` at entry 3. -/
theorem witness_FirstOffendingEntryIsReported :
    let s := small .s16 [0, 1, 2, 3, 4, 5, 6, 7] [2, 8, 6, 16] 4
    s.busy = false ∧ s.sched = [] ∧ s.eng.count ≠ 0 ∧ aligned .s16 s.eng = true ∧
    oddCount s.eng = false ∧ lengthMatches s.eng = true ∧ spansGood .s16 s ∧ 3 < s.eng.count ∧
    s.eng.nElem.toNat ≤ Variant.group .s16 *
      (tabEntry s.eng s.mem 3 >>> Variant.shift .s16).toNat + (Variant.group .s16 - 1) ∧
    (∀ i, i < 3 → Variant.group .s16 *
      (tabEntry s.eng s.mem i >>> Variant.shift .s16).toNat + (Variant.group .s16 - 1) <
        s.eng.nElem.toNat) :=
  ⟨by decide, rfl, by decide, by decide, by decide, by decide, ⟨by decide, by decide, by decide⟩,
    by decide, by decide, by decide⟩
theorem witness_UncheckedLaunchIsDefinedExactlyOnItsContract :
    s1.mem.wf ∧ s1.busy = false ∧ s1.eng.count ≠ 0 ∧ aligned .s16 s1.eng = true ∧ spansGood .s16 s1 :=
  ⟨s1_wf, by decide, by decide, by decide, s1_valid.2.2⟩
/-- E24 and E25. -/
theorem witness_UncheckedLaunch_violations :
    (match exec (.applyScalar16 false) (small .s16 [0, 1, 2, 3, 4, 5, 6, 7] [2, 8, 6, 16] 4),
        exec (.applyScalar16 false) (small .s16 [0, 1, 2, 3, 4, 5, 6, 7] [2, 8, 6, 12] 3),
        exec (.applyScalar16 false) (small .s16 [0, 1, 2, 3, 4, 5, 6, 7] [2, 8, 6, 12] 2) with
      | .fault .indexOutOfRange, .fault .oddCount, .fault .tableLengthMismatch => true
      | _, _, _ => false) = true := by decide
/-- The buffer one element over the top of the space; the table on the buffer; the buffer on the register
block. -/
theorem witness_SpansOutsideTheSpecAreRefused :
    let w : State := { s1 with eng := { s1.eng with bufBase := 0xFFFFFFF2#32 } }
    let o : State := { s1 with eng := { s1.eng with tabBase := 0x2000000E#32 } }
    let d : State := { s1 with eng := { s1.eng with bufBase := 0x4000001E#32 } }
    w.busy = false ∧ w.eng.count ≠ 0 ∧ aligned .s16 w.eng = true ∧ oddCount w.eng = false ∧
    lengthMatches w.eng = true ∧ 2 ^ 32 < w.eng.bufBase.toNat + w.eng.nElem.toNat * Variant.bytes .s16 ∧
    aligned .s16 o.eng = true ∧ spansInSpace .s16 o.eng = true ∧
    (bufSpan .s16 o.eng).overlaps (tabSpan o.eng) = true ∧
    aligned .s16 d.eng = true ∧ spansInSpace .s16 d.eng = true ∧
    (bufSpan .s16 d.eng).overlaps (tabSpan d.eng) = false ∧
    d.platform.ordinary (bufSpan .s16 d.eng) = false := by decide
theorem witness_ErrorsLeaveMemoryUntouched :
    (match exec (.applyScalar16 true) (small .s16 [0, 1, 2, 3, 4, 5, 6, 7] [2, 8, 6, 16] 4) with
      | .next t => t.eng.status.err != .none
      | _ => false) = true := by decide
theorem witness_OnlyTheFirstCauseIsReported :
    s1.busy = false ∧ s1.sched = [] ∧ (seen .s16 (exec (.applyScalar16 true) s1)).isSome = true ∧
    Instr.isLaunchAttempt (.reservedWsel3 false) = true ∧ Instr.launchOf (.reservedWsel3 false) = none := by
  decide
theorem witness_ApplyScalar16PermutesTheBuffer : s1.mem.wf ∧ validLaunch .s16 s1 ∧ s1.sched = [] :=
  ⟨s1_wf, s1_valid, rfl⟩
theorem witness_ApplyComplex32PermutesTheBuffer : c1.mem.wf ∧ validLaunch .c32 c1 ∧ c1.sched = [] :=
  ⟨by decide, c1_valid, rfl⟩
theorem witness_ApplyComplex64PermutesTheBuffer : d1.mem.wf ∧ validLaunch .c64 d1 ∧ d1.sched = [] :=
  ⟨by decide, d1_valid, rfl⟩
theorem witness_ValidLaunchComputesTheRoutine : c1.mem.wf ∧ validLaunch .c32 c1 ∧ c1.sched = [] :=
  ⟨by decide, c1_valid, rfl⟩
theorem witness_StepsAgreeWithTheAtomicView :
    s1.mem.wf ∧ launchRuns .s16 true s1 ∧ s1.sched = [] ∧ s1.inputs = [] ∧ 0 < 3 :=
  ⟨s1_wf, ⟨by decide, by decide, by decide, by decide, by decide, s1_valid.2.2, by decide⟩, rfl, rfl,
    by decide⟩
theorem witness_OperationChangesOnlyWhatItsTableNames :
    s1.mem.wf ∧ (seen .s16 (exec (.applyScalar16 false) s1)).isSome = true ∧
    Instr.applyScalar16 false = Instr.ofVariant .s16 false ∧
    (tabSpan s1.eng).has 0x20000107 = true ∧ Instr.launchOf (.nop 0#31) = none :=
  ⟨s1_wf, by decide, rfl, by decide, rfl⟩
theorem witness_OnePairTakesItsAccessesInOrder :
    Inv mid ∧ mid.eng.phase = .permute ∧ mid.eng.stage = .readA ∧ mid.eng.variant = some .s16 ∧
    mid.eng.cursor.toNat < mid.eng.count :=
  ⟨mid_inv, by decide, by decide, by decide, by decide⟩
theorem witness_SecondLaunchRestoresTheBuffer :
    s1.mem.wf ∧ validLaunch .s16 s1 ∧ s1.sched = [] ∧
    tableDisjoint (Variant.shift .s16) (tabEntry s1.eng s1.mem) s1.eng.count := by
  refine ⟨s1_wf, s1_valid, rfl, ?_⟩
  have h : ∀ i, i < s1.eng.count → ∀ j, j < s1.eng.count →
      (tabEntry s1.eng s1.mem i >>> Variant.shift .s16).toNat =
        (tabEntry s1.eng s1.mem j >>> Variant.shift .s16).toNat → i = j := by decide
  exact fun i j hi hj => h i hi j hj
theorem witness_ElementsAreNeitherLostNorDuplicated : d1.mem.wf ∧ validLaunch .c64 d1 ∧ d1.sched = [] :=
  ⟨by decide, d1_valid, rfl⟩
/-- Two-bit addresses: the one pair (1,2). -/
theorem witness_BitReversalTableGivesBitReversedOrder :
    c1.mem.wf ∧ validLaunch .c32 c1 ∧ c1.sched = [] ∧
    bitReversalTable (Variant.shift .c32) 2 (tabEntry c1.eng c1.mem) c1.eng.count ∧
    Variant.group .c32 * 2 ^ 2 ≤ c1.eng.nElem.toNat :=
  ⟨by decide, c1_valid, rfl, ⟨by decide, by decide⟩, by decide⟩
/-- S7: the same two pairs in another order, each turned round. -/
theorem witness_OrderOfDisjointPairsDoesNotMatter :
    let T : Nat → BitVec 16 := fun j => [2#16, 8#16, 6#16, 12#16].getD j 0#16
    let T' : Nat → BitVec 16 := fun j => [12#16, 6#16, 8#16, 2#16].getD j 0#16
    tableDisjoint 1 T (2 * 2) ∧
    List.Perm ((List.range 2).map (pairPositions 1 T)) ((List.range 2).map (pairPositions 1 T')) := by
  intro T T'
  refine ⟨?_, by decide⟩
  have h : ∀ i, i < 2 * 2 → ∀ j, j < 2 * 2 → (T i >>> 1).toNat = (T j >>> 1).toNat → i = j := by decide
  exact fun i j hi hj => h i hi j hj
/-- S1 and S2. -/
theorem witness_DiscardedBitsHaveNoEffect :
    let s' := small .s16 [0, 1, 2, 3, 4, 5, 6, 7] [3, 9, 7, 12] 4
    s1.mem.wf ∧ s'.mem.wf ∧ validLaunch .s16 s1 ∧ s'.eng = s1.eng ∧ s'.platform = s1.platform ∧
    s1.sched = [] ∧ s'.sched = [] ∧
    (∀ j, j < s1.eng.count → (tabEntry s'.eng s'.mem j).toNat / 2 ^ Variant.shift .s16 =
      (tabEntry s1.eng s1.mem j).toNat / 2 ^ Variant.shift .s16) ∧
    (∀ k, k < s1.eng.nElem.toNat → bufElem .s16 s'.eng s'.mem k = bufElem .s16 s1.eng s1.mem k) :=
  ⟨s1_wf, by decide, s1_valid, rfl, rfl, rfl, rfl, by decide, by decide⟩
theorem witness_EveryOperationTerminates : Inv mid ∧ mid.busy = true := ⟨mid_inv, by decide⟩
theorem witness_EveryStepKeepsTheInvariant :
    Inv mid ∧ (match step { mid with sched := [.engine] } with
      | .next t => t.busy && t.eng.stage == .readB
      | _ => false) = true := ⟨mid_inv, by decide⟩
theorem witness_StatusInvariantsHold :
    statusOk mid.eng ∧ (match step mid with | .next t => t.eng.status.done | _ => false) = true :=
  ⟨mid_inv.2.1, by decide⟩
theorem witness_RunningOperationNeverStops : Inv mid ∧ mid.busy = true ∧ mid.eng.phase = .permute :=
  ⟨mid_inv, by decide, by decide⟩
/-- After a failed launch attempt, and with a byte right after the buffer changed. -/
theorem witness_NothingIsKeptFromEarlierOperations :
    let s' := failed.setMem (failed.mem.write 0x20000010 0x5A#8)
    s1.mem.wf ∧ s'.mem.wf ∧ s1.busy = false ∧ s'.busy = false ∧ s1.sched = [] ∧ s'.sched = [] ∧
    sameOperands s1.eng s'.eng ∧ s'.platform = s1.platform ∧ s'.eng.status ≠ s1.eng.status ∧
    s'.mem ≠ s1.mem ∧
    (∀ x, ((bufSpan .s16 s1.eng).has x || (tabSpan s1.eng).has x) = true →
      s'.mem.read x = s1.mem.read x) := by
  refine ⟨s1_wf, by decide, by decide, by decide, rfl, rfl, ⟨rfl, rfl, rfl, rfl, rfl⟩, rfl, by decide,
    by decide, fun x hx => ?_⟩
  have hne : x ≠ 0x20000010 := by
    rintro rfl
    revert hx
    decide
  exact Memory.read_write_other (m := s1.mem) s1_wf 0x5A#8 hne
/-- A checked launch whose third entry is out of range, two entries tested. -/
def failing : State :=
  let b := small .s16 [0, 1, 2, 3] [2, 4, 8, 6] 4
  nextOr b (engineRun 2 (accept .s16 true b))
theorem witness_ErrorsLeaveMemoryUntouched_step :
    Inv failing ∧ failing.busy = true ∧ failing.loans.head?.isSome = true ∧
    (match engineStep failing with
      | .next t => t.eng.status.err == .range && t.eng.cursor == 2#17
      | _ => false) = true := by
  refine ⟨⟨by decide, ⟨by decide, by decide⟩, by decide, fun _ => ⟨_, _, rfl, ?_⟩⟩, by decide, by decide,
    by decide⟩
  exact ⟨⟨rfl, rfl, rfl, rfl, rfl⟩, by decide, by decide, by decide, by decide, by decide,
    ⟨by decide, by decide, by decide⟩, by decide, by decide,
    .inl ⟨by decide, by decide, by decide, fun _ => by decide, by
      show ∀ k, k < 4 → _
      decide⟩⟩
/-- The last byte of the buffer; the first byte of the table. -/
theorem witness_LentMemoryIsProtected :
    (mid.loans.any fun l => (accessSpan 0x2000000F#32 1).overlaps l.span) = true ∧
    mid.platform.ordinary (accessSpan 0x2000000F#32 1) = true ∧
    (∀ l, l ∈ mid.loans → (accessSpan 0x20000100#32 1).overlaps l.span = false) ∧ mid.busy = true ∧
    (accessSpan 0x20000100#32 1).overlaps (tabSpan mid.eng) = true ∧
    mid.platform.ordinary (accessSpan 0x20000100#32 1) = true := by decide
/-- The byte right before the table, while the engine is busy, and two bytes at the top of the space. -/
theorem witness_MemoryWriteStoresExactlyItsBytes :
    mid.mem.wf ∧ mid.platform.ordinary (accessSpan 0x200000FF#32 1) = true ∧
    (∀ l, l ∈ mid.loans → (accessSpan 0x200000FF#32 1).overlaps l.span = false) ∧
    (accessSpan 0x200000FF#32 1).overlaps (tabSpan mid.eng) = false ∧
    (0xFFFFFFFE#32).toNat + [1#8, 2#8].length ≤ 2 ^ 32 ∧
    mid.platform.ordinary (accessSpan 0xFFFFFFFE#32 2) = true := by decide
/-- The bytes around the lent buffer. -/
theorem witness_MemoryReadReturnsWhatMemoryHolds :
    mid.platform.ordinary (accessSpan 0x20000010#32 4) = true ∧
    (∀ l, l ∈ mid.loans → l.permutes = true → (accessSpan 0x20000010#32 4).overlaps l.span = false) ∧
    (∀ l, l ∈ mid.loans → l.permutes = true → (accessSpan 0x1FFFFFFF#32 1).overlaps l.span = false) := by
  decide
/-- Both launches of `relaunched` have opened a loan. -/
theorem witness_LoansStayOpenUntilStatusIsRead :
    relaunched.loans.length = 2 ∧
    (match step { relaunched with inputs := [.reset] }, step { relaunched with inputs := [.poll] } with
      | .next t, .next u => t.loans == relaunched.loans && u.loans == []
      | _, _ => false) = true := by decide
/-- A byte right after the buffer. -/
theorem witness_WritesOutsideTheSpansCommuteWithTheEngine :
    Inv mid ∧ mid.busy = true ∧
    (match engineStep mid, hostAccess (.memWrite 0x20000010#32 [0x5A#8]) mid with
      | .next t, .next u => t.eng.stage == .readB && u.mem.read 0x20000010 == 0x5A#8
      | _, _ => false) = true := ⟨mid_inv, by decide, by decide⟩
theorem witness_ResetDuringAnOperation :
    Inv mid ∧ mid.busy = true ∧ ∃ l, mid.loans.head? = some l := ⟨mid_inv, by decide, _, rfl⟩
theorem witness_CursorReadIsInRangeOrExact : mid.busy = true ∧ failed.busy = false := by decide
/-- The last element, lent twice. -/
theorem witness_LentElementReadIsOneOfItsValues :
    ∃ l, relaunched.loans.head? = some l ∧ l.permutes = true ∧ spansInSpace l.variant l.eng = true ∧
      7 < l.eng.nElem.toNat ∧ (0x2000000E#32).toNat = elemAddr l.variant l.eng 7 ∧
      relaunched.platform.ordinary (accessSpan 0x2000000E#32 l.variant.bytes) = true ∧
      ∀ l', l' ∈ relaunched.loans → l'.permutes = true →
        (l'.variant = l.variant ∧ l'.span = l.span) ∨
          (accessSpan 0x2000000E#32 l.variant.bytes).overlaps l'.span = false :=
  ⟨_, rfl, by decide, by decide, by decide, by decide, by decide, by decide⟩
theorem witness_StepIssuesTheDecodedCommand :
    (s1.withFetchWord 32 0x00000009).inputs = .regWrite 0x00 4 0x00000009#32 :: [] ∧
    s1.busy = false ∧ (mid.withFetchWord 32 0x00000009).busy = true ∧
    (mid.withFetchWord 32 0x00000009).sched = .host :: [] ∧
    Instr.wf (.applyScalar16 true) = true := by decide
/-- P1 of 95_test_vectors.md. -/
theorem witness_CallSequenceRunsToItsEnd :
    let c : Call := ⟨.s16, false, 0x20000000#32, 8#32, 0x20000100#32, 4#32, 4#32⟩
    let s : State := { State.reset with mem := s1.mem, inputs := c.inputs }
    s.mem.wf ∧ s.busy = false ∧ s.sched = [] ∧ s.inputs = c.inputs ++ [] ∧
    let e : Engine :=
      { s.eng with
        bufBase := c.bufBase
        nElem := c.nElem
        tabBase := c.tabBase
        tabLen := c.tabLen
        bitRevLen := c.count.setWidth 16 }
    validLaunch c.variant { s with eng := e } :=
  ⟨s1_wf, by decide, rfl, rfl, ⟨by decide, by decide, by decide, by decide, by decide⟩⟩
theorem witness_StatusReadMakesTheBufferVisible : mid.busy = true ∧ failed.busy = false := by decide
/-- P1 and P2 of 95_test_vectors.md: "it may read `0x00000001` (busy) any number of times first". -/
theorem witness_PollStaysUntilTheEngineIsIdle :
    (match step { mid with inputs := [.poll], sched := [.host] }, step { failed with inputs := [.poll] } with
      | .next t, .next u =>
        t.replies == [.register .status 0x00000001#32] && t.inputs == [.poll] && t.busy &&
          u.replies == [.register .status 0x00000010#32] && u.inputs == []
      | _, _ => false) = true := by decide
theorem witness_PseudoOperationsStandForTheirAccesses :
    failed.busy = false ∧ { failed with inputs := nopInputs }.inputs = nopInputs ++ [] ∧
    8 ∉ [16, 32, 64] := by decide

end Sys2Proof.Tests
end

section
/-! PROOFS. The statements of 10_state.md: the command word, what a step can do to the engine, `STATUS`,
the invariant of the machine, and the register accesses. -/

namespace Sys2Proof.Machine

/-! ### The command word (30_encoding.md R81 to R88) -/

theorem ofBool_getLsbD (w : Word) (i : Nat) : BitVec.ofBool (w.getLsbD i) = w.extractLsb' i 1 :=
  BitVec.eq_of_getLsbD_eq fun j hj => by
    obtain rfl : j = 0 := by omega
    simp

/-- A word is its four fields (30_encoding.md R81 to R85). -/
theorem cmd_fields (w : Word) :
    cmdRsv w ++ BitVec.ofBool (cmdChk w) ++ cmdWsel w ++ BitVec.ofBool (cmdStart w) = w := by
  rw [cmdRsv, cmdChk, cmdWsel, cmdStart, ofBool_getLsbD, ofBool_getLsbD,
    BitVec.extractLsb'_append_extractLsb'_eq_extractLsb' (show 4 = 3 + 1 from rfl),
    BitVec.extractLsb'_append_extractLsb'_eq_extractLsb' (show 3 = 1 + 2 from rfl),
    BitVec.extractLsb'_append_extractLsb'_eq_extractLsb' (show 1 = 0 + 1 from rfl)]
  exact BitVec.extractLsb'_eq_self

theorem variantOfWsel_eq_some {c : BitVec 2} {v : Variant} (h : variantOfWsel c = some v) :
    c = wselOf v := by
  revert h
  revert v c
  decide

theorem Instr.ofVariant_inj {u v : Variant} {a b : Bool} :
    Instr.ofVariant u a = Instr.ofVariant v b ↔ u = v ∧ a = b := by
  cases u <;> cases v <;> simp [Instr.ofVariant]

/-- A word that decodes to an apply operation is that operation's launch word (30_encoding.md R87). -/
theorem eq_launchWord_of_decode {w : Word} {v : Variant} {chk : Bool}
    (h : decode w = Instr.ofVariant v chk) : w = launchWord v chk := by
  unfold decode at h
  split at h
  case isTrue => cases v <;> cases h
  case isFalse hstart =>
    split at h
    case isTrue => cases v <;> cases h
    case isFalse hrsv =>
      split at h
      case h_2 => cases v <;> cases h
      case h_1 u hu =>
        obtain ⟨rfl, rfl⟩ := Instr.ofVariant_inj.1 h
        have hw := cmd_fields w
        rw [of_not_not hrsv, variantOfWsel_eq_some hu, (Bool.not_eq_false _).mp hstart] at hw
        exact hw.symm

/-- The decoder reads back what the encoder writes, for every command (30_encoding.md R86, R87). -/
theorem decode_encode_of_wf {i : Instr} (h : i.wf = true) : decode (encode i) = i := by
  cases i with
  | applyScalar16 chk => cases chk <;> decide
  | applyComplex32 chk => cases chk <;> decide
  | applyComplex64 chk => cases chk <;> decide
  | nop rest =>
    have hstart : cmdStart (encode (.nop rest)) = false := Laws.StartBit.nop rest
    have hrest : (encode (.nop rest)).extractLsb' 1 31 = rest := BitVec.extractLsb'_append_eq_left
    rw [decode, if_pos hstart, hrest]
  | reservedWsel3 chk => cases chk <;> decide
  | reservedRsv rsv low =>
    have hstart : cmdStart (encode (.reservedRsv rsv low)) = true := Laws.StartBit.reservedRsv rsv low
    have hrsv : cmdRsv (encode (.reservedRsv rsv low)) = rsv :=
      (BitVec.extractLsb'_append_eq_of_le (by decide)).trans BitVec.extractLsb'_append_eq_left
    have hlow : (encode (.reservedRsv rsv low)).extractLsb' 1 3 = low :=
      (BitVec.extractLsb'_append_eq_of_le (by decide)).trans BitVec.extractLsb'_append_eq_right
    rw [decode, if_neg (by simp [hstart]), hrsv, if_pos (by simpa [Instr.wf] using h), hlow]

/-- The bytes of a word, put together lowest first, are the word (20_memory.md R58). -/
theorem decodeBytes_wordBytes (w : Word) : decodeBytes (wordBytes w) = .ok (decode w, []) := by
  have hw : w.extractLsb' 24 8 ++ w.extractLsb' 16 8 ++ w.extractLsb' 8 8 ++ w.extractLsb' 0 8 = w := by
    rw [BitVec.extractLsb'_append_extractLsb'_eq_extractLsb' (show 24 = 16 + 8 from rfl),
      BitVec.extractLsb'_append_extractLsb'_eq_extractLsb' (show 16 = 8 + 8 from rfl),
      BitVec.extractLsb'_append_extractLsb'_eq_extractLsb' (show 8 = 0 + 8 from rfl)]
    exact BitVec.extractLsb'_eq_self
  simp only [wordBytes, decodeBytes, hw]

/-! ### What an engine step leaves alone -/

/-- From `s` to `t` the engine was at work on one operation: the command, the operand registers, the
loans and the surroundings are the same (10_state.md R22, R33). -/
def sameOperation (s t : State) : Prop :=
  t.eng.cmd = s.eng.cmd ∧ sameOperands s.eng t.eng ∧ t.loans = s.loans ∧ sameSurroundings s t

theorem sameOperation.refl (s : State) : sameOperation s s :=
  ⟨rfl, .refl _, rfl, rfl, rfl, rfl, rfl, rfl⟩

theorem sameOperation.trans {s t u : State} (h : sameOperation s t) (h' : sameOperation t u) :
    sameOperation s u := by
  obtain ⟨hcmd, hops, hloans, hi, hr, hs, hd, hp⟩ := h
  obtain ⟨hcmd', hops', hloans', hi', hr', hs', hd', hp'⟩ := h'
  exact ⟨hcmd'.trans hcmd, hops.trans hops', hloans'.trans hloans,
    hi'.trans hi, hr'.trans hr, hs'.trans hs, hd'.trans hd, hp'.trans hp⟩

theorem sameOperation_atEntry (s : State) : sameOperation s (atEntry s) := by
  unfold atEntry
  split <;> exact .refl _

theorem sameOperation_exchangeDone (v : Variant) (s : State) :
    sameOperation s (exchangeDone v s) := by
  unfold exchangeDone
  split <;> exact .refl _

@[simp] theorem atEntry_mem (s : State) : (atEntry s).mem = s.mem := by
  unfold atEntry
  split <;> rfl

@[simp] theorem atEntry_status (s : State) : (atEntry s).eng.status = s.eng.status := by
  unfold atEntry
  split <;> rfl

@[simp] theorem atEntry_phase (s : State) : (atEntry s).eng.phase = s.eng.phase := by
  unfold atEntry
  split <;> rfl

@[simp] theorem putB_mem (v : Variant) (s : State) :
    (putB v s).mem = setBufElem v s.eng s.mem (sideB v s.eng) s.eng.tmp.t0 := by
  unfold putB exchangeDone
  split <;> rfl

@[simp] theorem putB_status (v : Variant) (s : State) : (putB v s).eng.status = s.eng.status := by
  unfold putB exchangeDone
  split <;> rfl

@[simp] theorem putB_busy (v : Variant) (s : State) : (putB v s).busy = s.busy := by
  unfold putB exchangeDone
  split <;> rfl

theorem validateStep_sameOperation {v : Variant} {s t : State} (h : validateStep v s = .next t) :
    sameOperation s t := by
  obtain ⟨-, ⟨-, rfl⟩ | ⟨-, -, rfl⟩ | ⟨-, -, rfl⟩⟩ := validateStep_next h <;>
    exact (sameOperation_atEntry s).trans (.refl _)

theorem permuteStep_sameOperation {v : Variant} {s t : State} (h : permuteStep v s = .next t) :
    sameOperation s t := by
  obtain ⟨-, -, rfl⟩ | ⟨-, -, -, rfl⟩ | ⟨-, -, rfl⟩ | ⟨-, -, rfl⟩ | ⟨-, -, rfl⟩ | ⟨-, -, -, rfl⟩ |
    ⟨-, -, -, rfl⟩ := permuteStep_next h
  any_goals exact .refl _
  exact sameOperation.trans (.refl _) (sameOperation_exchangeDone v
    ((s.setMem (setBufElem v s.eng s.mem (sideB v s.eng) s.eng.tmp.t0)).log (.writeElem (sideB v s.eng))))

theorem engineStep_sameOperation {s t : State} (h : engineStep s = .next t) : sameOperation s t := by
  obtain ⟨-, rfl⟩ | ⟨v, -, -, h⟩ | ⟨v, -, -, h⟩ := engineStep_next h
  · exact .refl _
  · exact validateStep_sameOperation h
  · exact permuteStep_sameOperation h

theorem engineRun_sameOperation {s t : State} {f : Nat} (h : engineRun f s = .next t) :
    sameOperation s t :=
  engineRun_keeps (P := sameOperation s) (fun _ _ hs _ h => hs.trans (engineStep_sameOperation h))
    (.refl s) h

theorem runUnlessScheduled_next {s t : State} (h : runUnlessScheduled s = .next t) :
    ∃ f, engineRun f s = .next t := by
  unfold runUnlessScheduled at h
  split at h
  · exact ⟨_, h⟩
  · exact ⟨0, h⟩

/-- An accepted launch completes at once, ends with an error at once, or puts the engine to work. -/
theorem afterAccept_cases {v : Variant} {chk : Bool} {s t : State} (hb : s.busy = false)
    (h : afterAccept v chk (accept v chk s) = .next t) :
    t = complete (accept v chk s) ∨ (∃ code, t = raiseErr code 0#17 (accept v chk s)) ∨
      (launchRuns v chk s ∧ ∃ f, engineRun f (accept v chk s) = .next t) := by
  obtain ⟨-, rfl⟩ | ⟨-, -, rfl⟩ | ⟨-, -, -, -, rfl⟩ | ⟨-, -, -, -, -, rfl⟩ |
    ⟨hn, hal, hev, hlen, hsp, hin, hrun⟩ := afterAccept_next h
  · exact .inl rfl
  · exact .inr (.inl ⟨_, rfl⟩)
  · exact .inr (.inl ⟨_, rfl⟩)
  · exact .inr (.inl ⟨_, rfl⟩)
  · exact .inr (.inr ⟨⟨hb, hn, hal, hev, hlen, hsp, hin⟩, runUnlessScheduled_next hrun⟩)

theorem afterAccept_sameOperation {v : Variant} {chk : Bool} {s t : State} (hb : s.busy = false)
    (h : afterAccept v chk (accept v chk s) = .next t) : sameOperation (accept v chk s) t := by
  obtain rfl | ⟨code, rfl⟩ | ⟨-, f, hf⟩ := afterAccept_cases hb h
  · exact .refl _
  · exact .refl _
  · exact engineRun_sameOperation hf

/-! ### What one step does -/

/-- The engine works, or the outside world has its turn: with nothing to do, or with its next access.
Beside them a turn may leave the schedule. -/
theorem step_cases {s t : State} (h : step s = .next t) :
    (∃ turns f, s.busy = true ∧ engineRun f { s with sched := turns } = .next t) ∨
    (∃ turns, s.inputs = [] ∧ t = { s with sched := turns }) ∨
    (∃ x rest turns, s.inputs = x :: rest ∧
      hostAccess x { s with inputs := rest, sched := turns } = .next t) := by
  obtain ⟨hb, -, hrun⟩ | ⟨turns, hb, -, hstep⟩ | ⟨turns, -, -, hhost⟩ | ⟨-, hhost⟩ := step_next h
  · exact .inl ⟨s.sched, _, hb, hrun⟩
  · exact .inl ⟨turns, 1, hb, engineRun_step (s := { s with sched := turns }) hb hstep 0⟩
  · obtain ⟨hi, rfl⟩ | ⟨x, rest, hi, ha⟩ := hostTurn_next hhost
    · exact .inr (.inl ⟨turns, hi, rfl⟩)
    · exact .inr (.inr ⟨x, rest, turns, hi, ha⟩)
  · obtain ⟨hi, rfl⟩ | ⟨x, rest, hi, ha⟩ := hostTurn_next hhost
    · exact .inr (.inl ⟨t.sched, hi, rfl⟩)
    · exact .inr (.inr ⟨x, rest, s.sched, hi, ha⟩)

@[simp] theorem hostPoll_eng (s : State) : (hostPoll s).eng = s.eng := by
  unfold hostPoll
  split <;> rfl

@[simp] theorem hostPoll_mem (s : State) : (hostPoll s).mem = s.mem := by
  unfold hostPoll
  split <;> rfl

@[simp] theorem hostPoll_platform (s : State) : (hostPoll s).platform = s.platform := by
  unfold hostPoll
  split <;> rfl

theorem hostPoll_loans {s : State} (h : s.busy = true) : (hostPoll s).loans = s.loans := by
  rw [hostPoll_busy h]
  simp [h]

theorem hostRead_loans_busy (r : Reg) {s : State} (h : s.busy = true) :
    (hostRead r s).loans = s.loans := by simp [h]

@[simp] theorem applyReset_eng (s : State) : (applyReset s).eng = Engine.reset := by
  unfold applyReset
  repeat' split
  all_goals rfl

/-- What one access of the outside world does to the engine's registers: nothing, the rejection of a
reserved command, the write of a register, a reset, or an accepted launch. -/
theorem hostAccess_eng {x : Input} {s t : State} (h : hostAccess x s = .next t) :
    t.eng = s.eng ∨
    (s.busy = false ∧ t = rejectMode s) ∨
    (∃ r w, s.busy = false ∧ t.eng = s.eng.writeReg r w) ∨
    (x = .reset ∧ t.eng = Engine.reset) ∨
    (∃ w v chk, x = .regWrite 0 4 w ∧ decode w = Instr.ofVariant v chk ∧ s.busy = false ∧
      afterAccept v chk (accept v chk s) = .next t) := by
  obtain ⟨w, rfl, he⟩ | ⟨-, -, -, -, -, rfl⟩ | ⟨r, w, -, -, hb, rfl⟩ | ⟨r, -, rfl⟩ | ⟨-, rfl⟩ |
    ⟨_, _, -, -, -, -, -, rfl⟩ | ⟨_, _, -, rfl⟩ | ⟨rfl, rfl⟩ := hostAccess_next h
  · obtain ⟨rfl, -⟩ | ⟨hb, -, -, rfl⟩ | ⟨v, chk, hd, hb, ha⟩ := exec_next he
    · exact .inl rfl
    · exact .inr (.inl ⟨hb, rfl⟩)
    · exact .inr (.inr (.inr (.inr ⟨w, v, chk, rfl, hd, hb, ha⟩)))
  · exact .inl rfl
  · exact .inr (.inr (.inl ⟨r, w, hb, rfl⟩))
  · exact .inl rfl
  · exact .inl (hostPoll_eng s)
  · exact .inl rfl
  · exact .inl rfl
  · exact .inr (.inr (.inr (.inl ⟨rfl, applyReset_eng s⟩)))

/-! ### `STATUS` (10_state.md R32) -/

theorem statusOk_congr {e e' : Engine} (hstatus : e'.status = e.status) (hbusy : e'.busy = e.busy)
    (h : statusOk e) : statusOk e' := by
  rw [statusOk, hstatus, hbusy]
  exact h

theorem statusOk_of_failed {e : Engine} {code : ErrCode} (hstatus : e.status = .failed code)
    (hbusy : e.busy = false) : statusOk e := by
  simp [statusOk, hstatus, hbusy]

theorem statusOk_reset : statusOk Engine.reset := ⟨nofun, nofun⟩

theorem statusOk_accept (v : Variant) (chk : Bool) (s : State) : statusOk (accept v chk s).eng := by
  simp [statusOk]

theorem statusOk_complete {s : State} (hb : s.busy = true) (h : statusOk s.eng) :
    statusOk (complete s).eng := by
  obtain ⟨hbusy, -⟩ := h
  obtain ⟨-, herr⟩ := hbusy hb
  exact ⟨nofun, fun _ => herr⟩

@[simp] theorem Engine.writeReg_cmd (e : Engine) (r : Reg) (w : Word) : (e.writeReg r w).cmd = e.cmd := by
  cases r <;> rfl

@[simp] theorem Engine.writeReg_status (e : Engine) (r : Reg) (w : Word) :
    (e.writeReg r w).status = e.status := by
  cases r <;> rfl

@[simp] theorem Engine.writeReg_phase (e : Engine) (r : Reg) (w : Word) :
    (e.writeReg r w).phase = e.phase := by
  cases r <;> rfl

@[simp] theorem Engine.writeReg_stage (e : Engine) (r : Reg) (w : Word) :
    (e.writeReg r w).stage = e.stage := by
  cases r <;> rfl

@[simp] theorem Engine.writeReg_tmp (e : Engine) (r : Reg) (w : Word) :
    (e.writeReg r w).tmp = e.tmp := by
  cases r <;> rfl

@[simp] theorem Engine.writeReg_busy (e : Engine) (r : Reg) (w : Word) :
    (e.writeReg r w).busy = e.busy := by
  rw [Engine.busy, Engine.writeReg_phase, Engine.busy]

/-- A step of a busy engine goes on with `STATUS` as it was, completes, or reports an error. -/
theorem engineStep_status {s t : State} (hb : s.busy = true) (h : engineStep s = .next t) :
    (t.busy = true ∧ t.eng.status = s.eng.status) ∨ t = complete s ∨
      ∃ code cur u, t = raiseErr code cur u := by
  obtain ⟨hp, -⟩ | ⟨v, hp, -, h⟩ | ⟨v, hp, -, h⟩ := engineStep_next h
  · rw [(State.busy_false_iff s).2 hp] at hb
    cases hb
  · obtain ⟨-, ⟨-, rfl⟩ | ⟨-, -, rfl⟩ | ⟨-, -, rfl⟩⟩ := validateStep_next h
    · exact .inr (.inr ⟨_, _, _, rfl⟩)
    · exact .inl ⟨rfl, atEntry_status s⟩
    · refine .inl ⟨?_, atEntry_status s⟩
      show ((atEntry s).eng.phase != .idle) = true
      rw [atEntry_phase]
      exact hb
  · obtain ⟨-, -, rfl⟩ | ⟨-, -, -, rfl⟩ | ⟨-, -, rfl⟩ | ⟨-, -, rfl⟩ | ⟨-, -, rfl⟩ | ⟨-, -, -, rfl⟩ |
      ⟨-, -, -, rfl⟩ := permuteStep_next h
    any_goals exact .inl ⟨hb, rfl⟩
    · exact .inr (.inl rfl)
    · exact .inl ⟨(putB_busy v s).trans hb, putB_status v s⟩

theorem engineStep_statusOk {s t : State} (hok : statusOk s.eng) (hb : s.busy = true)
    (h : engineStep s = .next t) : statusOk t.eng := by
  obtain ⟨htb, hst⟩ | rfl | ⟨code, cur, u, rfl⟩ := engineStep_status hb h
  · exact statusOk_congr hst (htb.trans hb.symm) hok
  · exact statusOk_complete hb hok
  · exact statusOk_of_failed rfl rfl

theorem engineRun_statusOk {s t : State} {f : Nat} (hok : statusOk s.eng)
    (h : engineRun f s = .next t) : statusOk t.eng :=
  engineRun_keeps (P := fun s => statusOk s.eng) (fun _ _ => engineStep_statusOk) hok h

theorem afterAccept_statusOk {v : Variant} {chk : Bool} {s t : State} (hb : s.busy = false)
    (h : afterAccept v chk (accept v chk s) = .next t) : statusOk t.eng := by
  have hok := statusOk_accept v chk s
  obtain rfl | ⟨code, rfl⟩ | ⟨-, f, hf⟩ := afterAccept_cases hb h
  · exact statusOk_complete (accept_busy v chk s) hok
  · exact statusOk_of_failed rfl rfl
  · exact engineRun_statusOk hok hf

theorem hostAccess_statusOk {x : Input} {s t : State} (hok : statusOk s.eng)
    (h : hostAccess x s = .next t) : statusOk t.eng := by
  obtain he | ⟨hb, rfl⟩ | ⟨r, w, -, he⟩ | ⟨-, he⟩ | ⟨w, v, chk, -, -, hb, ha⟩ := hostAccess_eng h
  · exact he ▸ hok
  · exact statusOk_of_failed rfl hb
  · rw [he]
    exact statusOk_congr (by simp) (by simp) hok
  · exact he ▸ statusOk_reset
  · exact afterAccept_statusOk hb ha

/-! ### What a step does to `CMD`, `BUSY` and `STATUS` -/

/-- Settles O13: the engine's work keeps `CMD`, acceptance stores the launch word, and the other accesses
leave it alone. -/
theorem cmdChangesOnlyAtAnAcceptedLaunch : Obligations.CmdChangesOnlyAtAnAcceptedLaunch := by
  intro s t h
  obtain ⟨turns, f, -, hrun⟩ | ⟨turns, -, rfl⟩ | ⟨x, rest, turns, hx, ha⟩ := step_cases h
  · obtain ⟨hcmd, -⟩ := engineRun_sameOperation hrun
    exact .inl hcmd
  · exact .inl rfl
  obtain he | ⟨-, rfl⟩ | ⟨r, w, -, he⟩ | ⟨rfl, he⟩ | ⟨w, v, chk, rfl, hd, hb, ha⟩ := hostAccess_eng ha
  · exact .inl (by rw [he])
  · exact .inl rfl
  · exact .inl (by rw [he, Engine.writeReg_cmd])
  · exact .inr (.inr ⟨rest, hx, by rw [he]; rfl⟩)
  · obtain ⟨hcmd, -⟩ := afterAccept_sameOperation hb ha
    refine .inr (.inl ⟨w, rest, v, chk, hb, hx, hd, ?_⟩)
    rw [hcmd, accept_cmd, eq_launchWord_of_decode hd]

/-- Settles O14: of all that the outside world can do to an idle engine, only an accepted launch sets
`BUSY`. -/
theorem onlyALaunchWriteStartsAnOperation : Obligations.OnlyALaunchWriteStartsAnOperation := by
  intro s t h hidle hbusy
  have hsame : t.busy ≠ s.busy := by simp [hidle, hbusy]
  obtain ⟨turns, f, hb, -⟩ | ⟨turns, -, rfl⟩ | ⟨x, rest, turns, hx, ha⟩ := step_cases h
  · exact absurd hb (by simp [hidle])
  · exact absurd rfl hsame
  obtain he | ⟨-, rfl⟩ | ⟨r, w, -, he⟩ | ⟨-, he⟩ | ⟨w, v, chk, rfl, hd, -⟩ := hostAccess_eng ha
  · exact absurd (congrArg Engine.busy he) hsame
  · exact absurd rfl hsame
  · exact absurd ((congrArg Engine.busy he).trans (Engine.writeReg_busy ..)) hsame
  · exact absurd ((congrArg Engine.busy he).trans hidle.symm) hsame
  · exact ⟨w, rest, v, chk, hx, hd⟩

/-- Settles O44: the reset values meet the implications of R32, and the engine's work and every access of
the outside world keep them. -/
theorem statusInvariantsHold : Obligations.StatusInvariantsHold := by
  refine ⟨statusOk_reset, fun s t hok h => ?_⟩
  obtain ⟨turns, f, -, hrun⟩ | ⟨turns, -, rfl⟩ | ⟨x, rest, turns, -, ha⟩ := step_cases h
  · exact engineRun_statusOk (s := { s with sched := turns }) hok hrun
  · exact hok
  · exact hostAccess_statusOk (s := { s with inputs := rest, sched := turns }) hok ha

/-! ### What holds while an operation runs -/

theorem oddCount_eq_false {e : Engine} : oddCount e = false ↔ e.count % 2 = 0 := by
  simp [oddCount]

theorem lengthMatches_eq_true {e : Engine} : lengthMatches e = true ↔ e.count = e.tabLen.toNat := by
  simp [lengthMatches]

theorem Engine.count_lt (e : Engine) : e.count < 2 ^ 16 := e.bitRevLen.isLt

section
variable {s t : State} {l : Lease}

theorem Running.variant (h : Running s l) : s.eng.variant = some l.variant :=
  Engine.variant_of_launchWord h.cmd

theorem Running.count_even (h : Running s l) : s.eng.count % 2 = 0 := oddCount_eq_false.1 h.evenLen

theorem Running.count_eq_tabLen (h : Running s l) : s.eng.count = s.eng.tabLen.toNat :=
  lengthMatches_eq_true.1 h.length

/-- The lent buffer is the buffer the operand registers name. -/
theorem Running.lease_span (h : Running s l) : l.span = bufSpan l.variant s.eng :=
  (bufSpan_congr h.operands l.variant).symm

/-- A pair that is begun has both its entries (43_engine_common.md R163 (a)). -/
theorem Permuting.pair_lt_count (hp : Permuting s l) (hr : Running s l)
    (hc : s.eng.cursor.toNat < s.eng.count) : s.eng.cursor.toNat + 1 < s.eng.count := by
  have := hp.even
  have := hr.count_even
  omega

/-! ### What keeps a running operation running -/

theorem spansInSpace_congr {e e' : Engine} (h : sameOperands e e') (v : Variant) :
    spansInSpace v e' = spansInSpace v e := by
  rw [spansInSpace, spansInSpace, bufSpan_congr h, tabSpan_congr h]

theorem spansApart_congr {e e' : Engine} (h : sameOperands e e') (v : Variant) :
    spansApart v e' = spansApart v e := by
  rw [spansApart, spansApart, bufSpan_congr h, tabSpan_congr h]

theorem spansOrdinary_congr {e e' : Engine} (h : sameOperands e e') (v : Variant) (p : Platform) :
    spansOrdinary v p e' = spansOrdinary v p e := by
  rw [spansOrdinary, spansOrdinary, bufSpan_congr h, tabSpan_congr h]

/-- The facts about the operation outlast a change that leaves the operation and the table alone. -/
theorem Running.of_sameRegisters (hr : Running s l) (hcmd : t.eng.cmd = s.eng.cmd)
    (hops : sameOperands s.eng t.eng) (hplat : t.platform = s.platform)
    (htab : ∀ j, j < s.eng.count → tabEntry s.eng t.mem j = tabEntry s.eng s.mem j)
    (hpass : Validating t l ∨ Permuting t l) : Running t l := by
  obtain ⟨hsp, hap, hord⟩ := hr.spans
  exact
    { operands := hr.operands.trans hops
      cmd := hcmd ▸ hr.cmd
      nonzero := (count_congr hops).trans_ne hr.nonzero
      aligned := (aligned_congr hops _).trans hr.aligned
      evenLen := (oddCount_congr hops).trans hr.evenLen
      length := (lengthMatches_congr hops).trans hr.length
      spans := ⟨(spansInSpace_congr hops _).trans hsp, (spansApart_congr hops _).trans hap,
        by rw [hplat]; exact (spansOrdinary_congr hops _ _).trans hord⟩
      lentMem := hr.lentMem
      table := fun j hj => by
        rw [count_congr hops] at hj
        rw [tabEntry_congr hops, htab j hj, hr.table j hj]
      pass := hpass }

/-- In a state of the same engine, `bufferIs` carries over where the elements are the same. -/
theorem bufferIs_of_sameElems {v : Variant} {B : Nat → BitVec 64} (he : t.eng = s.eng)
    (hbuf : ∀ k, k < s.eng.nElem.toNat → bufElem v s.eng t.mem k = bufElem v s.eng s.mem k)
    (h : bufferIs v s B) : bufferIs v t B := by
  intro k hk
  rw [he] at hk ⊢
  rw [hbuf k hk, h k hk]

/-- `bufferIs` speaks of the operand registers and the memory only. -/
theorem bufferIs_of_sameOperands {v : Variant} {B : Nat → BitVec 64} (hops : sameOperands s.eng t.eng)
    (hm : t.mem = s.mem) (h : bufferIs v s B) : bufferIs v t B := by
  have ⟨_, hn, _⟩ := hops
  intro k hk
  rw [hn] at hk
  rw [bufElem_congr hops, hm, h k hk]

/-- In a state of the same engine, the entry held for side `a` is still the table's. -/
theorem holdsA_of_sameEntries {v : Variant} (he : t.eng = s.eng)
    (htab : tabEntry s.eng t.mem s.eng.cursor.toNat = tabEntry s.eng s.mem s.eng.cursor.toNat)
    (h : holdsA v s) : holdsA v t := by
  rw [holdsA, he, htab]
  exact h

/-- In a state of the same engine, the entry held for side `b` is still the table's. -/
theorem holdsB_of_sameEntries {v : Variant} (he : t.eng = s.eng)
    (htab : tabEntry s.eng t.mem (s.eng.cursor.toNat + 1) =
      tabEntry s.eng s.mem (s.eng.cursor.toNat + 1))
    (h : holdsB v s) : holdsB v t := by
  rw [holdsB, he, htab]
  exact h

theorem beforeExchange_congr (he : t.eng = s.eng) : beforeExchange t l = beforeExchange s l := by
  rw [beforeExchange, beforeExchange, he]

theorem allInRange_mem_congr {v : Variant} {e : Engine} {m m' : Memory}
    (htab : ∀ j, j < e.count → tabEntry e m' j = tabEntry e m j) (h : allInRange v e m = true) :
    allInRange v e m' = true :=
  allInRange_iff.2 fun j hj => by
    rw [entryInRange, htab j hj]
    exact allInRange_iff.1 h j hj

section
variable (he : t.eng = s.eng)
  (htab : ∀ j, j < s.eng.count → tabEntry s.eng t.mem j = tabEntry s.eng s.mem j)
  (hbuf : ∀ k, k < s.eng.nElem.toNat →
    bufElem l.variant s.eng t.mem k = bufElem l.variant s.eng s.mem k)
include he htab hbuf

theorem Validating.of_sameViews (hv : Validating s l) : Validating t l where
  phase := he ▸ hv.phase
  checked := he ▸ hv.checked
  stage := he ▸ hv.stage
  passed := by
    rw [he]
    intro hg j hj
    obtain ⟨h, -⟩ | ⟨-, hc⟩ := hv.stage
    · rw [h] at hg
      cases hg
    · rw [entryInRange, htab j (by omega)]
      exact hv.passed hg j hj
  buffer := bufferIs_of_sameElems he hbuf hv.buffer

theorem Permuting.of_sameViews (hp : Permuting s l) (hr : Running s l) : Permuting t l where
  phase := he ▸ hp.phase
  inRange := by rw [he]; exact allInRange_mem_congr htab hp.inRange
  even := he ▸ hp.even
  bounded := he ▸ hp.bounded
  progress := by
    have hB {B} : bufferIs l.variant s B → bufferIs l.variant t B := bufferIs_of_sameElems he hbuf
    have ha (hc : s.eng.cursor.toNat < s.eng.count) : holdsA l.variant s → holdsA l.variant t :=
      holdsA_of_sameEntries he (htab _ hc)
    have hb (hc : s.eng.cursor.toNat < s.eng.count) : holdsB l.variant s → holdsB l.variant t :=
      holdsB_of_sameEntries he (htab _ (hp.pair_lt_count hr hc))
    have h := hp.progress
    unfold pairProgress at h ⊢
    rw [beforeExchange_congr he, he]
    cases hg : s.eng.stage <;> simp only [hg] at h ⊢
    case readA => exact hB h
    case readB =>
      obtain ⟨hc, hhA, hbufIs⟩ := h
      exact ⟨hc, ha hc hhA, hB hbufIs⟩
    case loadA =>
      obtain ⟨hc, hhA, hhB, hbufIs⟩ := h
      exact ⟨hc, ha hc hhA, hb hc hhB, hB hbufIs⟩
    all_goals
      obtain ⟨hc, hhA, hhB, hbufIs, ht⟩ := h
      exact ⟨hc, ha hc hhA, hb hc hhB, hB hbufIs, ht⟩

/-- An operation runs on where the engine, the platform, the table and the buffer are the same. -/
theorem Running.of_sameViews (hr : Running s l) (hplat : t.platform = s.platform) : Running t l :=
  hr.of_sameRegisters (by rw [he]) (by rw [he]; exact .refl _) hplat htab
    (hr.pass.imp (.of_sameViews he htab hbuf) (.of_sameViews he htab hbuf · hr))

end

end

section
variable {s t : State} {l : Lease}

/-! ### The validation pass keeps the invariant -/

/-- The entries before the one to be tested are in range. -/
theorem Validating.before_atEntry (hv : Validating s l) :
    ∀ j, j < (atEntry s).eng.cursor.toNat → entryInRange l.variant s.eng s.mem j = true := by
  intro j hj
  obtain ⟨hg, hcur⟩ | ⟨hg, hc⟩ := hv.stage
  · simp [atEntry, hg, hcur] at hj
  · have := s.eng.count_lt
    simp only [atEntry, hg, if_true, setCursor_cursor, BitVec.toNat_add, BitVec.toNat_ofNat] at hj
    exact hv.passed hg j (by omega)

/-- A step of the validation pass reports an error, or the engine goes on in one of the passes. -/
theorem Validating.step (hv : Validating s l) (h : validateStep l.variant s = .next t) :
    (∃ code cur u, u.mem = s.mem ∧ t = raiseErr code cur u) ∨
    (t.mem = s.mem ∧ (Validating t l ∨ Permuting t l)) := by
  obtain ⟨hcmd, hops, -⟩ := sameOperation_atEntry s
  have hcount := count_congr hops
  have hbuffer := bufferIs_of_sameOperands hops (atEntry_mem s) hv.buffer
  have hupto (hin : entryInRange l.variant s.eng s.mem (atEntry s).eng.cursor.toNat = true) (j : Nat)
      (hj : j ≤ (atEntry s).eng.cursor.toNat) :
      entryInRange l.variant (atEntry s).eng (atEntry s).mem j = true := by
    rw [entryInRange_congr hops, atEntry_mem]
    obtain hlt | rfl := Nat.lt_or_eq_of_le hj
    · exact hv.before_atEntry j hlt
    · exact hin
  obtain ⟨-, ⟨-, rfl⟩ | ⟨hin, hlast, rfl⟩ | ⟨hin, hmore, rfl⟩⟩ := validateStep_next h
  · exact .inl ⟨_, _, (atEntry s).log (.readEntry _), atEntry_mem s, rfl⟩
  · refine .inr ⟨atEntry_mem s, .inr ?_⟩
    refine ⟨rfl, allInRange_iff.2 fun j hj => ?_, rfl, Nat.zero_le _, ?_⟩
    · have hj' : j < (atEntry s).eng.count := hj
      exact hupto hin j (by omega)
    · show bufferIs l.variant (atEntry s) (bufAfter l.variant l.eng l.mem ((0#17).toNat / 2))
      simpa using hbuffer
  · refine .inr ⟨atEntry_mem s, .inl ?_⟩
    refine ⟨(atEntry_phase s).trans hv.phase, ?_, .inr ⟨rfl, ?_⟩, fun _ => hupto hin, hbuffer⟩
    · show cmdChk (atEntry s).eng.cmd = true
      rw [hcmd, hv.checked]
    · show (atEntry s).eng.cursor.toNat + 1 < (atEntry s).eng.count
      omega

/-! ### The permute pass keeps the invariant -/

/-- Every value the routine leaves in a lent buffer has W bits (20_memory.md R51). -/
theorem beforeExchange_lt (s : State) (l : Lease) (x : Nat) :
    (beforeExchange s l x).toNat < 2 ^ l.variant.width := by
  obtain ⟨i, hi⟩ := exchangeComponents_value l.variant.group
    (normIndex l.variant (tabEntry l.eng l.mem (2 * (s.eng.cursor.toNat / 2)))).toNat
    (normIndex l.variant (tabEntry l.eng l.mem (2 * (s.eng.cursor.toNat / 2) + 1))).toNat
    s.eng.tmp.k.toNat (bufAfter l.variant l.eng l.mem (s.eng.cursor.toNat / 2)) x
  obtain ⟨j, hj⟩ := applyPairs_value l.variant.shift l.variant.group
    (bufElem l.variant l.eng l.mem) (tabEntry l.eng l.mem) (s.eng.cursor.toNat / 2) i
  rw [beforeExchange, partDone, hi, bufAfter, hj]
  exact bufElem_lt ..

theorem holdsA_setMem {v : Variant} {m : Memory}
    (htab : tabEntry s.eng m s.eng.cursor.toNat = tabEntry s.eng s.mem s.eng.cursor.toNat)
    (h : holdsA v s) : holdsA v (s.setMem m) :=
  holdsA_of_sameEntries (s := s) (t := s.setMem m) rfl htab h

theorem holdsB_setMem {v : Variant} {m : Memory}
    (htab : tabEntry s.eng m (s.eng.cursor.toNat + 1) = tabEntry s.eng s.mem (s.eng.cursor.toNat + 1))
    (h : holdsB v s) : holdsB v (s.setMem m) :=
  holdsB_of_sameEntries (s := s) (t := s.setMem m) rfl htab h

/-- The buffer after the write of one of its elements. -/
theorem bufferIs_setBufElem {v : Variant} {B : Nat → BitVec 64} {k : Nat} {x : BitVec 64}
    (hm : s.mem.wf) (ha : elemAddr v s.eng k + v.bytes ≤ Config.addrSpace)
    (hx : x.toNat < 2 ^ v.width) (h : bufferIs v s B) :
    bufferIs v (s.setMem (setBufElem v s.eng s.mem k x)) (fun j => if j = k then x else B j) := by
  intro j hj
  rw [setMem_eng, setMem_mem, bufElem_setBufElem hm ha hx, h j hj]

/-- The engine's write of a buffer element leaves the table alone (20_memory.md R62). -/
theorem Running.table_setBufElem (hr : Running s l) (hm : s.mem.wf) {k : Nat} (x : BitVec 64)
    (hk : k < s.eng.nElem.toNat) (j : Nat) (hj : j < s.eng.count) :
    tabEntry s.eng (setBufElem l.variant s.eng s.mem k x) j = tabEntry s.eng s.mem j := by
  obtain ⟨hsp, hap, -⟩ := hr.spans
  exact tabEntry_setBufElem x hm hsp hap hk (hr.count_eq_tabLen ▸ hj)

/-- The exchange in progress is the one the routine makes next (43_engine_common.md R145, R150). -/
theorem Permuting.next_component (hp : Permuting s l) (hr : Running s l)
    (hc : s.eng.cursor.toNat < s.eng.count) (hA : holdsA l.variant s) (hB : holdsB l.variant s) :
    partDone l (s.eng.cursor.toNat / 2) (s.eng.tmp.k.toNat + 1) =
      swapElems (beforeExchange s l) (sideA l.variant s.eng) (sideB l.variant s.eng) := by
  obtain ⟨hrawA, ha⟩ := hA
  obtain ⟨hrawB, hb, -⟩ := hB
  have hcur : 2 * (s.eng.cursor.toNat / 2) = s.eng.cursor.toNat := by
    have := hp.even
    omega
  rw [partDone, exchangeComponents_succ, hcur, ← hr.table _ hc,
    ← hr.table _ (hp.pair_lt_count hr hc), ← hrawA, ← ha, ← hrawB, ← hb, beforeExchange, partDone,
    hcur, ← hr.table _ hc, ← hr.table _ (hp.pair_lt_count hr hc), ← hrawA, ← ha, ← hrawB, ← hb]
  rfl

/-- The two writes of an exchange, `t1` to side `a` and then `t0` to side `b`, are a swap
(43_engine_common.md R149), also of a side with itself (R153). -/
theorem swapElems_eq_writes {α : Type} (B : Nat → α) (a b : Nat) :
    (fun j => if j = b then B a else if j = a then B b else B j) = swapElems B a b := by
  rw [swapElems_comm]
  rfl

/-- With the exchange made in memory, the engine goes on to the next component or to the next pair. -/
theorem Permuting.after_exchangeDone (hp : Permuting s l) (hr : Running s l)
    (hc : s.eng.cursor.toNat < s.eng.count) (hA : holdsA l.variant s) (hB : holdsB l.variant s)
    {m : Memory} (htab : ∀ j, j < s.eng.count → tabEntry s.eng m j = tabEntry s.eng s.mem j)
    (hbuf : bufferIs l.variant (s.setMem m)
      (partDone l (s.eng.cursor.toNat / 2) (s.eng.tmp.k.toNat + 1))) (x : Access) :
    Permuting (exchangeDone l.variant ((s.setMem m).log x)) l := by
  have hpair := hp.pair_lt_count hr hc
  have heven := hp.even
  have hin : allInRange l.variant s.eng m = true := allInRange_mem_congr htab hp.inRange
  have hA' := holdsA_setMem (htab _ hc) hA
  obtain ⟨hrawB, hb, hk⟩ := holdsB_setMem (htab _ hpair) hB
  unfold exchangeDone
  split
  case isTrue hnext =>
    have hk1 : (s.eng.tmp.k + 1#1).toNat = s.eng.tmp.k.toNat + 1 := by
      have hg := Variant.group_le l.variant
      have hnext' : s.eng.tmp.k.toNat + 1 < l.variant.group := hnext
      rw [BitVec.toNat_add, BitVec.toNat_ofNat]
      omega
    refine ⟨hp.phase, hin, heven, hp.bounded, ?_⟩
    show s.eng.cursor.toNat < s.eng.count ∧ _ ∧ _ ∧
      bufferIs l.variant (s.setMem m)
        (partDone l (s.eng.cursor.toNat / 2) (s.eng.tmp.k + 1#1).toNat)
    rw [hk1]
    exact ⟨hc, hA', ⟨hrawB, hb, hk1.trans_lt hnext⟩, hbuf⟩
  case isFalse hlast =>
    have hcur : (s.eng.cursor + 2#17).toNat = s.eng.cursor.toNat + 2 := by
      have hcount := s.eng.count_lt
      rw [BitVec.toNat_add, BitVec.toNat_ofNat]
      omega
    have hall : s.eng.tmp.k.toNat + 1 = l.variant.group := Nat.le_antisymm hk (Nat.not_lt.1 hlast)
    refine ⟨hp.phase, hin, ?_, ?_, ?_⟩
    · show (s.eng.cursor + 2#17).toNat % 2 = 0
      omega
    · show (s.eng.cursor + 2#17).toNat ≤ s.eng.count
      omega
    · show bufferIs l.variant (s.setMem m)
        (bufAfter l.variant l.eng l.mem ((s.eng.cursor + 2#17).toNat / 2))
      rw [hcur, Nat.add_div_right _ (by decide), bufAfter_succ]
      rw [hall] at hbuf
      exact hbuf

/-- A step of the permute pass completes the operation, or the engine goes on in the pass, with the
table as it was. -/
theorem Permuting.step (hp : Permuting s l) (hr : Running s l) (hm : s.mem.wf)
    (h : permuteStep l.variant s = .next t) :
    t = complete s ∨
    (t.mem.wf ∧ (∀ j, j < s.eng.count → tabEntry s.eng t.mem j = tabEntry s.eng s.mem j) ∧
      Permuting t l) := by
  have hprog := hp.progress
  obtain ⟨-, -, rfl⟩ | ⟨hg, hc, -, rfl⟩ | ⟨hg, -, rfl⟩ | ⟨hg, hlt, rfl⟩ | ⟨hg, hlt, rfl⟩ |
    ⟨hg, hlt, ha, rfl⟩ | ⟨hg, hlt, ha, rfl⟩ := permuteStep_next h
  · exact .inl rfl
  · obtain hg | hg | hg := hg <;> simp only [pairProgress, hg] at hprog
    exact .inr ⟨hm, fun _ _ => rfl, hp.phase, hp.inRange, hp.even, hp.bounded,
      hc, ⟨rfl, rfl⟩, hprog⟩
  · simp only [pairProgress, hg] at hprog
    obtain ⟨hc, hA, hbuf⟩ := hprog
    exact .inr ⟨hm, fun _ _ => rfl, hp.phase, hp.inRange, hp.even, hp.bounded,
      hc, hA, ⟨rfl, rfl, Variant.group_pos l.variant⟩, hbuf⟩
  · simp only [pairProgress, hg] at hprog
    obtain ⟨hc, hA, hB, hbuf⟩ := hprog
    exact .inr ⟨hm, fun _ _ => rfl, hp.phase, hp.inRange, hp.even, hp.bounded,
      hc, hA, hB, hbuf, hbuf _ hlt⟩
  · simp only [pairProgress, hg] at hprog
    obtain ⟨hc, hA, hB, hbuf, ht0⟩ := hprog
    exact .inr ⟨hm, fun _ _ => rfl, hp.phase, hp.inRange, hp.even, hp.bounded,
      hc, hA, hB, hbuf, ht0, hbuf _ hlt⟩
  · simp only [pairProgress, hg] at hprog
    obtain ⟨hc, hA, hB, hbuf, ht0, ht1⟩ := hprog
    have htab := hr.table_setBufElem hm s.eng.tmp.t1 hlt
    have hw := bufferIs_setBufElem hm ha (ht1 ▸ beforeExchange_lt s l _) hbuf
    have hA' := holdsA_setMem (htab _ hc) hA
    have hB' := holdsB_setMem (htab _ (hp.pair_lt_count hr hc)) hB
    exact .inr ⟨wf_setBufElem _ hm ha, htab, hp.phase, allInRange_mem_congr htab hp.inRange,
      hp.even, hp.bounded, hc, hA', hB', hw, ht0, ht1⟩
  · simp only [pairProgress, hg] at hprog
    obtain ⟨hc, hA, hB, hbuf, ht0, ht1⟩ := hprog
    have htab := hr.table_setBufElem hm s.eng.tmp.t0 hlt
    have hw := bufferIs_setBufElem hm ha (ht0 ▸ beforeExchange_lt s l _) hbuf
    rw [ht0, ht1, swapElems_eq_writes, ← hp.next_component hr hc hA hB, ← ht0] at hw
    rw [putB_mem]
    exact .inr ⟨wf_setBufElem _ hm ha, htab, hp.after_exchangeDone hr hc hA hB htab hw _⟩

end

/-! ### The invariant -/

section
variable {s t : State} {l : Lease} {older : List Lease}

theorem Running.busy (h : Running s l) : s.busy = true := by
  obtain hp | hp := h.pass <;> simp [State.busy, Engine.busy, hp.phase]

theorem Inv.mem_wf (hi : Inv s) : s.mem.wf := hi.1

theorem Inv.status_ok (hi : Inv s) : statusOk s.eng := hi.2.1

theorem Inv.of_idle (hm : s.mem.wf) (hok : statusOk s.eng) (hb : s.busy = false)
    (hg : s.eng.stage = .readA) : Inv s :=
  ⟨hm, hok, fun _ => hg, fun hb' => absurd hb' (by simp [hb])⟩

theorem Inv.of_running (hm : s.mem.wf) (hok : statusOk s.eng) (hl : s.loans = l :: older)
    (hr : Running s l) : Inv s :=
  ⟨hm, hok, fun hb => absurd hr.busy (by simp [hb]), fun _ => ⟨l, older, hl, hr⟩⟩

/-- A step of a running operation ends it with the engine at rest, or the operation runs on. -/
theorem Running.step (hr : Running s l) (hm : s.mem.wf) (h : engineStep s = .next t) :
    t.mem.wf ∧ ((t.busy = false ∧ t.eng.stage = .readA) ∨ Running t l) := by
  obtain ⟨hcmd, hops, -, -, -, -, -, hplat⟩ := engineStep_sameOperation h
  obtain ⟨hp, -⟩ | ⟨v, hp, hv, h⟩ | ⟨v, hp, hv, h⟩ := engineStep_next h
  · have hb := hr.busy
    rw [(State.busy_false_iff s).2 hp] at hb
    cases hb
  all_goals
    rw [hr.variant] at hv
    obtain rfl := Option.some.inj hv
    obtain hpass | hpass := hr.pass <;> have hphase := hpass.phase.symm.trans hp
  · obtain ⟨code, cur, u, hu, rfl⟩ | ⟨hmem, hnext⟩ := hpass.step h
    · exact ⟨hu.symm ▸ hm, .inl ⟨rfl, rfl⟩⟩
    · refine ⟨hmem.symm ▸ hm, .inr (hr.of_sameRegisters hcmd hops hplat (fun j _ => ?_) hnext)⟩
      rw [hmem]
  · cases hphase
  · cases hphase
  · obtain rfl | ⟨hm', htab, hnext⟩ := hpass.step hr hm h
    · exact ⟨hm, .inl ⟨rfl, rfl⟩⟩
    · exact ⟨hm', .inr (hr.of_sameRegisters hcmd hops hplat htab (.inr hnext))⟩

theorem engineStep_inv (hi : Inv s) (hb : s.busy = true) (h : engineStep s = .next t) : Inv t := by
  obtain ⟨hm, hok, -, hrun⟩ := hi
  obtain ⟨l, older, hl, hr⟩ := hrun hb
  obtain ⟨-, -, hloans, -⟩ := engineStep_sameOperation h
  have hok' := engineStep_statusOk hok hb h
  obtain ⟨hm', ⟨hb', hg⟩ | hr'⟩ := hr.step hm h
  · exact .of_idle hm' hok' hb' hg
  · exact .of_running hm' hok' (hloans.trans hl) hr'

theorem engineRun_inv {f : Nat} (hi : Inv s) (h : engineRun f s = .next t) : Inv t :=
  engineRun_keeps (P := Inv) (fun _ _ => engineStep_inv) hi h

/-! ### A launch keeps the invariant -/

/-- A launch that puts the engine to work starts an operation at its beginning
(43_engine_common.md R141, R144, R145). -/
theorem running_accept {v : Variant} {chk : Bool} (hm : s.mem.wf) (h : launchRuns v chk s) :
    Running (accept v chk s) { variant := v, eng := (accept v chk s).eng, mem := s.mem } := by
  obtain ⟨-, hn, hal, hev, hlen, hsp, hin⟩ := h
  refine ⟨.refl _, ?_, hn, hal, hev, hlen, hsp, hm, fun _ _ => rfl, ?_⟩
  · rw [accept_cmd, cmdChk_launchWord]
  cases chk
  case true =>
    exact .inl ⟨rfl, cmdChk_launchWord v true, .inl ⟨rfl, rfl⟩, nofun, fun _ _ => rfl⟩
  case false =>
    refine .inr ⟨rfl, ?_, rfl, Nat.zero_le _, ?_⟩
    · exact hin.resolve_left Bool.false_ne_true
    · intro k _
      show _ = bufAfter v s.eng s.mem ((0#17).toNat / 2) k
      rfl

theorem afterAccept_inv {v : Variant} {chk : Bool} (hi : Inv s) (hb : s.busy = false)
    (h : afterAccept v chk (accept v chk s) = .next t) : Inv t := by
  have hm := hi.mem_wf
  have hok := afterAccept_statusOk hb h
  obtain rfl | ⟨code, rfl⟩ | ⟨hruns, f, hf⟩ := afterAccept_cases hb h
  · exact .of_idle hm hok rfl rfl
  · exact .of_idle hm hok rfl rfl
  · exact engineRun_inv (.of_running (s := accept v chk s) hm (statusOk_accept v chk s) rfl
      (running_accept hm hruns)) hf

/-! ### An access of the outside world keeps the invariant -/

/-- A change that leaves the engine, the platform, the table and the buffer alone, and while `BUSY = 1`
the loans. -/
theorem Inv.of_sameEngine (hi : Inv s) (he : t.eng = s.eng) (hplat : t.platform = s.platform)
    (hloans : s.busy = true → t.loans = s.loans) (hm : t.mem.wf)
    (hviews : ∀ l, l ∈ s.loans → Running s l →
      (∀ j, j < s.eng.count → tabEntry s.eng t.mem j = tabEntry s.eng s.mem j) ∧
      ∀ k, k < s.eng.nElem.toNat →
        bufElem l.variant s.eng t.mem k = bufElem l.variant s.eng s.mem k) : Inv t := by
  obtain ⟨-, hok, hrest, hrun⟩ := hi
  have hbusy : t.busy = s.busy := by rw [State.busy, he, State.busy]
  cases hb : s.busy
  case false => exact .of_idle hm (he ▸ hok) (hbusy.trans hb) (he ▸ hrest hb)
  case true =>
    obtain ⟨l, older, hl, hr⟩ := hrun hb
    obtain ⟨htab, hbuf⟩ := hviews l (hl ▸ List.mem_cons_self) hr
    exact .of_running hm (he ▸ hok) ((hloans hb).trans hl) (hr.of_sameViews he htab hbuf hplat)

/-- A change of the surroundings alone. -/
theorem Inv.of_sameMemory (hi : Inv s) (he : t.eng = s.eng) (hplat : t.platform = s.platform)
    (hloans : s.busy = true → t.loans = s.loans) (hm : t.mem = s.mem) : Inv t :=
  hi.of_sameEngine he hplat hloans (hm ▸ hi.mem_wf) fun l _ _ => by
    rw [hm]
    exact ⟨fun _ _ => rfl, fun _ _ => rfl⟩

/-- An access that does not overlap a span leaves the bytes of the span alone. -/
theorem read_writeBytes_apart {m : Memory} {addr : Word} {data : List Byte} {b : Span} (hm : m.wf)
    (ha : addr.toNat + data.length ≤ Config.addrSpace)
    (hap : (accessSpan addr data.length).overlaps b = false) {x : Nat} (hlo : b.base ≤ x)
    (hhi : x < b.top) : (m.writeBytes addr.toNat data).read x = m.read x := by
  rw [Memory.read_writeBytes hm ha, if_neg]
  obtain h | h | h | h := overlaps_false_iff.1 hap <;> simp only [accessSpan, Span.top] at h hhi <;> omega

/-- A memory write of another agent that touches neither the lent buffers nor the table in use
(70_reset_and_hazards.md R205, R206). -/
theorem Inv.of_memWrite {addr : Word} {data : List Byte} (hi : Inv s)
    (ha : addr.toNat + data.length ≤ Config.addrSpace)
    (hl : touchesLentBuffer (accessSpan addr data.length) s = false)
    (ht : touchesBusyTable (accessSpan addr data.length) s = false) :
    Inv (s.setMem (s.mem.writeBytes addr.toNat data)) := by
  have hm := hi.mem_wf
  refine hi.of_sameEngine (s := s) rfl rfl (fun _ => rfl) (Memory.wf_writeBytes hm ha)
    fun l hmem hr => ⟨fun j hj => tabEntry_mem_congr fun x hlo hhi => ?_,
      fun k hk => bufElem_mem_congr fun x hlo hhi => ?_⟩
  · obtain ⟨hbase, htop⟩ := entry_in_tabSpan (hr.count_eq_tabLen ▸ hj)
    have hap : (accessSpan addr data.length).overlaps (tabSpan s.eng) = false := by
      simpa [touchesBusyTable, hr.busy] using ht
    exact read_writeBytes_apart hm ha hap (hbase.trans hlo) (hhi.trans_le htop)
  · obtain ⟨hbase, htop⟩ := elem_in_bufSpan (v := l.variant) hk
    have hap := touchesLentBuffer_eq_false.1 hl l hmem
    rw [hr.lease_span] at hap
    exact read_writeBytes_apart hm ha hap (hbase.trans hlo) (hhi.trans_le htop)

/-! ### A reset keeps the invariant -/

/-- The elements that the table of a permuting operation names lie in its buffer
(43_engine_common.md R163 (c)). -/
theorem namedElems_lt (hp : l.permutes = true) {k : Nat} (hk : k ∈ namedElems l) :
    k < l.eng.nElem.toNat := by
  simp only [Lease.permutes, contractHolds, Bool.and_eq_true] at hp
  obtain ⟨-, hin⟩ := hp
  simp only [namedElems, List.mem_flatMap, List.mem_map, List.mem_range] at hk
  obtain ⟨j, hj, c, hc, rfl⟩ := hk
  exact (elemIndex_le_topElem _ _ hc).trans_lt (entryInRange_iff.1 (allInRange_iff.1 hin j hj))

theorem wf_foldl_setBufElem {v : Variant} {e : Engine} (hsp : spansInSpace v e = true)
    (f : Nat → BitVec 64) {ks : List Nat} (hks : ∀ k, k ∈ ks → k < e.nElem.toNat) {m : Memory}
    (hm : m.wf) : (ks.foldl (fun m k => setBufElem v e m k (f k)) m).wf := by
  induction ks generalizing m with
  | nil => exact hm
  | cons k ks ih =>
    obtain ⟨hk, hks⟩ := List.forall_mem_cons.1 hks
    exact ih hks (wf_setBufElem _ hm (elem_in_space hsp hk))

theorem wf_cutShort (hp : l.permutes = true) (hsp : spansInSpace l.variant l.eng = true) (draw : Nat)
    {m : Memory} (hm : m.wf) : (cutShort l draw m).wf :=
  wf_foldl_setBufElem hsp _ (fun _ => namedElems_lt hp) hm

theorem applyReset_wf (hi : Inv s) : (applyReset s).mem.wf := by
  obtain ⟨hm, -, -, hrun⟩ := hi
  unfold applyReset
  split
  case isFalse => exact hm
  case isTrue hb =>
    obtain ⟨l, older, hl, hr⟩ := hrun hb
    obtain ⟨hsp, -⟩ := hr.spans
    simp only [hl]
    split
    case isTrue hp => exact wf_cutShort hp ((spansInSpace_congr hr.operands _).symm.trans hsp) _ hm
    case isFalse => exact hm

theorem applyReset_inv (hi : Inv s) : Inv (applyReset s) := by
  have he := applyReset_eng s
  refine .of_idle (applyReset_wf hi) (he ▸ statusOk_reset) ?_ (by rw [he]; rfl)
  rw [State.busy, he]
  rfl

/-! ### Every step keeps the invariant -/

theorem exec_inv {i : Instr} (hi : Inv s) (h : exec i s = .next t) : Inv t := by
  obtain ⟨rfl, -⟩ | ⟨hb, -, -, rfl⟩ | ⟨v, chk, -, hb, ha⟩ := exec_next h
  · exact hi
  · obtain ⟨hm, -, hrest, -⟩ := hi
    exact .of_idle hm (statusOk_of_failed rfl hb) hb (hrest hb)
  · exact afterAccept_inv hi hb ha

theorem hostAccess_inv {x : Input} (hi : Inv s) (h : hostAccess x s = .next t) : Inv t := by
  have hok' := hostAccess_statusOk hi.status_ok h
  obtain ⟨w, -, he⟩ | ⟨-, -, -, -, -, rfl⟩ | ⟨r, w, -, -, hb, rfl⟩ | ⟨r, -, rfl⟩ | ⟨-, rfl⟩ |
    ⟨addr, data, -, ha, -, hl, ht, rfl⟩ | ⟨_, _, -, rfl⟩ | ⟨-, rfl⟩ := hostAccess_next h
  · exact exec_inv hi he
  · exact hi
  · obtain ⟨hm, -, hrest, -⟩ := hi
    refine .of_idle hm hok' ?_ ?_
    · exact (Engine.writeReg_busy ..).trans hb
    · exact (Engine.writeReg_stage ..).trans (hrest hb)
  · exact hi.of_sameMemory (s := s) rfl rfl (hostRead_loans_busy r) rfl
  · exact hi.of_sameMemory (hostPoll_eng s) (hostPoll_platform s) hostPoll_loans (hostPoll_mem s)
  · exact hi.of_memWrite ha hl ht
  · exact hi.of_sameMemory (s := s) rfl rfl (fun _ => rfl) rfl
  · exact applyReset_inv hi

/-- Neither the accesses to come nor the schedule matter to the invariant. -/
theorem Inv.of_schedule (hi : Inv s) (inputs : List Input) (turns : List Turn) :
    Inv { s with inputs := inputs, sched := turns } :=
  hi.of_sameMemory rfl rfl (fun _ => rfl) rfl

end

/-- Settles O43: the engine's steps follow the routine access by access, a launch starts it, and what the
outside world may do touches neither the lent buffer nor the table in use. -/
theorem everyStepKeepsTheInvariant : Obligations.EveryStepKeepsTheInvariant := by
  intro s t hi h
  obtain ⟨turns, f, -, hrun⟩ | ⟨turns, -, rfl⟩ | ⟨x, rest, turns, -, ha⟩ := step_cases h
  · exact engineRun_inv (hi.of_schedule s.inputs turns) hrun
  · exact hi.of_schedule s.inputs turns
  · exact hostAccess_inv (hi.of_schedule rest turns) ha

/-- Settles O42: no memory is written after reset and the engine rests. -/
theorem resetStateMeetsTheInvariant : Obligations.ResetStateMeetsTheInvariant :=
  .of_idle Memory.wf_nil statusOk_reset rfl rfl

/-! ### Register accesses (10_state.md R21) -/

theorem hostAccess_regWrite (r : Reg) (w : Word) (s : State) :
    hostAccess (.regWrite r.offset 4 w) s = hostWrite r w s := withReg_offset ..

theorem hostAccess_regRead (r : Reg) (s : State) :
    hostAccess (.regRead r.offset 4) s = .next (hostRead r s) := withReg_offset ..

theorem hostWrite_idle {r : Reg} {s : State} (hr : r ≠ .cmd) (hb : s.busy = false) (w : Word) :
    hostWrite r w s = .next { s with eng := s.eng.writeReg r w } := by
  cases r with
  | cmd => exact absurd rfl hr
  | _ => simp [hostWrite, hb]

theorem hostReadWord_idle (r : Reg) {s : State} (hb : s.busy = false) :
    hostReadWord r s = s.eng.regWord r := if_neg (by simp [hb])

/-- While `BUSY = 0` a read gives what the register holds, and one of `STATUS` closes the loans. -/
theorem hostRead_idle (r : Reg) {s : State} (hb : s.busy = false) :
    hostRead r s =
      { s with
        replies := .register r (s.eng.regWord r) :: s.replies
        loans := if r = .status then [] else s.loans } := by
  simp [hostRead, hostReadWord_idle r hb, hb]

/-- A host write shows in the register written only. -/
theorem Engine.regWord_writeReg_other (e : Engine) {r r' : Reg} (h : r' ≠ r) (w : Word) :
    (e.writeReg r w).regWord r' = e.regWord r' := by
  cases r' <;> cases r <;>
    simp [Engine.regWord, Engine.writeReg, Engine.statusWord, Engine.busy] at h ⊢

theorem setWidth_setWidth_16_eq_and (w : Word) : (w.setWidth 16).setWidth 32 = w &&& 0x0000FFFF#32 := by
  have hmask : w.toNat &&& 0xFFFF = w.toNat % 2 ^ 16 := Nat.and_two_pow_sub_one_eq_mod w.toNat 16
  apply BitVec.eq_of_toNat_eq
  rw [BitVec.toNat_setWidth, BitVec.toNat_setWidth, BitVec.toNat_and, BitVec.toNat_ofNat, hmask]
  omega

/-- A host reads back what it wrote to an operand register, of `BITREVLEN` the low 16 bits
(10_state.md R29, R33). -/
theorem Engine.regWord_writeReg_operand (e : Engine) {r : Reg}
    (h : r = .bufBase ∨ r = .nElem ∨ r = .tabBase ∨ r = .tabLen ∨ r = .bitRevLen) (w : Word) :
    (e.writeReg r w).regWord r = if r = .bitRevLen then w &&& 0x0000FFFF#32 else w := by
  obtain rfl | rfl | rfl | rfl | rfl := h
  any_goals rfl
  exact setWidth_setWidth_16_eq_and w

/-- Settles O9: an idle engine takes the value into that register, where the read finds it. -/
theorem operandRegistersHoldWhatIsWritten : Obligations.OperandRegistersHoldWhatIsWritten := by
  intro s r w hb
  refine ⟨fun hr => ?_, fun hr => ?_⟩
  · have hcmd : r ≠ .cmd := by rintro rfl; simp at hr
    have hstatus : r ≠ .status := by rintro rfl; simp at hr
    have hb' : State.busy { s with eng := s.eng.writeReg r w } = false :=
      (s.eng.writeReg_busy r w).trans hb
    refine ⟨s.eng.writeReg r w, ?_, ?_, fun r' hr' => s.eng.regWord_writeReg_other hr' w,
      s.eng.writeReg_status r w, s.eng.writeReg_phase r w, s.eng.writeReg_stage r w,
      s.eng.writeReg_tmp r w⟩
    · rw [hostAccess_regWrite, hostWrite_idle hcmd hb]
    · simp only [hostAccess_regRead, hostRead_idle r hb', s.eng.regWord_writeReg_operand hr,
        if_neg hstatus]
  · rw [hostAccess_regWrite]
    obtain rfl | rfl := hr
    · exact hostWrite_idle (r := .status) nofun hb w
    · exact hostWrite_idle (r := .cursor) nofun hb w

/-- Settles O10: register by register, the read of an idle engine. -/
theorem idleReadReturnsTheRegister : Obligations.IdleReadReturnsTheRegister := by
  intro s hb
  have hread (r : Reg) := (hostAccess_regRead r s).trans (congrArg _ (hostRead_idle r hb))
  exact ⟨hread .cmd, hread .status, hread .bufBase, hread .nElem, hread .tabBase, hread .tabLen,
    hread .bitRevLen, hread .cursor⟩

theorem withReg_misshapen {off size : Nat} (h : size ≠ 4 ∨ off % 4 ≠ 0) (f : Reg → Outcome) :
    withReg off size f = .refused .registerAccessShape := if_pos h

theorem withReg_beyond {off : Nat} (hal : off % 4 = 0) (h : 0x20 ≤ off) (f : Reg → Outcome) :
    withReg off 4 f = .refused .registerOffset := by
  have hnone : Reg.ofOffset off = none := by
    cases hr : Reg.ofOffset off with
    | none => rfl
    | some r =>
      have hoff := Reg.offset_of_ofOffset hr
      cases r <;> simp only [Reg.offset] at hoff <;> omega
  simp [withReg, hal, hnone]

/-- Settles O11: the shape is tested first, and no register stands at `0x20` or above. -/
theorem misshapenRegisterAccessIsRefused : Obligations.MisshapenRegisterAccessIsRefused := fun _ _ _ _ =>
  ⟨fun h => ⟨withReg_misshapen h _, withReg_misshapen h _⟩,
    fun hal h => ⟨withReg_beyond hal h _, withReg_beyond hal h _⟩⟩

/-- The bits of a word put together as `STATUS` is (10_state.md R23). -/
theorem statusWord_fields : ∀ (c : BitVec 3) (d b : Bool),
    let w : Word := 0#25 ++ c ++ 0#2 ++ BitVec.ofBool d ++ BitVec.ofBool b
    w.getLsbD 0 = b ∧ w.getLsbD 1 = d ∧ w.extractLsb' 2 2 = 0#2 ∧ w.extractLsb' 4 3 = c ∧
      w.extractLsb' 7 25 = 0#25 := by
  decide

theorem Engine.busy_eq_decide (e : Engine) : e.busy = decide (e.phase ≠ .idle) := by
  simp [Engine.busy, bne, beq_eq_decide]

/-- Settles O12: the fields stand apart in the word, and no constructor has the codes 6 and 7. -/
theorem statusWordShowsItsFields : Obligations.StatusWordShowsItsFields := by
  refine ⟨fun e => ?_, rfl, rfl, rfl, rfl, rfl, rfl, fun c => by cases c <;> decide⟩
  rw [← e.busy_eq_decide]
  exact statusWord_fields e.status.err.code e.status.done e.busy

/-- Settles O53: the free value is taken modulo `zext(BITREVLEN) + 1`. -/
theorem cursorReadIsInRangeOrExact : Obligations.CursorReadIsInRangeOrExact := by
  intro s
  have hread : hostAccess (.regRead 0x1C 4) s = .next (hostRead .cursor s) := hostAccess_regRead .cursor s
  refine ⟨fun hb => ⟨_, Config.freeCursor s.draws % (s.eng.count + 1), hread,
    Nat.le_of_lt_succ (Nat.mod_lt _ (Nat.succ_pos _)), ?_, rfl, rfl⟩,
    fun hb => ⟨_, hread, ?_, rfl, rfl⟩⟩
  · simp [hostReadWord, hb]
  · rw [hostRead_replies, hostReadWord_idle _ hb]
    rfl

/-- On an idle engine the step issues the command that the next access writes (10_state.md R22). -/
theorem step_regWrite_cmd_idle {s : State} {w : Word} {rest : List Input}
    (hx : s.inputs = .regWrite 0x00 4 w :: rest) (hb : s.busy = false) :
    step s = exec (decode w) { s with inputs := rest } := by
  rw [step, if_neg (by simp [hb])]
  exact hostTurn_regWrite_cmd hx

/-- On the host's turn while `BUSY = 1` the step issues the command that the next access writes. -/
theorem step_regWrite_cmd_busy {s : State} {w : Word} {rest : List Input} {turns : List Turn}
    (hx : s.inputs = .regWrite 0x00 4 w :: rest) (hb : s.busy = true)
    (hs : s.sched = .host :: turns) :
    step s = exec (decode w) { s with inputs := rest, sched := turns } := by
  rw [step, if_pos hb, hs]
  exact hostTurn_regWrite_cmd (s := { s with sched := turns }) hx

theorem step_withFetchWord (s : State) (w : Word) :
    step (s.withFetchWord 32 w.toNat) = exec (decode w) s := by
  have hw : BitVec.ofNat 32 (w.toNat % 2 ^ 32) = w := by
    rw [Nat.mod_eq_of_lt w.isLt, BitVec.ofNat_toNat, BitVec.setWidth_eq]
  have hx : (s.withFetchWord 32 w.toNat).inputs = .regWrite 0x00 4 w :: s.inputs := by
    rw [withFetchWord_inputs, hw]
    rfl
  cases hb : s.busy
  case false =>
    rw [step_regWrite_cmd_idle hx hb]
    simp [State.withFetchWord, hb]
  case true => exact step_regWrite_cmd_busy hx hb (if_pos hb)

theorem decodeTableWord_toNat (w : Word) : decodeTableWord 32 w.toNat = some (decode w) := by
  rw [decodeTableWord, if_neg (by decide), Nat.mod_eq_of_lt w.isLt, BitVec.ofNat_toNat,
    BitVec.setWidth_eq, decodeBytes_wordBytes]

/-- Settles O55: the host's turn takes the write to `CMD`, and decoding undoes encoding. -/
theorem stepIssuesTheDecodedCommand : Obligations.StepIssuesTheDecodedCommand := by
  refine ⟨fun s w rest hx => ⟨step_regWrite_cmd_idle hx, fun turns => step_regWrite_cmd_busy hx⟩,
    fun s i hi => ⟨?_, ?_⟩⟩
  · rw [step_withFetchWord, decode_encode_of_wf hi]
  · rw [decodeTableWord_toNat, decode_encode_of_wf hi]

end Sys2Proof.Machine
end

section
/-! PROOFS. The statements of 20_memory.md: the byte binding, the memory accesses of the host and of other
agents, what an observer of a lent buffer finds, and the spans of a launch. -/

namespace Sys2Proof.Machine

/-! ### Memory accesses of the outside world (20_memory.md R63, R65, R66) -/

/-- The state after a memory write of the outside world. -/
def memWritten (addr : Word) (data : List Byte) (s : State) : State :=
  s.setMem (s.mem.writeBytes addr.toNat data)

@[simp] theorem memWritten_eng (addr : Word) (data : List Byte) (s : State) :
    (memWritten addr data s).eng = s.eng := rfl

theorem touchesBusyTable_eq_false {a : Span} {s : State} :
    touchesBusyTable a s = false ↔ (s.busy = true → a.overlaps (tabSpan s.eng) = false) := by
  simp [touchesBusyTable]

/-- Settles O48: an allowed write is answered with its bytes in memory, one by one. -/
theorem memoryWriteStoresExactlyItsBytes : Obligations.MemoryWriteStoresExactlyItsBytes := by
  intro s addr data hm ha hord hlent htab
  have hok := hostMemWrite_ok ha hord (touchesLentBuffer_eq_false.2 hlent)
    (touchesBusyTable_eq_false.2 htab)
  refine ⟨_, hok, Memory.wf_writeBytes hm ha, fun i b hb => ?_, fun x hx => ?_⟩
  · have hi : i < data.length := (List.getElem?_eq_some_iff.1 hb).1
    rw [Memory.read_writeBytes hm ha, if_pos (by omega), Nat.add_sub_cancel_left,
      List.getD_eq_getElem?_getD, hb, Option.getD_some]
  · rw [Memory.read_writeBytes hm ha, if_neg (by omega)]

theorem Span.has_iff {a : Span} {x : Nat} : a.has x = true ↔ a.base ≤ x ∧ x < a.top := by
  simp [Span.has]

/-- Two spans that hold one byte share it. -/
theorem overlaps_of_has {a b : Span} {x : Nat} (ha : a.has x = true) (hb : b.has x = true) :
    a.overlaps b = true := by
  rw [Span.has_iff] at ha hb
  by_contra h
  have := overlaps_false_iff.1 ((Bool.not_eq_true _).mp h)
  simp only [Span.top] at *
  omega

theorem accessSpan_has {addr : Word} {len i : Nat} (hi : i < len) :
    (accessSpan addr len).has (addr.toNat + i) = true :=
  Span.has_iff.2 ⟨Nat.le_add_right _ i, Nat.add_lt_add_left hi _⟩

/-- Settles O49: no byte of the access lies on a buffer that a loan's operation permutes. -/
theorem memoryReadReturnsWhatMemoryHolds : Obligations.MemoryReadReturnsWhatMemoryHolds := by
  intro s addr len ha hord hlent
  have hread (i : Nat) (hi : i < len) : visibleByte s (addr.toNat + i) = s.mem.read (addr.toNat + i) := by
    refine visibleByte_of_not_lent fun l hl hp => ?_
    by_contra hhas
    have hov := overlaps_of_has (accessSpan_has hi) ((Bool.not_eq_false _).mp hhas)
    rw [hlent l hl hp] at hov
    cases hov
  have hbytes : ((List.range len).map fun i => visibleByte s (addr.toNat + i)) =
      (List.range len).map fun i => s.mem.read (addr.toNat + i) :=
    List.map_congr_left fun i hi => hread i (List.mem_range.1 hi)
  rw [← hbytes]
  exact hostMemRead_ok ha hord

/-! ### A write beside a step of the engine (20_memory.md R65, 60_exceptions.md R190) -/

/-- An access apart from the buffer is apart from each of its elements. -/
theorem elem_apart_of_bufSpan_apart {v : Variant} {e : Engine} {a : Span} {k : Nat}
    (hap : a.overlaps (bufSpan v e) = false) (hk : k < e.nElem.toNat) :
    a.overlaps { base := elemAddr v e k, len := v.bytes } = false := by
  have hin := elem_in_bufSpan (v := v) hk
  have hpos := Variant.bytes_pos v
  have h := overlaps_false_iff.1 hap
  refine overlaps_false_iff.2 ?_
  simp only [Span.top] at *
  omega

/-- Two writes that share no byte can be made in either order. -/
theorem setBufElem_writeBytes_comm {v : Variant} {e : Engine} {m : Memory} {k : Nat} {x : BitVec 64}
    {addr : Word} {data : List Byte} (hm : m.wf) (he : elemAddr v e k + v.bytes ≤ Config.addrSpace)
    (ha : addr.toNat + data.length ≤ Config.addrSpace)
    (hap : (accessSpan addr data.length).overlaps { base := elemAddr v e k, len := v.bytes } = false) :
    setBufElem v e (m.writeBytes addr.toNat data) k x =
      (setBufElem v e m k x).writeBytes addr.toNat data := by
  have hmE := wf_setBufElem x hm he
  have hmW := Memory.wf_writeBytes hm ha
  refine Memory.ext (wf_setBufElem x hmW he) (Memory.wf_writeBytes hmE ha) fun a => ?_
  rw [Memory.read_writeBytes hmE ha, setBufElem, setBufElem, Memory.read_writeLE _ hmW he,
    Memory.read_writeBytes hm ha, Memory.read_writeLE _ hm he]
  by_cases hin : elemAddr v e k ≤ a ∧ a < elemAddr v e k + v.bytes
  · have hout : ¬(addr.toNat ≤ a ∧ a < addr.toNat + data.length) := by
      have h := overlaps_false_iff.1 hap
      simp only [accessSpan, Span.top] at h
      omega
    rw [if_pos hin, if_neg hout, if_pos hin]
  · rw [if_neg hin, if_neg hin]

theorem atEntry_memWritten (addr : Word) (data : List Byte) (s : State) :
    atEntry (memWritten addr data s) = memWritten addr data (atEntry s) := by
  unfold atEntry
  rw [memWritten_eng]
  split <;> rfl

theorem exchangeDone_setMem (v : Variant) (s : State) (m : Memory) :
    exchangeDone v (s.setMem m) = (exchangeDone v s).setMem m := by
  unfold exchangeDone
  rw [setMem_eng]
  split <;> rfl

theorem putB_setMem (v : Variant) (s : State) (m : Memory) :
    putB v (s.setMem m) = (putB v s).setMem (setBufElem v s.eng m (sideB v s.eng) s.eng.tmp.t0) :=
  exchangeDone_setMem v ((s.setMem (setBufElem v s.eng s.mem (sideB v s.eng) s.eng.tmp.t0)).log
    (.writeElem (sideB v s.eng))) _

/-- The test of an entry does not look at memory. -/
theorem entryTested_setMem {v : Variant} {raw : BitVec 16} {s t : State} (m : Memory)
    (h : entryTested v raw s = .next t) : entryTested v raw (s.setMem m) = .next (t.setMem m) := by
  obtain ⟨hout, he⟩ | ⟨hin, hlast, he⟩ | ⟨hin, hmore, he⟩ := entryTested_cases v raw s <;>
    obtain rfl := Host.Outcome.next.inj (he.symm.trans h)
  · exact if_pos hout
  · exact (if_neg (Nat.not_le.2 hin)).trans (if_pos hlast)
  · exact (if_neg (Nat.not_le.2 hin)).trans (if_neg (Nat.not_le.2 hmore))

/-- A pair begins in one stage only. -/
theorem Permuting.stage_readA {s : State} {l : Lease} (hp : Permuting s l) (h : atPairStart s) :
    s.eng.stage = .readA := by
  have hprog := hp.progress
  obtain hg | hg | hg := h
  · exact hg
  all_goals simp only [pairProgress, hg] at hprog

section
variable {s t : State} {l : Lease} {addr : Word} {data : List Byte} (hr : Running s l) (hm : s.mem.wf)
  (ha : addr.toNat + data.length ≤ Config.addrSpace)
  (hbuf : (accessSpan addr data.length).overlaps (bufSpan l.variant s.eng) = false)
  (htab : (accessSpan addr data.length).overlaps (tabSpan s.eng) = false)

include hm ha htab in
theorem tabEntry_memWritten {j : Nat} (hj : j < s.eng.tabLen.toNat) :
    tabEntry s.eng (memWritten addr data s).mem j = tabEntry s.eng s.mem j := by
  obtain ⟨hbase, htop⟩ := entry_in_tabSpan hj
  exact tabEntry_mem_congr fun x hlo hhi =>
    read_writeBytes_apart hm ha htab (hbase.trans hlo) (hhi.trans_le htop)

include hm ha hbuf in
theorem bufElem_memWritten {k : Nat} (hk : k < s.eng.nElem.toNat) :
    bufElem l.variant s.eng (memWritten addr data s).mem k = bufElem l.variant s.eng s.mem k := by
  obtain ⟨hbase, htop⟩ := elem_in_bufSpan (v := l.variant) hk
  exact bufElem_mem_congr fun x hlo hhi =>
    read_writeBytes_apart hm ha hbuf (hbase.trans hlo) (hhi.trans_le htop)

include hm ha hbuf in
theorem setBufElem_memWritten {k : Nat} (x : BitVec 64) (hk : k < s.eng.nElem.toNat)
    (he : elemAddr l.variant s.eng k + l.variant.bytes ≤ Config.addrSpace) :
    setBufElem l.variant s.eng (memWritten addr data s).mem k x =
      (setBufElem l.variant s.eng s.mem k x).writeBytes addr.toNat data :=
  setBufElem_writeBytes_comm hm he ha (elem_apart_of_bufSpan_apart hbuf hk)

include hm ha htab in
/-- A validation step reads an entry, which the write apart from the table leaves as it was. -/
theorem validateStep_memWritten (h : validateStep l.variant s = .next t) :
    validateStep l.variant (memWritten addr data s) = .next (memWritten addr data t) := by
  obtain ⟨-, hops, -⟩ := sameOperation_atEntry s
  have hmem : t.mem = s.mem := by
    obtain ⟨-, ⟨-, rfl⟩ | ⟨-, -, rfl⟩ | ⟨-, -, rfl⟩⟩ := validateStep_next h <;> exact atEntry_mem s
  obtain ⟨hj, -⟩ := validateStep_next h
  have hentry := tabEntry_memWritten hm ha htab hj
  rw [validateStep_eq] at h ⊢
  obtain ⟨hj', he, hf⟩ := readEntry_next h
  rw [tabEntry_congr hops, atEntry_mem, ← hentry] at hf
  rw [atEntry_memWritten, memWritten_eng,
    readEntry_ok (s := memWritten addr data (atEntry s)) hj' he, memWritten_eng, tabEntry_congr hops,
    memWritten, memWritten, hmem, atEntry_mem]
  exact entryTested_setMem _ hf

include hr hm ha hbuf htab in
/-- A permute step reads an entry, or reads or writes an element, apart from the bytes written. -/
theorem permuteStep_memWritten (hp : Permuting s l) (h : permuteStep l.variant s = .next t) :
    permuteStep l.variant (memWritten addr data s) = .next (memWritten addr data t) := by
  obtain ⟨hsp, -⟩ := hr.spans
  have hentry {j : Nat} (hj : j < s.eng.tabLen.toNat) := tabEntry_memWritten hm ha htab hj
  have helem {k : Nat} (hk : k < s.eng.nElem.toNat) := bufElem_memWritten hm ha hbuf hk
  have hset {k : Nat} (x : BitVec 64) (hk : k < s.eng.nElem.toNat) :=
    setBufElem_memWritten hm ha hbuf x hk (elem_in_space hsp hk)
  obtain ⟨hg, hc, rfl⟩ | ⟨hg, hc, hj, rfl⟩ | ⟨hg, hj, rfl⟩ | ⟨hg, hk, rfl⟩ | ⟨hg, hk, rfl⟩ |
    ⟨hg, hk, he, rfl⟩ | ⟨hg, hk, he, rfl⟩ := permuteStep_next h
  · exact permuteStep_complete (s := memWritten addr data s) (hp.stage_readA hg) hc
  · rw [permuteStep_readA (s := memWritten addr data s) (hp.stage_readA hg) hc hj
      (entry_in_space hsp hj), gotA, memWritten_eng, hentry hj]
    rfl
  · rw [permuteStep_readB (s := memWritten addr data s) hg hj (entry_in_space hsp hj), gotB,
      memWritten_eng, hentry hj]
    rfl
  · rw [permuteStep_loadA (s := memWritten addr data s) hg hk (elem_in_space hsp hk), gotT0,
      memWritten_eng, helem hk]
    rfl
  · rw [permuteStep_loadB (s := memWritten addr data s) hg hk (elem_in_space hsp hk), gotT1,
      memWritten_eng, helem hk]
    rfl
  · rw [permuteStep_storeA (s := memWritten addr data s) hg hk he, putA, memWritten_eng, hset _ hk]
    rfl
  · rw [permuteStep_storeB (s := memWritten addr data s) hg hk he, memWritten, putB_setMem, memWritten,
      putB_mem]
    exact congrArg (fun m => Host.Outcome.next ((putB l.variant s).setMem m)) (hset _ hk)

include hr hm ha hbuf htab in
/-- A step of the engine and another agent's write apart from the spans can be made in either order. -/
theorem engineStep_memWritten (h : engineStep s = .next t) :
    engineStep (memWritten addr data s) = .next (memWritten addr data t) := by
  have hv : (memWritten addr data s).eng.variant = some l.variant := hr.variant
  obtain hpass | hpass := hr.pass
  · rw [engineStep_validate hpass.phase hr.variant] at h
    rw [engineStep_validate (s := memWritten addr data s) hpass.phase hv]
    exact validateStep_memWritten hm ha htab h
  · rw [engineStep_permute hpass.phase hr.variant] at h
    rw [engineStep_permute (s := memWritten addr data s) hpass.phase hv]
    exact permuteStep_memWritten hr hm ha hbuf htab hpass h

end

/-- An answered memory write touches no lent buffer and no table in use (70_reset_and_hazards.md R205,
R206). -/
theorem hostMemWrite_next {addr : Word} {data : List Byte} {s t : State}
    (h : hostMemWrite addr data s = .next t) :
    addr.toNat + data.length ≤ Config.addrSpace ∧
      s.platform.ordinary (accessSpan addr data.length) = true ∧
      (∀ l, l ∈ s.loans → (accessSpan addr data.length).overlaps l.span = false) ∧
      (s.busy = true → (accessSpan addr data.length).overlaps (tabSpan s.eng) = false) ∧
      t = memWritten addr data s := by
  obtain ⟨ha, hord, h⟩ := withOrdinaryAccess_next h
  split at h
  case isTrue => cases h
  case isFalse hlent =>
    split at h
    case isTrue => cases h
    case isFalse htab =>
      exact ⟨ha, hord, touchesLentBuffer_eq_false.1 ((Bool.not_eq_true _).mp hlent),
        touchesBusyTable_eq_false.1 ((Bool.not_eq_true _).mp htab), (Host.Outcome.next.inj h).symm⟩

/-- Settles O51: the step keeps loans, table and platform, so the write is allowed after it too. -/
theorem writesOutsideTheSpansCommuteWithTheEngine :
    Obligations.WritesOutsideTheSpansCommuteWithTheEngine := by
  intro s t u addr data hi hb hstep hwrite
  obtain ⟨ha, hord, hlent, htab, rfl⟩ := hostMemWrite_next hwrite
  obtain ⟨hm, -, -, hrun⟩ := hi
  obtain ⟨l, older, hl, hr⟩ := hrun hb
  have hbuf := hlent l (hl ▸ List.mem_cons_self)
  rw [hr.lease_span] at hbuf
  obtain ⟨-, hops, hloans, -, -, -, -, hplat⟩ := engineStep_sameOperation hstep
  refine ⟨_, engineStep_memWritten hr hm ha hbuf (htab hb) hstep,
    hostMemWrite_ok ha (hplat ▸ hord) (touchesLentBuffer_eq_false.2 (hloans ▸ hlent))
      (touchesBusyTable_eq_false.2 fun _ => ?_)⟩
  rw [tabSpan_congr hops]
  exact htab hb

/-! ### What an observer of a lent buffer finds (20_memory.md R71) -/

/-- Where the same open loans hold the bytes, the observer reads them through one and the same loan. -/
theorem visibleByte_of_coveringLoans (s : State) {ls : List Lease} (hne : ls ≠ []) :
    ∃ l, l ∈ ls ∧ ∀ x, coveringLoans s x = ls → visibleByte s x = observedByte l s.draws x := by
  have hlt : Config.freeLoan s.draws % ls.length < ls.length :=
    Nat.mod_lt _ (List.length_pos_iff.2 hne)
  refine ⟨ls[Config.freeLoan s.draws % ls.length], List.getElem_mem hlt, fun x hx => ?_⟩
  rw [visibleByte, hx, List.getElem?_eq_getElem hlt]

/-- Byte `i` of element `k`, as an observer finds it, is byte `i` of one value of the element. -/
theorem observedByte_elem {l : Lease} {k i : Nat} (draw : Nat) (hi : i < l.variant.bytes) :
    observedByte l draw (elemAddr l.variant l.eng k + i) = elemByte (observedElem l draw k) i := by
  have hoff : elemAddr l.variant l.eng k + i - l.eng.bufBase.toNat = l.variant.bytes * k + i := by
    rw [elemAddr, Nat.mul_comm]
    omega
  rw [observedByte, hoff, Nat.mul_add_div (Variant.bytes_pos _), Nat.div_eq_of_lt hi, Nat.add_zero,
    Nat.mul_add_mod, Nat.mod_eq_of_lt hi]

section
variable {s : State} {l : Lease} {k : Nat} {addr : Word} (hk : k < l.eng.nElem.toNat)
  (haddr : addr.toNat = elemAddr l.variant l.eng k)
  (hloans : ∀ l', l' ∈ s.loans → l'.permutes = true →
    (l'.variant = l.variant ∧ l'.span = l.span) ∨
      (accessSpan addr l.variant.bytes).overlaps l'.span = false)
include hk haddr hloans

/-- A permuting loan holds a byte of the element just when it is a loan of the same buffer. -/
theorem mem_coveringLoans_elem {l' : Lease} {i : Nat} (hi : i < l.variant.bytes) :
    l' ∈ coveringLoans s (addr.toNat + i) ↔
      l' ∈ s.loans ∧ l'.permutes = true ∧ l'.variant = l.variant ∧ l'.span = l.span := by
  rw [mem_coveringLoans]
  refine and_congr_right fun hl => and_congr_right fun hp => ⟨fun hhas => ?_, fun ⟨_, hspan⟩ => ?_⟩
  · refine (hloans l' hl hp).resolve_right fun hap => ?_
    rw [overlaps_of_has (accessSpan_has hi) hhas] at hap
    cases hap
  · obtain ⟨hlo, hhi⟩ := elem_in_bufSpan (v := l.variant) hk
    rw [hspan, Span.has_iff, haddr, Lease.span]
    omega

/-- The same loans hold all bytes of the element. -/
theorem coveringLoans_elem {i : Nat} (hi : i < l.variant.bytes) :
    coveringLoans s (addr.toNat + i) = coveringLoans s (addr.toNat + 0) := by
  refine List.filter_congr fun l' hl => Bool.eq_iff_iff.2 ?_
  have h := mem_coveringLoans_elem hk haddr hloans (l' := l') hi
  have h0 := mem_coveringLoans_elem hk haddr hloans (l' := l') (Variant.bytes_pos l.variant)
  simpa [coveringLoans, hl] using h.trans h0.symm

/-- A read of the element goes through one loan of its buffer. -/
theorem visibleByte_elem (hl : l ∈ s.loans) (hp : l.permutes = true) :
    ∃ l', l' ∈ s.loans ∧ l'.permutes = true ∧ l'.variant = l.variant ∧ l'.span = l.span ∧
      ∀ i, i < l.variant.bytes →
        visibleByte s (addr.toNat + i) = elemByte (observedElem l' s.draws k) i := by
  have hpos := Variant.bytes_pos l.variant
  have hmem := (mem_coveringLoans_elem hk haddr hloans hpos).2 ⟨hl, hp, rfl, rfl⟩
  obtain ⟨l', hl', hread⟩ := visibleByte_of_coveringLoans s (List.ne_nil_of_mem hmem)
  obtain ⟨hin, hperm, hv, hspan⟩ := (mem_coveringLoans_elem hk haddr hloans hpos).1 hl'
  have hbase : l'.eng.bufBase.toNat = l.eng.bufBase.toNat := congrArg Span.base hspan
  have haddr' : addr.toNat = elemAddr l'.variant l'.eng k := by
    rw [haddr, elemAddr, elemAddr, hv, hbase]
  refine ⟨l', hin, hperm, hv, hspan, fun i hi => ?_⟩
  rw [hread _ (coveringLoans_elem hk haddr hloans hi), haddr', observedByte_elem _ (hv ▸ hi)]

end

/-- Settles O54: an element is read through one loan, at one number of its pairs; any other byte through
a loan that holds it, or from memory. -/
theorem lentElementReadIsOneOfItsValues : Obligations.LentElementReadIsOneOfItsValues := by
  refine ⟨fun s l k addr hl hp hsp hk haddr hord hloans => ?_, fun s addr len ha hord => ?_⟩
  · obtain ⟨l', hl', hp', hv, hspan, hread⟩ := visibleByte_elem hk haddr hloans hl hp
    have ha : addr.toNat + l.variant.bytes ≤ Config.addrSpace := haddr ▸ elem_in_space hsp hk
    refine ⟨_, l', observedPairs l' s.draws k, hostMemRead_ok ha hord, hl', hp', hv, hspan,
      observedPairs_le .., ?_, rfl, rfl⟩
    refine congrArg (fun bytes => .memory addr bytes :: s.replies) (List.map_congr_left fun i hi => ?_)
    exact hread i (List.mem_range.1 hi)
  · refine ⟨_, _, hostMemRead_ok ha hord, rfl, by simp, rfl, rfl, fun i hi => ?_⟩
    rw [List.getElem?_map, List.getElem?_range hi, Option.map_some]
    obtain ⟨l, hl, he⟩ | ⟨hnone, he⟩ := visibleByte_cases s (addr.toNat + i)
    · obtain ⟨hl, hp, hhas⟩ := mem_coveringLoans.1 hl
      exact .inl ⟨l, _, hl, hp, hhas, observedPairs_le .., congrArg some he⟩
    · refine .inr ⟨fun l hl hp => (Bool.not_eq_true _).mp fun hhas => ?_, congrArg some he⟩
      have hmem := mem_coveringLoans.2 ⟨hl, hp, hhas⟩
      simp [hnone] at hmem

/-! ### The read of `STATUS` (20_memory.md R66, 70_reset_and_hazards.md R205, R209) -/

theorem hostReadWord_status (s : State) : hostReadWord .status s = s.eng.statusWord :=
  if_neg (by simp)

/-- Settles O57: with no loan open, every byte is read as memory holds it. -/
theorem statusReadMakesTheBufferVisible : Obligations.StatusReadMakesTheBufferVisible := by
  intro s
  refine ⟨hostRead .status s, hostAccess_regRead .status s, rfl, rfl, ?_, hostRead_loans_busy _,
    fun hb => ?_⟩
  · rw [hostRead_replies, hostReadWord_status]
  have hclosed : (hostRead .status s).loans = [] := by simp [hb]
  have hvisible (x : Nat) : visibleByte (hostRead .status s) x = s.mem.read x :=
    visibleByte_no_loans hclosed x
  refine ⟨hclosed, hvisible, fun addr len ha hord => ⟨_, hostMemRead_ok ha hord, ?_⟩⟩
  simp only [memReplied, hvisible]

/-! ### The spans of a launch (20_memory.md R57, R60, R63; 70_reset_and_hazards.md R208) -/

theorem exec_ofVariant (v : Variant) (chk : Bool) (s : State) :
    exec (Instr.ofVariant v chk) s = launch Config.implVariants v chk s := by
  cases v <;> rfl

theorem built_implVariants (v : Variant) : Config.built Config.implVariants v = true := by
  cases v <;> decide

/-- A launch that passes the tests on registers comes to the premises on its spans. -/
theorem exec_ofVariant_eq_withGoodSpans {v : Variant} {s : State} (chk : Bool) (hb : s.busy = false)
    (hn : s.eng.count ≠ 0) (hal : aligned v s.eng = true) (hev : oddCount s.eng = false)
    (hlen : lengthMatches s.eng = true) :
    ∃ out, exec (Instr.ofVariant v chk) s = withGoodSpans v (accept v chk s) out := by
  have hops : sameOperands s.eng (accept v chk s).eng := sameOperands.refl _
  rw [exec_ofVariant, launch, if_neg (by simp [hb]), built_implVariants, if_neg (by simp), afterAccept,
    count_congr hops, if_neg hn, aligned_congr hops, if_neg (by simp [hal]), oddCount_congr hops,
    if_neg (by simp [hev]), lengthMatches_congr hops, if_neg (by simp [hlen])]
  exact ⟨_, rfl⟩

section
variable {v : Variant} {s : State} (out : Outcome)

theorem withGoodSpans_wraps (h : spansInSpace v s.eng = false) :
    withGoodSpans v s out = .refused .spanWraps := if_pos h

theorem withGoodSpans_overlap (h : spansInSpace v s.eng = true) (h' : spansApart v s.eng = false) :
    withGoodSpans v s out = .refused .spansOverlap := by
  rw [withGoodSpans, if_neg (by simp [h]), if_pos h']

theorem withGoodSpans_notOrdinary (h : spansInSpace v s.eng = true) (h' : spansApart v s.eng = true)
    (ho : spansOrdinary v s.platform s.eng = false) :
    withGoodSpans v s out = .refused .spanNotOrdinaryMemory := by
  rw [withGoodSpans, if_neg (by simp [h]), if_neg (by simp [h']), if_pos ho]

end

/-- Settles O23: acceptance leaves the operand registers alone, and the spans are tested in this order. -/
theorem spansOutsideTheSpecAreRefused : Obligations.SpansOutsideTheSpecAreRefused := by
  intro v chk s hb hn hal hev hlen
  obtain ⟨out, hout⟩ := exec_ofVariant_eq_withGoodSpans chk hb hn hal hev hlen
  rw [hout]
  refine ⟨fun hwrap => ?_, fun hsp hov => ?_, fun hsp hap hord => ?_⟩
  · refine withGoodSpans_wraps out ((Bool.not_eq_true _).mp fun hsp => ?_)
    obtain ⟨hbuf, htab⟩ := spansInSpace_iff.1 hsp
    obtain hbeyond | hbeyond := hwrap
    · exact absurd hbuf (Nat.not_le.2 hbeyond)
    · exact absurd htab (Nat.not_le.2 hbeyond)
  · refine withGoodSpans_overlap (s := accept v chk s) out hsp ?_
    exact congrArg not hov
  · refine withGoodSpans_notOrdinary (s := accept v chk s) out hsp (spansApart_iff.2 hap) ?_
    exact Bool.and_eq_false_iff.2 hord

/-! ### The byte binding (20_memory.md R57, R58) -/

/-- The byte put below a word is its low digit to the base 256. -/
theorem toNat_append_byte {w : Nat} (x : BitVec w) (b : Byte) :
    (x ++ b).toNat = b.toNat + 256 * x.toNat := by
  rw [BitVec.toNat_append, ← Nat.shiftLeft_add_eq_or_of_lt b.isLt, Nat.shiftLeft_eq]
  omega

theorem tabEntry_toNat (e : Engine) (m : Memory) (j : Nat) :
    (tabEntry e m j).toNat = m.readLE (entryAddr e j) 2 :=
  (BitVec.toNat_ofNat ..).trans (Nat.mod_eq_of_lt (Memory.readLE_lt ..))

/-- The W bits of an element are its bytes. -/
theorem bufElem_setWidth_toNat (v : Variant) (e : Engine) (m : Memory) (k : Nat) :
    ((bufElem v e m k).setWidth v.width).toNat = m.readLE (elemAddr v e k) v.bytes := by
  rw [BitVec.toNat_setWidth, Nat.mod_eq_of_lt (bufElem_lt ..), bufElem_toNat]

/-- Settles O39: both sides are the same digits to the base 256, the byte at the lowest address first. -/
theorem byteBindingIsLittleEndian : Obligations.ByteBindingIsLittleEndian := by
  intro e m n
  refine ⟨?_, ?_, ?_, ?_⟩ <;> apply BitVec.eq_of_toNat_eq <;> simp only [toNat_append_byte]
  · exact tabEntry_toNat e m n
  · exact bufElem_setWidth_toNat .s16 e m n
  · exact bufElem_setWidth_toNat .c32 e m n
  · exact bufElem_toNat .c64 e m n

end Sys2Proof.Machine
end

section
/-! PROOFS. The command word (30_encoding.md sections 1 to 3): the decoder and the encoder, the opcode map,
and what a write to `CMD` does. -/

namespace Sys2Proof.Machine

/-! ### Decoding, row by row (30_encoding.md R86) -/

section
variable {w : Word}

theorem decode_of_start_clear (h : cmdStart w = false) : decode w = .nop (w.extractLsb' 1 31) :=
  if_pos h

theorem decode_of_rsv_set (hs : cmdStart w = true) (hr : cmdRsv w ≠ 0#28) :
    decode w = .reservedRsv (cmdRsv w) (w.extractLsb' 1 3) := by
  rw [decode, if_neg (by simp [hs]), if_pos hr]

theorem decode_of_wsel_reserved (hs : cmdStart w = true) (hr : cmdRsv w = 0#28)
    (hv : variantOfWsel (cmdWsel w) = none) : decode w = .reservedWsel3 (cmdChk w) := by
  rw [decode, if_neg (by simp [hs]), if_neg (by simp [hr]), hv]

theorem decode_of_variant {v : Variant} (hs : cmdStart w = true) (hr : cmdRsv w = 0#28)
    (hv : variantOfWsel (cmdWsel w) = some v) : decode w = Instr.ofVariant v (cmdChk w) := by
  rw [decode, if_neg (by simp [hs]), if_neg (by simp [hr]), hv]

end

theorem variantOfWsel_eq_none_iff : ∀ {c : BitVec 2}, variantOfWsel c = none ↔ c = 0b11#2 := by decide

theorem encode_ofVariant (v : Variant) (chk : Bool) :
    encode (Instr.ofVariant v chk) = launchWord v chk := by
  cases v <;> rfl

theorem wf_ofVariant (v : Variant) (chk : Bool) : (Instr.ofVariant v chk).wf = true := by
  cases v <;> rfl

theorem decode_launchWord (v : Variant) (chk : Bool) :
    decode (launchWord v chk) = Instr.ofVariant v chk := by
  rw [← encode_ofVariant, decode_encode_of_wf (wf_ofVariant v chk)]

/-! ### Encoding undoes decoding -/

/-- The bits 31:1 above `START` are the word. -/
theorem high_append_start (w : Word) : w.extractLsb' 1 31 ++ BitVec.ofBool (cmdStart w) = w := by
  rw [cmdStart, ofBool_getLsbD,
    BitVec.extractLsb'_append_extractLsb'_eq_extractLsb' (show 1 = 0 + 1 from rfl)]
  exact BitVec.extractLsb'_eq_self

/-- `RSV`, the bits 3:1 and `START` are the word. -/
theorem rsv_append_low_append_start (w : Word) :
    cmdRsv w ++ w.extractLsb' 1 3 ++ BitVec.ofBool (cmdStart w) = w := by
  rw [cmdRsv, cmdStart, ofBool_getLsbD,
    BitVec.extractLsb'_append_extractLsb'_eq_extractLsb' (show 4 = 1 + 3 from rfl),
    BitVec.extractLsb'_append_extractLsb'_eq_extractLsb' (show 1 = 0 + 1 from rfl)]
  exact BitVec.extractLsb'_eq_self

/-- Every word is the word of the well-formed command it decodes to (30_encoding.md R86, R88). -/
theorem wf_decode_and_encode_decode (w : Word) : (decode w).wf = true ∧ encode (decode w) = w := by
  have hw := cmd_fields w
  cases hs : cmdStart w
  case false =>
    rw [decode_of_start_clear hs]
    refine ⟨rfl, ?_⟩
    have h := high_append_start w
    rwa [hs] at h
  case true =>
    by_cases hr : cmdRsv w = 0#28
    case neg =>
      rw [decode_of_rsv_set hs hr]
      refine ⟨bne_iff_ne.2 hr, ?_⟩
      have h := rsv_append_low_append_start w
      rwa [hs] at h
    case pos =>
      rw [hs, hr] at hw
      cases hv : variantOfWsel (cmdWsel w) with
      | none =>
        rw [decode_of_wsel_reserved hs hr hv]
        rw [variantOfWsel_eq_none_iff.1 hv] at hw
        exact ⟨rfl, hw⟩
      | some v =>
        rw [decode_of_variant hs hr hv, encode_ofVariant]
        rw [variantOfWsel_eq_some hv] at hw
        exact ⟨wf_ofVariant .., hw⟩

/-- Decoder and encoder are inverse to each other on the well-formed commands. -/
theorem decode_eq_iff {w : Word} {i : Instr} (hi : i.wf = true) : decode w = i ↔ w = encode i := by
  obtain ⟨-, hw⟩ := wf_decode_and_encode_decode w
  refine ⟨fun h => ?_, fun h => ?_⟩
  · rw [← h, hw]
  · rw [h, decode_encode_of_wf hi]

/-- Settles O4, command by command (`decode_encode_of_wf`). -/
theorem decodeOfEncodeIsTheCommand : Obligations.DecodeOfEncodeIsTheCommand :=
  fun _ => decode_encode_of_wf

/-- Settles O5: along the tests of R86 the fields that the command keeps are the whole word. -/
theorem encodeOfDecodeIsTheWord : Obligations.EncodeOfDecodeIsTheWord := wf_decode_and_encode_decode

/-- Settles O1 by running the decoder. -/
theorem fewCommandWordsDecode : Obligations.FewCommandWordsDecode := by
  unfold Obligations.FewCommandWordsDecode
  decide

/-! ### The opcode map as match and mask (30_encoding.md R87) -/

theorem bitVec_append_eq_append_iff {m n : Nat} {x x' : BitVec m} {y y' : BitVec n} :
    x ++ y = x' ++ y' ↔ x = x' ∧ y = y' := by
  refine ⟨fun h => ⟨?_, ?_⟩, fun ⟨hx, hy⟩ => by rw [hx, hy]⟩
  · simpa [BitVec.extractLsb'_append_eq_left] using congrArg (·.extractLsb' n m) h
  · simpa [BitVec.extractLsb'_append_eq_right] using congrArg (·.extractLsb' 0 n) h

/-- Two words are equal exactly when their four fields are. -/
theorem fields_eq_iff {r r' : BitVec 28} {k k' : BitVec 1} {c c' : BitVec 2} {b b' : BitVec 1} :
    (r ++ k ++ c ++ b : Word) = r' ++ k' ++ c' ++ b' ↔ ((r = r' ∧ k = k') ∧ c = c') ∧ b = b' :=
  bitVec_append_eq_append_iff.trans (and_congr_left' (bitVec_append_eq_append_iff.trans
    (and_congr_left' bitVec_append_eq_append_iff)))

/-- The mask of a row of the opcode map leaves out `CHK` alone. -/
theorem and_rowMask (w : Word) :
    w &&& 0xFFFFFFF7#32 = cmdRsv w ++ 0#1 ++ cmdWsel w ++ BitVec.ofBool (cmdStart w) := by
  have hmask : 0xFFFFFFF7#32 = BitVec.allOnes 28 ++ 0#1 ++ BitVec.allOnes 2 ++ BitVec.allOnes 1 := by
    decide
  conv_lhs => rw [← cmd_fields w, hmask]
  refine BitVec.and_append.trans ?_
  simp only [BitVec.and_append, BitVec.and_allOnes, BitVec.and_zero]

theorem and_startMask (w : Word) : w &&& 0x00000001#32 = 0#31 ++ BitVec.ofBool (cmdStart w) := by
  have hmask : 0x00000001#32 = 0#31 ++ BitVec.allOnes 1 := by decide
  conv_lhs => rw [← high_append_start w, hmask]
  refine BitVec.and_append.trans ?_
  simp only [BitVec.and_allOnes, BitVec.and_zero]

theorem and_rsvMask (w : Word) : w &&& 0xFFFFFFF0#32 = cmdRsv w ++ 0#3 ++ 0#1 := by
  have hmask : 0xFFFFFFF0#32 = BitVec.allOnes 28 ++ 0#3 ++ 0#1 := by decide
  conv_lhs => rw [← rsv_append_low_append_start w, hmask]
  refine BitVec.and_append.trans ?_
  simp only [BitVec.and_append, BitVec.and_allOnes, BitVec.and_zero]

/-- A word matches a row with width code `c` exactly when it is that row's word with its own `CHK`. -/
theorem row_matches_iff (w : Word) (c : BitVec 2) :
    w &&& 0xFFFFFFF7#32 = 0#28 ++ 0#1 ++ c ++ 1#1 ↔
      w = 0#28 ++ BitVec.ofBool (cmdChk w) ++ c ++ 1#1 := by
  have hw : w = 0#28 ++ BitVec.ofBool (cmdChk w) ++ c ++ 1#1 ↔
      (cmdRsv w ++ BitVec.ofBool (cmdChk w) ++ cmdWsel w ++ BitVec.ofBool (cmdStart w) : Word) =
        0#28 ++ BitVec.ofBool (cmdChk w) ++ c ++ 1#1 := by rw [cmd_fields]
  rw [and_rowMask, hw, fields_eq_iff, fields_eq_iff]
  simp only [and_true]

theorem start_matches_iff (w : Word) (b : Bool) :
    w &&& 0x00000001#32 = 0#31 ++ BitVec.ofBool b ↔ cmdStart w = b := by
  rw [and_startMask]
  refine (bitVec_append_eq_append_iff (m := 31) (n := 1)).trans ?_
  cases cmdStart w <;> cases b <;> decide

theorem rsv_matches_zero_iff (w : Word) : w &&& 0xFFFFFFF0#32 = 0#32 ↔ cmdRsv w = 0#28 := by
  rw [and_rsvMask, show 0#32 = 0#28 ++ 0#3 ++ 0#1 by decide]
  refine bitVec_append_eq_append_iff.trans ?_
  simp only [bitVec_append_eq_append_iff, and_true]

theorem decode_eq_nop_iff (w : Word) :
    decode w = .nop (w.extractLsb' 1 31) ↔ cmdStart w = false := by
  refine ⟨fun h => ?_, decode_of_start_clear⟩
  rw [(decode_eq_iff rfl).1 h]
  exact Laws.StartBit.nop _

theorem decode_eq_reservedRsv_iff (w : Word) :
    decode w = .reservedRsv (cmdRsv w) (w.extractLsb' 1 3) ↔ cmdStart w = true ∧ cmdRsv w ≠ 0#28 := by
  refine ⟨fun h => ?_, fun ⟨hs, hr⟩ => decode_of_rsv_set hs hr⟩
  have ⟨hwf, henc⟩ := wf_decode_and_encode_decode w
  rw [h] at hwf henc
  refine ⟨?_, bne_iff_ne.1 hwf⟩
  rw [← henc]
  exact Laws.StartBit.reservedRsv _ _

/-- Settles O2: a masked match says which fields the word has, and the decoder is the encoder's inverse. -/
theorem opcodeMapAsMatchAndMask : Obligations.OpcodeMapAsMatchAndMask := by
  intro w
  have hrow (c : BitVec 2) (i : Instr) (hi : i.wf = true)
      (henc : encode i = 0#28 ++ BitVec.ofBool (cmdChk w) ++ c ++ 1#1) :
      w &&& 0xFFFFFFF7#32 = 0#28 ++ 0#1 ++ c ++ 1#1 ↔ decode w = i := by
    rw [decode_eq_iff hi, henc, row_matches_iff]
  refine ⟨hrow 0b00#2 (.applyScalar16 _) rfl rfl, hrow 0b01#2 (.applyComplex32 _) rfl rfl,
    hrow 0b10#2 (.applyComplex64 _) rfl rfl, hrow 0b11#2 (.reservedWsel3 _) rfl rfl, ?_, ?_⟩
  · exact (start_matches_iff w false).trans (decode_eq_nop_iff w).symm
  · exact (and_congr (start_matches_iff w true) (rsv_matches_zero_iff w).not).trans
      (decode_eq_reservedRsv_iff w).symm

/-! ### A write to `CMD` (30_encoding.md R86, R88, R89) -/

theorem hostAccess_cmd (w : Word) (s : State) : hostAccess (.regWrite 0x00 4 w) s = exec (decode w) s :=
  hostAccess_regWrite .cmd w s

theorem exec_nop (rest : BitVec 31) (s : State) : exec (.nop rest) s = .next s := rfl

theorem exec_reservedWsel3 (chk : Bool) (s : State) : exec (.reservedWsel3 chk) s = reservedAttempt s := rfl

theorem exec_reservedRsv (rsv : BitVec 28) (low : BitVec 3) (s : State) :
    exec (.reservedRsv rsv low) s = reservedAttempt s := rfl

theorem reservedAttempt_idle {s : State} (hb : s.busy = false) :
    reservedAttempt s = .next (rejectMode s) := if_neg (by simp [hb])

/-- While `BUSY = 1` every command is ignored (43_engine_common.md R142). -/
theorem exec_busy (i : Instr) {s : State} (hb : s.busy = true) : exec i s = .next s := by
  have hlaunch (v : Variant) (chk : Bool) : exec (Instr.ofVariant v chk) s = .next s := by
    rw [exec_ofVariant]
    exact if_pos hb
  have hreserved : reservedAttempt s = .next s := if_pos hb
  cases i with
  | applyScalar16 chk => exact hlaunch .s16 chk
  | applyComplex32 chk => exact hlaunch .c32 chk
  | applyComplex64 chk => exact hlaunch .c64 chk
  | nop rest => rfl
  | reservedWsel3 chk => exact hreserved
  | reservedRsv rsv low => exact hreserved

/-- A launch attempt on an idle engine is rejected when the variant is not built, else accepted. -/
theorem launch_idle (impl : List Variant) (v : Variant) (chk : Bool) {s : State} (hb : s.busy = false) :
    launch impl v chk s =
      if Config.built impl v = false then .next (rejectMode s)
      else afterAccept v chk (accept v chk s) := by
  rw [launch, if_neg (by simp [hb])]

/-- Settles O3: the decoder makes the tests of R86 on the word, and the command those on the state. -/
theorem commandWriteHasItsOneOutcome : Obligations.CommandWriteHasItsOneOutcome := by
  intro w s
  rw [hostAccess_cmd]
  cases hb : s.busy
  case true => exact exec_busy _ hb
  case false =>
    rw [if_neg Bool.false_ne_true]
    by_cases hs : w.getLsbD 0 = false
    · rw [if_pos hs, decode_of_start_clear hs, exec_nop]
    have hs' : cmdStart w = true := (Bool.not_eq_false _).mp hs
    rw [if_neg hs]
    by_cases hr : w.extractLsb' 4 28 = 0#28
    case neg => rw [if_pos hr, decode_of_rsv_set hs' hr, exec_reservedRsv, reservedAttempt_idle hb]
    rw [if_neg (not_not_intro hr)]
    by_cases hwsel : w.extractLsb' 1 2 = 0b11#2
    · rw [if_pos hwsel, decode_of_wsel_reserved hs' hr (variantOfWsel_eq_none_iff.2 hwsel),
        exec_reservedWsel3, reservedAttempt_idle hb]
    rw [if_neg hwsel]
    cases hv : variantOfWsel (w.extractLsb' 1 2) with
    | none => exact absurd (variantOfWsel_eq_none_iff.1 hv) hwsel
    | some v =>
      rw [decode_of_variant hs' hr hv, exec_ofVariant]
      exact launch_idle _ v _ hb

/-- Settles O6: the command is ignored, and a word with `START = 0` is that command. -/
theorem nopWriteChangesNothing : Obligations.NopWriteChangesNothing := by
  refine ⟨exec_nop, fun w s hs => ?_⟩
  rw [hostAccess_cmd, decode_of_start_clear hs, exec_nop]

theorem built_eq_false {impl : List Variant} {v : Variant} (hv : v ≠ .s16) (hnot : v ∉ impl) :
    Config.built impl v = false := by
  simp [Config.built, hv, hnot]

/-- Settles O7: all of them come to `rejectMode`. -/
theorem reservedLaunchAttemptReportsEMode : Obligations.ReservedLaunchAttemptReportsEMode := by
  intro s hb
  have hreject : reservedAttempt s = .next (rejectMode s) := reservedAttempt_idle hb
  refine ⟨fun w hs hres => ?_, fun _ => hreject, fun _ _ => hreject, fun impl v chk hv hnot => ?_⟩
  · rw [hostAccess_cmd]
    by_cases hr : cmdRsv w = 0#28
    · have hwsel : variantOfWsel (cmdWsel w) = none :=
        variantOfWsel_eq_none_iff.2 (hres.resolve_left (not_not_intro hr))
      rw [decode_of_wsel_reserved hs hr hwsel]
      exact hreject
    · rw [decode_of_rsv_set hs hr]
      exact hreject
  · rw [launch_idle impl v chk hb, if_pos (built_eq_false hv hnot)]
    rfl

end Sys2Proof.Machine
end

section
/-! PROOFS. The way from a table entry to an element, and the single accesses a host sequence is made of:
the poll loop and the pseudo-operations (30_encoding.md sections 4 and 5). -/

namespace Sys2Proof.Machine

/-! ### Normalization (30_encoding.md R91 to R93) -/

theorem normIndex_toNat (v : Variant) (raw : BitVec 16) :
    (normIndex v raw).toNat = raw.toNat / 2 ^ v.shift := by
  rw [normIndex, BitVec.toNat_ushiftRight, Nat.shiftRight_eq_div_pow]

/-- The highest element index grows with the raw value, so no entry names more than `0xFFFF` does. -/
theorem topElem_le_of_le (v : Variant) {raw raw' : BitVec 16} (h : raw.toNat ≤ raw'.toNat) :
    topElem v raw ≤ topElem v raw' := by
  rw [topElem, topElem, elemIndex, elemIndex, normIndex_toNat, normIndex_toNat]
  exact Nat.add_le_add_right (Nat.mul_le_mul_left _ (Nat.div_le_div_right h)) _

/-- Settles O38: `0xFFFF` is the largest raw value, and its indices are these three. -/
theorem indexArithmeticStaysInItsRange : Obligations.IndexArithmeticStaysInItsRange := by
  have hmax (v : Variant) (raw : BitVec 16) : topElem v raw ≤ topElem v 0xFFFF#16 :=
    topElem_le_of_le v (Nat.le_of_lt_succ raw.isLt)
  exact ⟨normIndex_toNat, fun raw => ⟨hmax .s16 raw, hmax .c32 raw, hmax .c64 raw⟩, rfl, rfl, rfl⟩

/-! ### One access of the host is one step -/

section
variable {s : State} {x : Input} {rest : List Input}

theorem step_access_idle (hx : s.inputs = x :: rest) (hb : s.busy = false) :
    step s = hostAccess x { s with inputs := rest } := by
  rw [step, if_neg (by simp [hb]), hostTurn, hx]

theorem step_access_busy {turns : List Turn} (hx : s.inputs = x :: rest) (hb : s.busy = true)
    (hs : s.sched = .host :: turns) :
    step s = hostAccess x { s with inputs := rest, sched := turns } := by
  rw [step, if_pos hb, hs]
  simp only [hostTurn, hx]

end

/-! ### The poll loop (30_encoding.md R95) -/

theorem statusWord_busy (e : Engine) : e.statusWord.getLsbD 0 = e.busy := by
  obtain ⟨hbusy, -⟩ := statusWord_fields e.status.err.code e.status.done e.busy
  exact hbusy

section
variable {s : State} {rest : List Input}

/-- The poll of an idle engine replies `STATUS`, ends, and closes the loans. -/
theorem step_poll_idle (hx : s.inputs = .poll :: rest) (hb : s.busy = false) :
    step s = .next { s with
      inputs := rest, loans := [], replies := .register .status s.eng.statusWord :: s.replies } := by
  have hb' : State.busy { s with inputs := rest } = false := hb
  rw [step_access_idle hx hb, hostAccess, hostPoll_idle hb', hostRead_idle _ hb']
  rfl

/-- The poll of a busy engine replies `STATUS` and stays the next access. -/
theorem step_poll_busy {turns : List Turn} (hx : s.inputs = .poll :: rest) (hb : s.busy = true)
    (hs : s.sched = .host :: turns) :
    step s = .next
      { s with sched := turns, replies := .register .status s.eng.statusWord :: s.replies } := by
  have hb' : State.busy { s with inputs := rest, sched := turns } = true := hb
  rw [step_access_busy hx hb hs, hostAccess, hostPoll_busy hb', hx]
  simp [hostRead, hostReadWord_status, hb']

end

/-- Settles O58: on the host's turn the poll reads `STATUS`, whose bit 0 is `BUSY`. -/
theorem pollStaysUntilTheEngineIsIdle : Obligations.PollStaysUntilTheEngineIsIdle := fun s _ hx =>
  ⟨fun _ hb hs => ⟨(statusWord_busy s.eng).trans hb, step_poll_busy hx hb hs⟩,
    fun hb => ⟨(statusWord_busy s.eng).trans hb, step_poll_idle hx hb⟩⟩

/-! ### The pseudo-operations (30_encoding.md R96) -/

theorem variantOfWidth_width (v : Variant) : variantOfWidth v.width = some v := by
  cases v <;> rfl

theorem variantOfWidth_other {width : Nat} (h : width ∉ [16, 32, 64]) : variantOfWidth width = none := by
  simp only [List.mem_cons, List.not_mem_nil, or_false, not_or] at h
  obtain ⟨h16, h32, h64⟩ := h
  rw [variantOfWidth, if_neg h16, if_neg h32, if_neg h64]

/-- Settles O59: the call goes by the width of the variant, and the write of 0 is a no-operation. -/
theorem pseudoOperationsStandForTheirAccesses : Obligations.PseudoOperationsStandForTheirAccesses := by
  refine ⟨fun chk bufBase nElem tabBase tabLen n => ⟨fun p hp => ?_, fun width hw => ?_⟩, rfl,
    fun s rest hb hx => ⟨rfl, ?_⟩⟩
  · have hwidth : p.1 = p.2.width := by
      simp only [List.mem_cons, List.not_mem_nil, or_false] at hp
      obtain rfl | rfl | rfl := hp <;> rfl
    rw [hwidth]
    simp only [Call.ofWidth, variantOfWidth_width, Option.map_some, Option.getD_some, Option.getD_none,
      and_self]
  · simp only [Call.ofWidth, variantOfWidth_other hw, Option.map_none, and_self]
  · have hdecode : decode 0#32 = .nop 0#31 := by decide
    rw [step_regWrite_cmd_idle (rest := rest) hx hb, hdecode, exec_nop]

end Sys2Proof.Machine
end

section
/-! PROOFS. The end of an operation (43_engine_common.md R140, R147, R151): the engine takes a bounded
number of steps, a running operation always takes its next one, and a valid launch ends with the buffer of
the routine. -/

namespace Sys2Proof.Machine

/-! ### How many steps are left (43_engine_common.md R151) -/

/-- Steps of the permute pass from the start of a pair at entry `c` of `n`: ten at most for each pair, and
the completion. -/
def pairsStepsLeft (n c : Nat) : Nat := 10 * ((n - c + 1) / 2) + 1

/-- Steps of the pair in progress from inside it, at component `k`; none at its start. -/
def pairStepsLeft (k : BitVec 1) : Stage → Nat
  | .readA | .testEntry | .nextEntry => 0
  | .readB => 9
  | .loadA => 8 - 4 * k.toNat
  | .loadB => 7 - 4 * k.toNat
  | .storeA => 6 - 4 * k.toNat
  | .storeB => 5 - 4 * k.toNat

/-- Steps of the permute pass: the rest of the pair in progress, and the pairs after it. -/
def permuteStepsLeft (e : Engine) : Nat :=
  match e.stage with
  | .readA | .testEntry | .nextEntry => pairsStepsLeft e.count e.cursor.toNat
  | g => pairStepsLeft e.tmp.k g + pairsStepsLeft e.count (e.cursor + 2#17).toNat

/-- No more engine steps than this come before the engine is idle, from any state: in the validation pass
one for each entry from the one to be tested, and the permute pass after it. -/
def stepsLeft (s : State) : Nat :=
  match s.eng.phase with
  | .idle => 0
  | .validate => s.eng.count - (atEntry s).eng.cursor.toNat + 1 + pairsStepsLeft s.eng.count 0
  | .permute => permuteStepsLeft s.eng

theorem stepsLeft_of_idle {s : State} (h : s.busy = false) : stepsLeft s = 0 := by
  rw [stepsLeft, (State.busy_false_iff s).1 h]

theorem stepsLeft_of_permute {s : State} (h : s.eng.phase = .permute) :
    stepsLeft s = permuteStepsLeft s.eng := by
  rw [stepsLeft, h]

theorem stepsLeft_of_validate {s : State} (h : s.eng.phase = .validate) :
    stepsLeft s = s.eng.count - (atEntry s).eng.cursor.toNat + 1 + pairsStepsLeft s.eng.count 0 := by
  rw [stepsLeft, h]

/-- The fuel of the atomic view is enough (43_engine_common.md R148). -/
theorem stepsLeft_le_engineFuel (s : State) : stepsLeft s ≤ engineFuel s := by
  have hpairs (c : Nat) : pairsStepsLeft s.eng.count c ≤ 5 * s.eng.count + 6 := by
    rw [pairsStepsLeft]
    omega
  have hpair (g : Stage) : pairStepsLeft s.eng.tmp.k g ≤ 9 := by
    cases g <;> simp only [pairStepsLeft] <;> omega
  unfold engineFuel
  cases hp : s.eng.phase
  case idle =>
    rw [stepsLeft_of_idle ((State.busy_false_iff s).2 hp)]
    omega
  case validate =>
    rw [stepsLeft_of_validate hp]
    have := hpairs 0
    omega
  case permute =>
    rw [stepsLeft_of_permute hp, permuteStepsLeft]
    split
    case h_4 =>
      have := hpair s.eng.stage
      have := hpairs (s.eng.cursor + 2#17).toNat
      omega
    all_goals
      have := hpairs s.eng.cursor.toNat
      omega

theorem permuteStepsLeft_of_pairStart {s : State} (h : atPairStart s) :
    permuteStepsLeft s.eng = pairsStepsLeft s.eng.count s.eng.cursor.toNat := by
  obtain h | h | h := h <;> rw [permuteStepsLeft, h]

@[simp] theorem putB_phase (v : Variant) (s : State) : (putB v s).eng.phase = s.eng.phase := by
  unfold putB exchangeDone
  split <;> rfl

/-- Each step of the validation pass uses up at least one step. -/
theorem validateStep_stepsLeft_lt {v : Variant} {s t : State} (hp : s.eng.phase = .validate)
    (h : validateStep v s = .next t) : stepsLeft t < stepsLeft s := by
  rw [stepsLeft_of_validate hp]
  obtain ⟨-, hops, -⟩ := sameOperation_atEntry s
  have hcount := count_congr hops
  obtain ⟨-, ⟨-, rfl⟩ | ⟨-, -, rfl⟩ | ⟨-, hmore, rfl⟩⟩ := validateStep_next h
  · rw [stepsLeft_of_idle rfl]
    omega
  · rw [stepsLeft_of_permute rfl, permuteStepsLeft_of_pairStart (.inl rfl)]
    show pairsStepsLeft (atEntry s).eng.count 0 < _
    rw [hcount]
    omega
  · have := s.eng.count_lt
    have hnext : ((atEntry s).eng.cursor + 1#17).toNat = (atEntry s).eng.cursor.toNat + 1 := by
      rw [BitVec.toNat_add, BitVec.toNat_ofNat]
      omega
    have hphase : (((atEntry s).log (.readEntry (atEntry s).eng.cursor.toNat)).setStage
        .nextEntry).eng.phase = .validate := (atEntry_phase s).trans hp
    rw [stepsLeft_of_validate hphase]
    show (atEntry s).eng.count - ((atEntry s).eng.cursor + 1#17).toNat + 1 +
      pairsStepsLeft (atEntry s).eng.count 0 < _
    rw [hcount, hnext]
    omega

/-- After the exchange of one component the next component or the next pair is left. -/
theorem exchangeDone_permuteStepsLeft_lt (v : Variant) (s : State) :
    permuteStepsLeft (exchangeDone v s).eng <
      5 - 4 * s.eng.tmp.k.toNat + pairsStepsLeft s.eng.count (s.eng.cursor + 2#17).toNat := by
  have hk := s.eng.tmp.k.isLt
  unfold exchangeDone
  split
  case isTrue hnext =>
    have hg := Variant.group_le v
    have hk1 : (s.eng.tmp.k + 1#1).toNat = s.eng.tmp.k.toNat + 1 := by
      rw [BitVec.toNat_add, BitVec.toNat_ofNat]
      omega
    show 8 - 4 * (s.eng.tmp.k + 1#1).toNat + _ < _
    rw [hk1]
    exact Nat.add_lt_add_right (by omega) _
  case isFalse => exact Nat.lt_add_of_pos_left (by omega)

/-- Each step of the permute pass uses up at least one step. -/
theorem permuteStep_stepsLeft_lt {v : Variant} {s t : State} (hp : s.eng.phase = .permute)
    (h : permuteStep v s = .next t) : stepsLeft t < stepsLeft s := by
  rw [stepsLeft_of_permute hp]
  have hk := s.eng.tmp.k.isLt
  have hin {u : State} {n : Nat} (hu : u.eng.phase = .permute) (hlt : permuteStepsLeft u.eng < n) :
      stepsLeft u < n := by rwa [stepsLeft_of_permute hu]
  obtain ⟨hg, -, rfl⟩ | ⟨hg, hc, -, rfl⟩ | ⟨hg, -, rfl⟩ | ⟨hg, -, rfl⟩ | ⟨hg, -, rfl⟩ | ⟨hg, -, -, rfl⟩ |
    ⟨hg, -, -, rfl⟩ := permuteStep_next h
  · rw [stepsLeft_of_idle rfl, permuteStepsLeft_of_pairStart hg]
    exact Nat.succ_pos _
  · rw [permuteStepsLeft_of_pairStart hg]
    refine hin hp ?_
    have := s.eng.count_lt
    have hnext : (s.eng.cursor + 2#17).toNat = s.eng.cursor.toNat + 2 := by
      rw [BitVec.toNat_add, BitVec.toNat_ofNat]
      omega
    show 9 + pairsStepsLeft s.eng.count (s.eng.cursor + 2#17).toNat < _
    rw [hnext, pairsStepsLeft, pairsStepsLeft]
    omega
  all_goals rw [permuteStepsLeft, hg]
  · exact hin hp (Nat.add_lt_add_right (show 8 < 9 by decide) _)
  · exact hin hp (Nat.add_lt_add_right
      (show 7 - 4 * s.eng.tmp.k.toNat < 8 - 4 * s.eng.tmp.k.toNat by omega) _)
  · exact hin hp (Nat.add_lt_add_right
      (show 6 - 4 * s.eng.tmp.k.toNat < 7 - 4 * s.eng.tmp.k.toNat by omega) _)
  · exact hin hp (Nat.add_lt_add_right
      (show 5 - 4 * s.eng.tmp.k.toNat < 6 - 4 * s.eng.tmp.k.toNat by omega) _)
  · exact hin ((putB_phase v s).trans hp) (exchangeDone_permuteStepsLeft_lt v
      ((s.setMem (setBufElem v s.eng s.mem (sideB v s.eng) s.eng.tmp.t0)).log (.writeElem (sideB v s.eng))))

/-- Each step of a busy engine uses up at least one step. -/
theorem engineStep_stepsLeft_lt {s t : State} (hb : s.busy = true) (h : engineStep s = .next t) :
    stepsLeft t < stepsLeft s := by
  obtain ⟨hp, -⟩ | ⟨v, hp, -, h⟩ | ⟨v, hp, -, h⟩ := engineStep_next h
  · rw [(State.busy_false_iff s).2 hp] at hb
    cases hb
  · exact validateStep_stepsLeft_lt hp h
  · exact permuteStep_stepsLeft_lt hp h

/-- An engine that always takes its next step, and keeps `P` in doing so, ends its run idle with `P`. -/
theorem engineRun_ends {P : State → Prop}
    (hstep : ∀ s, P s → s.busy = true → ∃ t, engineStep s = .next t ∧ P t) {s : State} {f : Nat}
    (hs : P s) (hf : stepsLeft s ≤ f) : ∃ t, engineRun f s = .next t ∧ t.busy = false ∧ P t := by
  induction f generalizing s with
  | zero =>
    cases hb : s.busy
    case false => exact ⟨s, rfl, hb, hs⟩
    case true =>
      obtain ⟨t, ht, -⟩ := hstep s hs hb
      have := engineStep_stepsLeft_lt hb ht
      omega
  | succ f ih =>
    cases hb : s.busy
    case false => exact ⟨s, engineRun_idle hb _, hb, hs⟩
    case true =>
      obtain ⟨t, ht, hPt⟩ := hstep s hs hb
      have := engineStep_stepsLeft_lt hb ht
      rw [engineRun_step hb ht]
      exact ih hPt (by omega)

/-! ### A running operation takes its next step (60_exceptions.md R170) -/

theorem validateStep_answers {v : Variant} {s : State}
    (hj : (atEntry s).eng.cursor.toNat < s.eng.tabLen.toNat) (hsp : spansInSpace v s.eng = true) :
    ∃ t, validateStep v s = .next t := by
  have ⟨_, hops, _⟩ := sameOperation_atEntry s
  have ⟨_, _, _, htabLen, _⟩ := hops
  have ha := entry_in_space hsp hj
  rw [← htabLen] at hj
  rw [← entryAddr_congr hops] at ha
  rw [validateStep_eq, readEntry_ok hj ha]
  obtain ⟨-, he⟩ | ⟨-, -, he⟩ | ⟨-, -, he⟩ := entryTested_cases v
    (tabEntry (atEntry s).eng (atEntry s).mem (atEntry s).eng.cursor.toNat)
    ((atEntry s).log (.readEntry (atEntry s).eng.cursor.toNat)) <;> exact ⟨_, he⟩

section
variable {s t : State} {l : Lease}

/-- The entry to be tested is one of the operation's. -/
theorem Validating.atEntry_lt_count (hv : Validating s l) (hr : Running s l) :
    (atEntry s).eng.cursor.toNat < s.eng.count := by
  have hn := hr.nonzero
  obtain ⟨hg, hcur⟩ | ⟨hg, hc⟩ := hv.stage
  · rw [atEntry, if_neg (by simp [hg]), hcur]
    exact Nat.pos_of_ne_zero hn
  · have := s.eng.count_lt
    simp only [atEntry, hg, if_true, setCursor_cursor, BitVec.toNat_add, BitVec.toNat_ofNat]
    omega

/-- An element that an entry of the operation names is in the buffer. -/
theorem Permuting.elem_lt (hp : Permuting s l) {j k : Nat} (hj : j < s.eng.count)
    (hk : k < l.variant.group) :
    elemIndex l.variant (normIndex l.variant (tabEntry s.eng s.mem j)) k < s.eng.nElem.toNat :=
  Nat.lt_of_le_of_lt (elemIndex_le_topElem _ _ hk)
    (entryInRange_iff.1 (allInRange_iff.1 hp.inRange j hj))

theorem Permuting.sideA_lt (hp : Permuting s l) (hc : s.eng.cursor.toNat < s.eng.count)
    (hA : holdsA l.variant s) (hB : holdsB l.variant s) :
    sideA l.variant s.eng < s.eng.nElem.toNat := by
  obtain ⟨hraw, ha⟩ := hA
  obtain ⟨-, -, hk⟩ := hB
  rw [sideA, ha, hraw]
  exact hp.elem_lt hc hk

theorem Permuting.sideB_lt (hp : Permuting s l) (hr : Running s l)
    (hc : s.eng.cursor.toNat < s.eng.count) (hB : holdsB l.variant s) :
    sideB l.variant s.eng < s.eng.nElem.toNat := by
  obtain ⟨hraw, hb, hk⟩ := hB
  rw [sideB, hb, hraw]
  exact hp.elem_lt (hp.pair_lt_count hr hc) hk

theorem Permuting.answers (hp : Permuting s l) (hr : Running s l) :
    ∃ t, permuteStep l.variant s = .next t := by
  obtain ⟨hsp, -, -⟩ := hr.spans
  have hprog := hp.progress
  have hentry {j : Nat} (hj : j < s.eng.count) :
      j < s.eng.tabLen.toNat ∧ entryAddr s.eng j + 2 ≤ Config.addrSpace := by
    rw [hr.count_eq_tabLen] at hj
    exact ⟨hj, entry_in_space hsp hj⟩
  unfold pairProgress at hprog
  cases hg : s.eng.stage <;> simp only [hg] at hprog
  case readA =>
    by_cases hc : s.eng.count ≤ s.eng.cursor.toNat
    · exact ⟨_, permuteStep_complete hg hc⟩
    · have hc' := Nat.lt_of_not_le hc
      obtain ⟨hj, ha⟩ := hentry hc'
      exact ⟨_, permuteStep_readA hg hc' hj ha⟩
  case readB =>
    obtain ⟨hc, -⟩ := hprog
    obtain ⟨hj, ha⟩ := hentry (hp.pair_lt_count hr hc)
    exact ⟨_, permuteStep_readB hg hj ha⟩
  all_goals
    obtain ⟨hc, hA, hB, -⟩ := hprog
    have hkA := hp.sideA_lt hc hA hB
    have hkB := hp.sideB_lt hr hc hB
  case loadA => exact ⟨_, permuteStep_loadA hg hkA (elem_in_space hsp hkA)⟩
  case loadB => exact ⟨_, permuteStep_loadB hg hkB (elem_in_space hsp hkB)⟩
  case storeA => exact ⟨_, permuteStep_storeA hg hkA (elem_in_space hsp hkA)⟩
  case storeB => exact ⟨_, permuteStep_storeB hg hkB (elem_in_space hsp hkB)⟩

/-- A running operation never stops the machine. -/
theorem Running.answers (hr : Running s l) : ∃ t, engineStep s = .next t := by
  obtain hv | hp := hr.pass
  · rw [engineStep_validate hv.phase hr.variant]
    obtain ⟨hsp, -, -⟩ := hr.spans
    exact validateStep_answers (hr.count_eq_tabLen ▸ hv.atEntry_lt_count hr) hsp
  · rw [engineStep_permute hp.phase hr.variant]
    exact hp.answers hr

/-! ### The end of an operation whose entries are all in range (43_engine_common.md R145, R147) -/

/-- The operation of a loan is at its good end: the buffer is the routine's, the table and the operands
are as they were lent. -/
structure Completed (s : State) (l : Lease) : Prop where
  good     : goodEnd s
  mem_wf   : s.mem.wf
  operands : sameOperands l.eng s.eng
  cursor   : s.eng.cursor.toNat = l.eng.count
  table    : ∀ j, j < l.eng.count → tabEntry s.eng s.mem j = tabEntry l.eng l.mem j
  buffer   : bufferIs l.variant s (bufAfter l.variant l.eng l.mem (l.eng.count / 2))

/-- The lent table is the one in use, so its entries are in range for the engine too. -/
theorem Running.allInRange_of_lent (hr : Running s l) (hin : allInRange l.variant l.eng l.mem = true) :
    allInRange l.variant s.eng s.mem = true := by
  rw [allInRange_congr hr.operands]
  refine allInRange_mem_congr (fun j hj => ?_) hin
  rw [← tabEntry_congr hr.operands]
  exact hr.table j (by rwa [count_congr hr.operands])

/-- A step of the validation pass ends the operation at an offending entry only. -/
theorem validateStep_ends {v : Variant} (hb : s.busy = true) (h : validateStep v s = .next t)
    (hidle : t.busy = false) : entryInRange v s.eng s.mem (atEntry s).eng.cursor.toNat = false := by
  obtain ⟨-, ⟨hout, -⟩ | ⟨-, -, rfl⟩ | ⟨-, -, rfl⟩⟩ := validateStep_next h
  · exact decide_eq_false (Nat.not_lt.2 hout)
  · cases hidle
  · have hbusy : (atEntry s).busy = true := by
      rw [State.busy_eq_phase, atEntry_phase]
      exact hb
    exact absurd hbusy (by rw [show (atEntry s).busy = false from hidle]; decide)

/-- A step of the permute pass ends the operation at the end of the table only. -/
theorem permuteStep_ends {v : Variant} (hb : s.busy = true) (h : permuteStep v s = .next t)
    (hidle : t.busy = false) :
    atPairStart s ∧ s.eng.count ≤ s.eng.cursor.toNat ∧ t = complete s := by
  have hsame : t.busy ≠ s.busy := by simp [hidle, hb]
  obtain hend | ⟨-, -, -, rfl⟩ | ⟨-, -, rfl⟩ | ⟨-, -, rfl⟩ | ⟨-, -, rfl⟩ | ⟨-, -, -, rfl⟩ |
    ⟨-, -, -, rfl⟩ := permuteStep_next h
  · exact hend
  any_goals exact absurd rfl hsame
  exact absurd (putB_busy v s) hsame

/-- The completion of a permute pass leaves the buffer of the routine. -/
theorem Permuting.completed (hp : Permuting s l) (hr : Running s l) (hm : s.mem.wf)
    (hok : statusOk s.eng) (hg : atPairStart s) (hc : s.eng.count ≤ s.eng.cursor.toNat) :
    Completed (complete s) l := by
  have hcur : s.eng.cursor.toNat = s.eng.count := Nat.le_antisymm hp.bounded hc
  have hcount := count_congr hr.operands
  obtain ⟨hbusy, -⟩ := hok
  obtain ⟨-, herr⟩ := hbusy hr.busy
  have hprog := hp.progress
  simp only [pairProgress, hp.stage_readA hg] at hprog
  rw [hcur, hcount] at hprog
  exact
    { good := ⟨rfl, rfl, herr⟩
      mem_wf := hm
      operands := hr.operands
      cursor := hcur.trans hcount
      table := fun j hj => hr.table j (by rwa [hcount])
      buffer := hprog }

/-- Where an operation stands that cannot fail: it runs, or it is at its good end. -/
def OnCourse (l : Lease) (s : State) : Prop :=
  (s.mem.wf ∧ statusOk s.eng ∧ Running s l) ∨ Completed s l

/-- With every entry in range a running operation goes on, or comes to its good end. -/
theorem Running.step_onCourse (hr : Running s l) (hm : s.mem.wf) (hok : statusOk s.eng)
    (hin : allInRange l.variant l.eng l.mem = true) (h : engineStep s = .next t) : OnCourse l t := by
  have hb := hr.busy
  obtain ⟨hm', ⟨hidle, -⟩ | hr'⟩ := hr.step hm h
  case inr => exact .inl ⟨hm', engineStep_statusOk hok hb h, hr'⟩
  obtain hv | hp := hr.pass
  · rw [engineStep_validate hv.phase hr.variant] at h
    have hentry := allInRange_iff.1 (hr.allInRange_of_lent hin) _ (hv.atEntry_lt_count hr)
    rw [validateStep_ends hb h hidle] at hentry
    cases hentry
  · rw [engineStep_permute hp.phase hr.variant] at h
    obtain ⟨hg, hc, rfl⟩ := permuteStep_ends hb h hidle
    exact .inr (hp.completed hr hm hok hg hc)

/-- The atomic view of an operation whose entries are all in range ends at its good end
(43_engine_common.md R148). -/
theorem Running.runToEnd_completes (hr : Running s l) (hm : s.mem.wf) (hok : statusOk s.eng)
    (hin : allInRange l.variant l.eng l.mem = true) :
    ∃ t, runToEnd s = .next t ∧ sameOperation s t ∧ Completed t l := by
  have hstep (u : State) (hu : OnCourse l u) (hb : u.busy = true) :
      ∃ w, engineStep u = .next w ∧ OnCourse l w := by
    obtain ⟨hm', hok', hr'⟩ | hdone := hu
    · obtain ⟨w, hw⟩ := hr'.answers
      exact ⟨w, hw, hr'.step_onCourse hm' hok' hin hw⟩
    · obtain ⟨hidle, -⟩ := hdone.good
      rw [hidle] at hb
      cases hb
  obtain ⟨t, ht, hidle, ⟨-, -, hr'⟩ | hdone⟩ :=
    engineRun_ends hstep (.inl ⟨hm, hok, hr⟩) (stepsLeft_le_engineFuel s)
  · rw [hr'.busy] at hidle
    cases hidle
  · exact ⟨t, ht, engineRun_sameOperation ht, hdone⟩

end

theorem contractHolds_iff {v : Variant} {e : Engine} {m : Memory} :
    contractHolds v e m = true ↔ e.count ≠ 0 ∧ aligned v e = true ∧ oddCount e = false ∧
      lengthMatches e = true ∧ allInRange v e m = true := by
  simp [contractHolds, and_assoc]

/-- The loan of a launch of variant `v` from `s`. -/
def launchLease (v : Variant) (chk : Bool) (s : State) : Lease :=
  { variant := v, eng := (accept v chk s).eng, mem := s.mem }

/-- A valid launch in the atomic view, checked or not, comes to its good end (43_engine_common.md R148). -/
theorem validLaunch.completes {v : Variant} {s : State} (h : validLaunch v s) (chk : Bool) (hm : s.mem.wf)
    (hs : s.sched = []) :
    ∃ t, exec (Instr.ofVariant v chk) s = .next t ∧ sameOperation (accept v chk s) t ∧
      Completed t (launchLease v chk s) := by
  have hin : allInRange v s.eng s.mem = true := by
    obtain ⟨-, hc, -⟩ := h
    obtain ⟨-, -, -, -, hin⟩ := contractHolds_iff.1 hc
    exact hin
  have hrun : exec (Instr.ofVariant v chk) s = runToEnd (accept v chk s) := by
    rw [exec_ofVariant, launch_valid chk (built_implVariants v) h, runUnlessScheduled, accept_sched, hs]
  rw [hrun]
  exact (running_accept hm (h.launchRuns chk)).runToEnd_completes hm (statusOk_accept v chk s) hin

/-- The buffer at the end of a launch is the routine's of the buffer and the table at the launch
(43_engine_common.md R145). -/
theorem Completed.bufElem_eq_apply {v : Variant} {chk : Bool} {s t : State}
    (h : Completed t (launchLease v chk s)) {k : Nat} (hk : k < s.eng.nElem.toNat) :
    bufElem v t.eng t.mem k =
      apply v.shift v.group (bufElem v s.eng s.mem) (tabEntry s.eng s.mem) s.eng.count k := by
  have ⟨_, hn, _⟩ := h.operands
  exact h.buffer k (by rw [hn]; exact hk)

end Sys2Proof.Machine
end

section
/-! PROOFS. The discarded low bits of the table, and the call of the host (30_encoding.md sections 4
and 5). -/

namespace Sys2Proof.Machine

/-! ### What the routine depends on (30_encoding.md R91) -/

section
variable {α : Type} {N : Nat} {B B' : Nat → α}

theorem swapElems_congr_below {k1 k2 : Nat} (h1 : k1 < N) (h2 : k2 < N) (hB : ∀ k, k < N → B' k = B k) :
    ∀ k, k < N → swapElems B' k1 k2 k = swapElems B k1 k2 k := by
  intro k hk
  unfold swapElems
  rw [hB k1 h1, hB k2 h2, hB k hk]

theorem exchangeComponents_congr_below {g a b c : Nat} (ha : g * a + c ≤ N) (hb : g * b + c ≤ N)
    (hB : ∀ k, k < N → B' k = B k) :
    ∀ k, k < N → exchangeComponents g a b c B' k = exchangeComponents g a b c B k := by
  induction c with
  | zero => exact hB
  | succ c ih => exact swapElems_congr_below ha hb (ih (Nat.le_of_succ_le ha) (Nat.le_of_succ_le hb))

/-- On a buffer of `N` elements, with every entry in range, the routine depends on those elements and on
the normalized entries only. -/
theorem applyPairs_congr_below {sh g p : Nat} {T T' : Nat → BitVec 16}
    (hT : ∀ j, j < 2 * p → T' j >>> sh = T j >>> sh)
    (hin : ∀ j, j < 2 * p → g * (T j >>> sh).toNat + g ≤ N) (hB : ∀ k, k < N → B' k = B k) :
    ∀ k, k < N → applyPairs sh g B' T' p k = applyPairs sh g B T p k := by
  induction p with
  | zero => exact hB
  | succ p ih =>
    rw [applyPairs_succ, applyPairs_succ, pairExchange, pairExchange, hT (2 * p) (by omega),
      hT (2 * p + 1) (by omega)]
    exact exchangeComponents_congr_below (hin (2 * p) (by omega)) (hin (2 * p + 1) (by omega))
      (ih (fun j hj => hT j (by omega)) fun j hj => hin j (by omega))

end

/-- Raw values with the same quotient by `2^sh` name the same elements. -/
theorem normIndex_eq_of_quotient {v : Variant} {raw raw' : BitVec 16}
    (h : raw'.toNat / 2 ^ v.shift = raw.toNat / 2 ^ v.shift) : normIndex v raw' = normIndex v raw :=
  BitVec.eq_of_toNat_eq (by rw [normIndex_toNat, normIndex_toNat, h])

theorem allInRange_of_sameIndices {v : Variant} {e : Engine} {m m' : Memory}
    (hT : ∀ j, j < e.count → normIndex v (tabEntry e m' j) = normIndex v (tabEntry e m j))
    (h : allInRange v e m = true) : allInRange v e m' = true :=
  allInRange_iff.2 fun j hj => by
    rw [entryInRange, topElem, hT j hj]
    exact allInRange_iff.1 h j hj

/-- A valid launch stays valid when the table changes in the discarded bits alone. -/
theorem validLaunch.of_sameIndices {v : Variant} {s s' : State} (h : validLaunch v s)
    (he : s'.eng = s.eng) (hplat : s'.platform = s.platform)
    (hT : ∀ j, j < s.eng.count →
      normIndex v (tabEntry s.eng s'.mem j) = normIndex v (tabEntry s.eng s.mem j)) :
    validLaunch v s' := by
  obtain ⟨hb, hc, hsp⟩ := h
  obtain ⟨hn, hal, hev, hlen, hin⟩ := contractHolds_iff.1 hc
  rw [validLaunch, spansGood, State.busy, he, hplat]
  exact ⟨hb, contractHolds_iff.2 ⟨hn, hal, hev, hlen, allInRange_of_sameIndices hT hin⟩, hsp⟩

/-- An entry in range names whole samples inside the buffer. -/
theorem sample_le_of_inRange {v : Variant} {e : Engine} {m : Memory} {j : Nat}
    (h : entryInRange v e m j = true) :
    v.group * (normIndex v (tabEntry e m j)).toNat + v.group ≤ e.nElem.toNat := by
  have hlt := entryInRange_iff.1 h
  have hg := Variant.group_pos v
  unfold topElem elemIndex at hlt
  omega

/-- Settles O37: both launches end with the routine's buffer, and the routine looks at the normalized
entries only. -/
theorem discardedBitsHaveNoEffect : Obligations.DiscardedBitsHaveNoEffect := by
  intro v chk s s' hm hm' hvalid he hplat hs hs' hT hB
  rw [he] at hT hB
  have hnorm (j : Nat) (hj : j < s.eng.count) :
      normIndex v (tabEntry s.eng s'.mem j) = normIndex v (tabEntry s.eng s.mem j) :=
    normIndex_eq_of_quotient (hT j hj)
  have hvalid' := hvalid.of_sameIndices he hplat hnorm
  obtain ⟨t, ht, -, hdone⟩ := hvalid.completes chk hm hs
  obtain ⟨t', ht', -, hdone'⟩ := hvalid'.completes chk hm' hs'
  refine ⟨t, t', ht, ht', hdone.good, hdone'.good, fun k hk => ?_⟩
  rw [hdone.bufElem_eq_apply hk, hdone'.bufElem_eq_apply (he ▸ hk), he]
  obtain ⟨-, hc, -⟩ := hvalid
  obtain ⟨-, -, -, -, hin⟩ := contractHolds_iff.1 hc
  exact applyPairs_congr_below (fun j hj => hnorm j (by omega))
    (fun j hj => sample_le_of_inRange (allInRange_iff.1 hin j (by omega))) hB k hk

/-! ### The call (30_encoding.md R95) -/

theorem run_step {M : Host.Core} {s t : M.State} (h : M.step s = .next t) (k : Nat) :
    M.run (k + 1) s = M.run k t := by
  rw [Host.Core.run, h]

/-- The operand writes of a call, in the order of R95. -/
def Call.operands (c : Call) : List (Reg × Word) :=
  [(.bufBase, c.bufBase), (.nElem, c.nElem), (.tabBase, c.tabBase), (.tabLen, c.tabLen),
    (.bitRevLen, c.count)]

/-- The host's write of a word to a register. -/
def writeAccess (p : Reg × Word) : Input := .regWrite p.1.offset 4 p.2

/-- The engine after host writes to its registers, one after the other. -/
def Engine.writeRegs (e : Engine) (ws : List (Reg × Word)) : Engine :=
  ws.foldl (fun e p => e.writeReg p.1 p.2) e

theorem Call.inputs_eq (c : Call) :
    c.inputs = c.operands.map writeAccess ++ [.regWrite 0x00 4 (launchWord c.variant c.chk), .poll] := rfl

theorem Engine.writeRegs_operands (e : Engine) (c : Call) :
    e.writeRegs c.operands =
      { e with
        bufBase := c.bufBase, nElem := c.nElem, tabBase := c.tabBase, tabLen := c.tabLen,
        bitRevLen := c.count.setWidth 16 } := rfl

/-- An idle engine takes a list of register writes, one step each (10_state.md R33). -/
theorem run_writes {ws : List (Reg × Word)} (hws : ∀ p, p ∈ ws → p.1 ≠ .cmd) {s : State}
    {rest : List Input} (hx : s.inputs = ws.map writeAccess ++ rest) (hb : s.busy = false) (k : Nat) :
    (Host.Core.run Sys2Proof.core (k + ws.length) s : Outcome) =
      Host.Core.run Sys2Proof.core k { s with inputs := rest, eng := s.eng.writeRegs ws } := by
  induction ws generalizing s with
  | nil =>
    obtain rfl : s.inputs = rest := hx
    rfl
  | cons p ws ih =>
    have hp := hws p List.mem_cons_self
    have hstep : step s =
        .next { s with inputs := ws.map writeAccess ++ rest, eng := s.eng.writeReg p.1 p.2 } := by
      rw [step_access_idle (rest := ws.map writeAccess ++ rest) hx hb, writeAccess, hostAccess_regWrite]
      exact hostWrite_idle (s := { s with inputs := ws.map writeAccess ++ rest }) hp hb _
    have hb' : (s.eng.writeReg p.1 p.2).busy = false := (s.eng.writeReg_busy p.1 p.2).trans hb
    rw [List.length_cons, ← Nat.add_assoc, run_step (M := Sys2Proof.core) hstep]
    exact ih (fun q hq => hws q (List.mem_cons_of_mem _ hq)) rfl hb'

theorem goodEnd.statusWord {s : State} (h : goodEnd s) : s.eng.statusWord = 0x00000002#32 := by
  obtain ⟨hb, hdone, herr⟩ := h
  have hb' : s.eng.busy = false := hb
  rw [Engine.statusWord, hb', hdone, herr]
  decide

/-- Settles O56: five operand writes, the launch in the atomic view, and the poll of an idle engine. -/
theorem callSequenceRunsToItsEnd : Obligations.CallSequenceRunsToItsEnd := by
  intro c s rest hm hb hs hx e hvalid
  have hoperands : ∀ p, p ∈ c.operands → p.1 ≠ .cmd := by
    simp [Call.operands]
  have hinputs : s.inputs = c.operands.map writeAccess ++
      (.regWrite 0x00 4 (launchWord c.variant c.chk) :: .poll :: rest) := by
    rw [hx, Call.inputs_eq, List.append_assoc]
    rfl
  obtain ⟨t, ht, hop, hdone⟩ :=
    validLaunch.completes (s := { s with eng := e, inputs := .poll :: rest }) hvalid c.chk hm hs
  obtain ⟨hcmd, hops, -, hpoll, hreplies, -⟩ := hop
  obtain ⟨hidle, -, -⟩ := hdone.good
  have hlaunch := step_regWrite_cmd_idle
    (s := { s with
      inputs := .regWrite 0x00 4 (launchWord c.variant c.chk) :: .poll :: rest, eng := e }) rfl hb
  rw [decode_launchWord] at hlaunch
  have hwrites := run_writes hoperands hinputs hb 2
  have hcommand := run_step (M := Sys2Proof.core) (hlaunch.trans ht) 1
  have hend := run_step (M := Sys2Proof.core) (step_poll_idle hpoll hidle) 0
  refine ⟨_, hwrites.trans (hcommand.trans hend), hdone.good, rfl, rfl, ?_, hcmd, hops,
    fun k hk => hdone.bufElem_eq_apply hk⟩
  rw [hdone.good.statusWord, hreplies]
  rfl

end Sys2Proof.Machine
end

section
/-! PROOFS. The frame of an operation (43_engine_common.md R162), and the results of the valid launches
(40_apply_scalar16.md R110). -/

namespace Sys2Proof.Machine

/-! ### A byte that no entry names (20_memory.md R64, 43_engine_common.md R162) -/

theorem validateStep_mem {v : Variant} {s t : State} (h : validateStep v s = .next t) : t.mem = s.mem := by
  obtain ⟨-, ⟨-, rfl⟩ | ⟨-, -, rfl⟩ | ⟨-, -, rfl⟩⟩ := validateStep_next h <;> exact atEntry_mem s

theorem holdsA.sideA_eq {v : Variant} {s : State} (h : holdsA v s) :
    sideA v s.eng =
      elemIndex v (normIndex v (tabEntry s.eng s.mem s.eng.cursor.toNat)) s.eng.tmp.k.toNat := by
  obtain ⟨hraw, ha⟩ := h
  rw [sideA, ha, hraw]

theorem holdsB.sideB_eq {v : Variant} {s : State} (h : holdsB v s) :
    sideB v s.eng =
      elemIndex v (normIndex v (tabEntry s.eng s.mem (s.eng.cursor.toNat + 1))) s.eng.tmp.k.toNat := by
  obtain ⟨hraw, hb, -⟩ := h
  rw [sideB, hb, hraw]

section
variable {s t : State} {l : Lease} {x : Nat}

/-- The bytes of an element that an entry in use names are named by the lent table. -/
theorem Running.namedByte_of_elem (hr : Running s l) {j c : Nat} (hj : j < s.eng.count)
    (hc : c < l.variant.group)
    (hlo : elemAddr l.variant s.eng
      (elemIndex l.variant (normIndex l.variant (tabEntry s.eng s.mem j)) c) ≤ x)
    (hhi : x < elemAddr l.variant s.eng
      (elemIndex l.variant (normIndex l.variant (tabEntry s.eng s.mem j)) c) + l.variant.bytes) :
    namedByte l.variant l.eng l.mem x := by
  rw [elemAddr_congr hr.operands, hr.table j hj] at hlo hhi
  exact ⟨j, c, count_congr hr.operands ▸ hj, hc, hlo, hhi⟩

/-- The write of a named element leaves every byte that no entry names. -/
theorem Running.read_setBufElem_of_not_named (hr : Running s l) (hm : s.mem.wf)
    (hx : ¬ namedByte l.variant l.eng l.mem x) {j c k : Nat} (hj : j < s.eng.count)
    (hc : c < l.variant.group)
    (hk : k = elemIndex l.variant (normIndex l.variant (tabEntry s.eng s.mem j)) c)
    (ha : elemAddr l.variant s.eng k + l.variant.bytes ≤ Config.addrSpace) (y : BitVec 64) :
    (setBufElem l.variant s.eng s.mem k y).read x = s.mem.read x := by
  refine read_setBufElem_outside y hm ha ?_
  by_contra hin
  rw [not_or, Nat.not_lt, Nat.not_le] at hin
  obtain ⟨hlo, hhi⟩ := hin
  subst hk
  exact hx (hr.namedByte_of_elem hj hc hlo hhi)

/-- The permute pass writes the two sides of an exchange only, and both are named. -/
theorem Permuting.read_of_not_named (hp : Permuting s l) (hr : Running s l) (hm : s.mem.wf)
    (hx : ¬ namedByte l.variant l.eng l.mem x) (h : permuteStep l.variant s = .next t) :
    t.mem.read x = s.mem.read x := by
  have hprog := hp.progress
  obtain ⟨-, -, rfl⟩ | ⟨-, -, -, rfl⟩ | ⟨-, -, rfl⟩ | ⟨-, -, rfl⟩ | ⟨-, -, rfl⟩ | ⟨hg, -, ha, rfl⟩ |
    ⟨hg, -, ha, rfl⟩ := permuteStep_next h
  · rfl
  · rfl
  · rfl
  · rfl
  · rfl
  · simp only [pairProgress, hg] at hprog
    obtain ⟨hc, hA, ⟨-, -, hk⟩, -⟩ := hprog
    exact hr.read_setBufElem_of_not_named hm hx hc hk hA.sideA_eq ha _
  · simp only [pairProgress, hg] at hprog
    obtain ⟨hc, -, hB, -⟩ := hprog
    have ⟨_, _, hk⟩ := hB
    rw [putB_mem]
    exact hr.read_setBufElem_of_not_named hm hx (hp.pair_lt_count hr hc) hk hB.sideB_eq ha _

/-- A step of a running operation leaves every byte that no entry names. -/
theorem Running.engineStep_read_of_not_named (hr : Running s l) (hm : s.mem.wf)
    (hx : ¬ namedByte l.variant l.eng l.mem x) (h : engineStep s = .next t) :
    t.mem.read x = s.mem.read x := by
  obtain hv | hp := hr.pass
  · rw [engineStep_validate hv.phase hr.variant] at h
    rw [validateStep_mem h]
  · rw [engineStep_permute hp.phase hr.variant] at h
    exact hp.read_of_not_named hr hm hx h

/-- Byte `x` holds `b`, and if the engine works, it is on the operation of the loan. -/
def KeepsByte (l : Lease) (x : Nat) (b : Byte) (s : State) : Prop :=
  s.mem.wf ∧ (s.busy = true → Running s l) ∧ s.mem.read x = b

/-- However far a running operation is taken, and whether or not it ends with an error, every byte that no
entry names is as it was. -/
theorem Running.engineRun_read_of_not_named (hr : Running s l) (hm : s.mem.wf)
    (hx : ¬ namedByte l.variant l.eng l.mem x) {f : Nat} (h : engineRun f s = .next t) :
    t.mem.read x = s.mem.read x := by
  have hstep (u w : State) (hu : KeepsByte l x (s.mem.read x) u) (hb : u.busy = true)
      (h : engineStep u = .next w) : KeepsByte l x (s.mem.read x) w := by
    obtain ⟨hm', hrun, hread⟩ := hu
    have hr' := hrun hb
    obtain ⟨hm'', hend⟩ := hr'.step hm' h
    refine ⟨hm'', fun hb' => hend.resolve_left ?_, ?_⟩
    · simp [hb']
    · rw [hr'.engineStep_read_of_not_named hm' hx h, hread]
  obtain ⟨-, -, hread⟩ := engineRun_keeps hstep ⟨hm, fun _ => hr, rfl⟩ h
  exact hread

end

/-- An apply operation leaves every byte that no entry of its table names, however it ends
(43_engine_common.md R162). -/
theorem exec_ofVariant_read_of_not_named {v : Variant} {chk : Bool} {s t : State} {x : Nat}
    (hm : s.mem.wf) (hx : ¬ namedByte v s.eng s.mem x)
    (h : exec (Instr.ofVariant v chk) s = .next t) : t.mem.read x = s.mem.read x := by
  rw [exec_ofVariant] at h
  obtain ⟨-, rfl⟩ | ⟨-, -, rfl⟩ | ⟨hb, -, h⟩ := launch_next h
  · rfl
  · rfl
  obtain rfl | ⟨code, rfl⟩ | ⟨hruns, f, hf⟩ := afterAccept_cases hb h
  · rfl
  · rfl
  · exact (running_accept hm hruns).engineRun_read_of_not_named hm hx hf

/-! ### The result of a valid launch (43_engine_common.md R145, R147, R148) -/

/-- What a valid launch of variant `v` from `s` has reached in `t`: a good end with the buffer of the
routine, and the table, the operands, the surroundings and every byte that no entry names as they were. -/
structure Permuted (v : Variant) (chk : Bool) (s t : State) : Prop where
  good         : goodEnd t
  cmd          : t.eng.cmd = launchWord v chk
  cursor       : t.eng.cursor.toNat = s.eng.count
  buffer       : ∀ k, k < s.eng.nElem.toNat → bufElem v t.eng t.mem k =
      apply v.shift v.group (bufElem v s.eng s.mem) (tabEntry s.eng s.mem) s.eng.count k
  table        : ∀ j, j < s.eng.count → tabEntry t.eng t.mem j = tabEntry s.eng s.mem j
  frame        : ∀ x, ¬ namedByte v s.eng s.mem x → t.mem.read x = s.mem.read x
  operands     : sameOperands s.eng t.eng
  surroundings : sameSurroundings s t

theorem validLaunch.permutes {v : Variant} {s : State} (h : validLaunch v s) (chk : Bool) (hm : s.mem.wf)
    (hs : s.sched = []) : ∃ t, exec (Instr.ofVariant v chk) s = .next t ∧ Permuted v chk s t := by
  obtain ⟨t, ht, hop, hdone⟩ := h.completes chk hm hs
  obtain ⟨hcmd, hops, -, hsurr⟩ := hop
  exact ⟨t, ht,
    { good := hdone.good
      cmd := hcmd
      cursor := hdone.cursor
      buffer := fun _ hk => hdone.bufElem_eq_apply hk
      table := hdone.table
      frame := fun _ hx => exec_ofVariant_read_of_not_named hm hx ht
      operands := hops
      surroundings := hsurr }⟩

theorem launchWord_s16 (chk : Bool) :
    launchWord .s16 chk = if chk then 0x00000009#32 else 0x00000001#32 := by
  cases chk <;> decide

/-- Settles O26: at shift 1 and group 1, the generic result is what R110 says. -/
theorem applyScalar16PermutesTheBuffer : Obligations.ApplyScalar16PermutesTheBuffer := by
  intro chk s hm hvalid hs
  obtain ⟨t, ht, hres⟩ := hvalid.permutes chk hm hs
  exact ⟨t, ht, hres.good, hres.cmd.trans (launchWord_s16 chk), hres.cursor, hres.buffer, hres.table,
    hres.frame, hres.operands, hres.surroundings⟩

end Sys2Proof.Machine
end

section
/-! PROOFS. The result of a valid `applyComplex32` (41_apply_complex32.md R120, R121). -/

namespace Sys2Proof.Machine

theorem launchWord_c32 (chk : Bool) :
    launchWord .c32 chk = if chk then 0x0000000B#32 else 0x00000003#32 := by
  cases chk <;> decide

/-- Settles O27: at shift 0 and group 2, the generic result of a valid launch (`Permuted`) is what R120 and
R121 say. -/
theorem applyComplex32PermutesTheBuffer : Obligations.ApplyComplex32PermutesTheBuffer := by
  intro chk s hm hvalid hs
  obtain ⟨t, ht, hres⟩ := hvalid.permutes chk hm hs
  exact ⟨t, ht, hres.good, hres.cmd.trans (launchWord_c32 chk), hres.cursor, hres.buffer, hres.table,
    hres.frame, hres.operands, hres.surroundings⟩

end Sys2Proof.Machine
end

section
/-! PROOFS. The result of a valid `applyComplex64` (42_apply_complex64.md R130, R131). -/

namespace Sys2Proof.Machine

theorem launchWord_c64 (chk : Bool) :
    launchWord .c64 chk = if chk then 0x0000000D#32 else 0x00000005#32 := by
  cases chk <;> decide

/-- Settles O28: at shift 2 and group 2, the generic result of a valid launch (`Permuted`) is what R130 and
R131 say. -/
theorem applyComplex64PermutesTheBuffer : Obligations.ApplyComplex64PermutesTheBuffer := by
  intro chk s hm hvalid hs
  obtain ⟨t, ht, hres⟩ := hvalid.permutes chk hm hs
  exact ⟨t, ht, hres.good, hres.cmd.trans (launchWord_c64 chk), hres.cursor, hres.buffer, hres.table,
    hres.frame, hres.operands, hres.surroundings⟩

end Sys2Proof.Machine
end

section
/-! PROOFS. The life of an operation (43_engine_common.md R140 to R143, R151, R163): acceptance, the zero
count, writes while it runs, its end, and the contract of an unchecked launch. -/

namespace Sys2Proof.Machine

/-! ### Host accesses while `BUSY = 1` (43_engine_common.md R142) -/

theorem hostWrite_busy {s : State} (hb : s.busy = true) (r : Reg) (w : Word) :
    hostWrite r w s = .next s := by
  cases r with
  | cmd => exact exec_busy _ hb
  | _ => exact if_pos hb

/-- Settles O8: a busy engine ignores every write and every command, and a read touches the records only. -/
theorem writesWhileBusyAreIgnored : Obligations.WritesWhileBusyAreIgnored := by
  intro s hb
  refine ⟨fun r w => ?_, fun i => exec_busy i hb, fun r => ?_⟩
  · rw [hostAccess_regWrite, hostWrite_busy hb]
  · refine ⟨hostRead r s, hostAccess_regRead r s, rfl, rfl, fun hr => ?_, ?_⟩
    · rw [hostRead_replies, hostReadWord, if_neg (fun h => hr h.1)]
    · rintro rfl
      obtain ⟨hrange, -⟩ := cursorReadIsInRangeOrExact s
      obtain ⟨t, n, ht, hn, hreply, -⟩ := hrange hb
      obtain rfl := Host.Outcome.next.inj ((hostAccess_regRead .cursor s).symm.trans ht)
      exact ⟨n, hn, hreply⟩

/-! ### Acceptance and the zero count (43_engine_common.md R141, R143) -/

theorem exec_ofVariant_idle (v : Variant) (chk : Bool) {s : State} (hb : s.busy = false) :
    exec (Instr.ofVariant v chk) s = afterAccept v chk (accept v chk s) := by
  rw [exec_ofVariant, launch, if_neg (by simp [hb]), built_implVariants, if_neg (by simp)]

theorem exec_ofVariant_runs {v : Variant} {chk : Bool} {s : State} (h : launchRuns v chk s) :
    exec (Instr.ofVariant v chk) s = runUnlessScheduled (accept v chk s) := by
  rw [exec_ofVariant, launch_runs (built_implVariants v) h]

theorem runUnlessScheduled_scheduled {s : State} (h : s.sched ≠ []) :
    runUnlessScheduled s = .next s := by
  unfold runUnlessScheduled
  split
  case h_1 hs => exact absurd hs h
  case h_2 => rfl

theorem runUnlessScheduled_atomic {s : State} (h : s.sched = []) : runUnlessScheduled s = runToEnd s := by
  rw [runUnlessScheduled, h]

/-- With turns in the schedule, a launch that puts the engine to work answers the accepted state. -/
theorem launchRuns.accepted {v : Variant} {chk : Bool} {s : State} (h : launchRuns v chk s)
    (hs : s.sched ≠ []) : exec (Instr.ofVariant v chk) s = .next (accept v chk s) := by
  rw [exec_ofVariant_runs h]
  exact runUnlessScheduled_scheduled hs

theorem firstPhase_fst (chk : Bool) : (firstPhase chk).1 = if chk then .validate else .permute := by
  cases chk <;> rfl

/-- Settles O15: the answer is the accepted state. -/
theorem acceptanceTakesEffectAtOnce : Obligations.AcceptanceTakesEffectAtOnce := by
  intro v chk s hruns hs
  exact ⟨accept v chk s, hruns.accepted hs, (encode_ofVariant v chk).symm, rfl, rfl, accept_busy v chk s,
    firstPhase_fst chk, rfl, .refl _, rfl, rfl, rfl, rfl, rfl⟩

theorem afterAccept_zeroCount {v : Variant} {chk : Bool} {s : State} (h : s.eng.count = 0) :
    afterAccept v chk s = .next (complete s) := if_pos h

/-- Settles O16: the zero count is the first test after acceptance. -/
theorem zeroCountCompletesAtOnce : Obligations.ZeroCountCompletesAtOnce := by
  intro v chk s hb hzero
  have hcount : (accept v chk s).eng.count = 0 := congrArg BitVec.toNat hzero
  refine ⟨complete (accept v chk s), ?_, ⟨rfl, rfl, rfl⟩, (encode_ofVariant v chk).symm, rfl, rfl, rfl,
    .refl _, rfl, rfl, rfl, rfl, rfl⟩
  rw [exec_ofVariant_idle v chk hb, afterAccept_zeroCount hcount]

/-! ### The permute pass, stage by stage (43_engine_common.md R150) -/

section
variable {v : Variant} {s : State}

theorem permuteStep_at_pairStart (h : atPairStart s) :
    permuteStep v s =
      if s.eng.count ≤ s.eng.cursor.toNat then .next (complete s)
      else readEntry s.eng.cursor.toNat s fun _ _ => .next (gotA v s) := by
  obtain h | h | h := h <;> rw [permuteStep, h] <;> rfl

theorem permuteStep_at_readB (h : s.eng.stage = .readB) :
    permuteStep v s = readEntry (s.eng.cursor.toNat + 1) s fun _ _ => .next (gotB v s) := by
  rw [permuteStep, h]
  rfl

theorem permuteStep_at_loadA (h : s.eng.stage = .loadA) :
    permuteStep v s = guardElem v (sideA v s.eng) s (.next (gotT0 v s)) := by
  rw [permuteStep, h]
  rfl

theorem permuteStep_at_loadB (h : s.eng.stage = .loadB) :
    permuteStep v s = guardElem v (sideB v s.eng) s (.next (gotT1 v s)) := by
  rw [permuteStep, h]
  rfl

theorem permuteStep_at_storeA (h : s.eng.stage = .storeA) :
    permuteStep v s = guardElem v (sideA v s.eng) s (.next (putA v s)) := by
  rw [permuteStep, h]
  rfl

theorem permuteStep_at_storeB (h : s.eng.stage = .storeB) :
    permuteStep v s = guardElem v (sideB v s.eng) s (.next (putB v s)) := by
  rw [permuteStep, h]
  rfl

end

/-! ### Every operation ends (43_engine_common.md R151) -/

/-- The outcome is a next state or a fault. -/
def notRefused (out : Outcome) : Prop := (∃ t, out = .next t) ∨ ∃ r, out = .fault r

theorem readEntry_notRefused {j : Nat} {s : State} {f : BitVec 16 → State → Outcome}
    (h : ∀ raw t, notRefused (f raw t)) : notRefused (readEntry j s f) := by
  unfold readEntry
  split
  · exact .inr ⟨_, rfl⟩
  · split
    · exact .inr ⟨_, rfl⟩
    · exact h _ _

theorem guardElem_notRefused {v : Variant} {k : Nat} {s : State} {out : Outcome} (h : notRefused out) :
    notRefused (guardElem v k s out) := by
  unfold guardElem
  split
  · exact .inr ⟨_, rfl⟩
  · split
    · exact .inr ⟨_, rfl⟩
    · exact h

theorem validateStep_notRefused (v : Variant) (s : State) : notRefused (validateStep v s) := by
  rw [validateStep_eq]
  refine readEntry_notRefused fun raw t => ?_
  obtain ⟨-, he⟩ | ⟨-, -, he⟩ | ⟨-, -, he⟩ := entryTested_cases v raw t <;> exact .inl ⟨_, he⟩

theorem permuteStep_notRefused (v : Variant) (s : State) : notRefused (permuteStep v s) := by
  have hstart (h : atPairStart s) : notRefused (permuteStep v s) := by
    rw [permuteStep_at_pairStart h]
    split
    · exact .inl ⟨_, rfl⟩
    · exact readEntry_notRefused fun _ _ => .inl ⟨_, rfl⟩
  cases hg : s.eng.stage
  case readA => exact hstart (.inl hg)
  case testEntry => exact hstart (.inr (.inl hg))
  case nextEntry => exact hstart (.inr (.inr hg))
  case readB => exact permuteStep_at_readB hg ▸ readEntry_notRefused fun _ _ => .inl ⟨_, rfl⟩
  case loadA => exact permuteStep_at_loadA hg ▸ guardElem_notRefused (.inl ⟨_, rfl⟩)
  case loadB => exact permuteStep_at_loadB hg ▸ guardElem_notRefused (.inl ⟨_, rfl⟩)
  case storeA => exact permuteStep_at_storeA hg ▸ guardElem_notRefused (.inl ⟨_, rfl⟩)
  case storeB => exact permuteStep_at_storeB hg ▸ guardElem_notRefused (.inl ⟨_, rfl⟩)

/-- The engine never refuses its own step. -/
theorem engineStep_notRefused (s : State) : notRefused (engineStep s) := by
  unfold engineStep
  split
  · exact .inl ⟨_, rfl⟩
  · split
    · exact validateStep_notRefused _ s
    · exact .inr ⟨_, rfl⟩
  · split
    · exact permuteStep_notRefused _ s
    · exact .inr ⟨_, rfl⟩

theorem engineRun_fault {s : State} {r : Fault} (hb : s.busy = true) (h : engineStep s = .fault r)
    (f : Nat) : engineRun (f + 1) s = .fault r := by
  simp [engineRun, hb, h]

theorem permuteStepsLeft_pos (e : Engine) : 0 < permuteStepsLeft e := by
  have hpairs (c : Nat) : 0 < pairsStepsLeft e.count c := Nat.succ_pos _
  unfold permuteStepsLeft
  split
  case h_4 => exact Nat.add_pos_right _ (hpairs _)
  all_goals exact hpairs _

theorem stepsLeft_pos {s : State} (hb : s.busy = true) : 0 < stepsLeft s := by
  cases hp : s.eng.phase
  case idle =>
    rw [(State.busy_false_iff s).2 hp] at hb
    cases hb
  case validate =>
    rw [stepsLeft_of_validate hp]
    omega
  case permute =>
    rw [stepsLeft_of_permute hp]
    exact permuteStepsLeft_pos s.eng

/-- With the fuel for the steps that are left, a run ends idle or with a fault, from any state. -/
theorem engineRun_ends_or_faults {s : State} {f : Nat} (hf : stepsLeft s ≤ f) :
    (∃ t, engineRun f s = .next t ∧ t.busy = false) ∨ ∃ r, engineRun f s = .fault r := by
  induction f generalizing s with
  | zero =>
    cases hb : s.busy
    case false => exact .inl ⟨s, rfl, hb⟩
    case true => exact absurd (stepsLeft_pos hb) (Nat.not_lt.2 hf)
  | succ f ih =>
    cases hb : s.busy
    case false => exact .inl ⟨s, engineRun_idle hb _, hb⟩
    case true =>
      obtain ⟨t, ht⟩ | ⟨r, hr⟩ := engineStep_notRefused s
      · have := engineStep_stepsLeft_lt hb ht
        rw [engineRun_step hb ht]
        exact ih (by omega)
      · exact .inr ⟨r, engineRun_fault hb hr f⟩

/-- A busy engine that meets the invariant takes its next step and keeps it. -/
theorem Inv.engineStep_answers {s : State} (hi : Inv s) (hb : s.busy = true) :
    ∃ t, engineStep s = .next t ∧ Inv t := by
  obtain ⟨-, -, -, hrun⟩ := id hi
  obtain ⟨l, older, -, hr⟩ := hrun hb
  obtain ⟨t, ht⟩ := hr.answers
  exact ⟨t, ht, engineStep_inv hi hb ht⟩

/-- From a state that meets the invariant the atomic view ends with an idle engine. -/
theorem Inv.runToEnd_ends {s : State} (hi : Inv s) :
    ∃ t, runToEnd s = .next t ∧ t.busy = false ∧ Inv t :=
  engineRun_ends (fun _ => Inv.engineStep_answers) hi (stepsLeft_le_engineFuel s)

/-- Settles O40: the fuel of the atomic view covers the steps that are left, each step uses one up, and the
invariant rules a fault out. -/
theorem everyOperationTerminates : Obligations.EveryOperationTerminates := by
  intro s
  refine ⟨engineRun_ends_or_faults (stepsLeft_le_engineFuel s), fun hi => ?_⟩
  obtain ⟨t, ht, hidle, -⟩ := hi.runToEnd_ends
  exact ⟨t, ht, hidle⟩

/-! ### The contract of an unchecked launch (43_engine_common.md R163) -/

/-- A launch from a canonical memory that puts the engine to work starts from a state that meets the
invariant. -/
theorem launchRuns.inv_accept {v : Variant} {chk : Bool} {s : State} (h : launchRuns v chk s)
    (hm : s.mem.wf) : Inv (accept v chk s) :=
  .of_running (s := accept v chk s) hm (statusOk_accept v chk s) rfl (running_accept hm h)

/-- A launch that puts the engine to work answers a next state, under any schedule. -/
theorem launchRuns.answers {v : Variant} {chk : Bool} {s : State} (h : launchRuns v chk s)
    (hm : s.mem.wf) : ∃ t, exec (Instr.ofVariant v chk) s = .next t := by
  by_cases hs : s.sched = []
  · obtain ⟨t, ht, -⟩ := (h.inv_accept hm).runToEnd_ends
    exact ⟨t, by rw [exec_ofVariant_runs h, runUnlessScheduled_atomic (s := accept v chk s) hs, ht]⟩
  · exact ⟨_, h.accepted hs⟩

theorem withGoodSpans_good {v : Variant} {s : State} (h : spansGood v s) (out : Outcome) :
    withGoodSpans v s out = out := by
  obtain ⟨hsp, hap, hord⟩ := h
  rw [withGoodSpans, if_neg (by simp [hsp]), if_neg (by simp [hap]), if_neg (by simp [hord])]

/-- The three parts of the contract of R163, on an idle engine whose count, bases and spans are good:
either all hold and the launch puts the engine to work, or it faults. -/
theorem uncheckedLaunch_runs_or_faults {v : Variant} {s : State} (hb : s.busy = false)
    (hn : s.eng.count ≠ 0) (hal : aligned v s.eng = true) (hsp : spansGood v s) :
    launchRuns v false s ∨
      ((oddCount s.eng = true ∨ lengthMatches s.eng = false ∨ allInRange v s.eng s.mem = false) ∧
        ∃ r, exec (Instr.ofVariant v false) s = .fault r) := by
  have hops : sameOperands s.eng (accept v false s).eng := .refl _
  have hexec := exec_ofVariant_idle v false hb
  rw [afterAccept, count_congr hops, if_neg hn, aligned_congr hops, if_neg (by simp [hal]),
    oddCount_congr hops, lengthMatches_congr hops, allInRange_congr hops,
    withGoodSpans_good (s := accept v false s) hsp] at hexec
  cases hodd : oddCount s.eng
  case true => exact .inr ⟨.inl rfl, _, by rw [hexec, if_pos hodd]; rfl⟩
  rw [if_neg (by simp [hodd])] at hexec
  cases hlen : lengthMatches s.eng
  case false => exact .inr ⟨.inr (.inl rfl), _, by rw [hexec, if_pos hlen]; rfl⟩
  rw [if_neg (by simp [hlen])] at hexec
  cases hin : allInRange v s.eng s.mem
  case false =>
    have hin' : allInRange v s.eng (accept v false s).mem = false := hin
    exact .inr ⟨.inr (.inr rfl), _, by rw [hexec, hin']; rfl⟩
  case true => exact .inl ⟨hb, hn, hal, hodd, hlen, hsp, .inr hin⟩

/-- Settles O22: the three parts are the tests of the launch, and each that fails is a fault of its own. -/
theorem uncheckedLaunchIsDefinedExactlyOnItsContract :
    Obligations.UncheckedLaunchIsDefinedExactlyOnItsContract := by
  intro v s hm hb hn hal hsp
  have hcontract : (s.eng.count % 2 = 0 ∧ s.eng.count = s.eng.tabLen.toNat ∧
      ∀ j, j < s.eng.count →
        v.group * (tabEntry s.eng s.mem j >>> v.shift).toNat + (v.group - 1) < s.eng.nElem.toNat) ↔
      oddCount s.eng = false ∧ lengthMatches s.eng = true ∧ allInRange v s.eng s.mem = true := by
    rw [oddCount_eq_false, lengthMatches_eq_true, allInRange_iff]
    simp only [entryInRange_iff]
    rfl
  rw [hcontract]
  obtain hruns | ⟨hbroken, r, hr⟩ := uncheckedLaunch_runs_or_faults hb hn hal hsp
  · obtain ⟨-, -, -, hodd, hlen, -, hin⟩ := id hruns
    have hanswers := hruns.answers hm
    exact ⟨iff_of_true hanswers ⟨hodd, hlen, hin.resolve_left Bool.false_ne_true⟩, .inl hanswers⟩
  · refine ⟨iff_of_false ?_ ?_, .inr ⟨r, hr⟩⟩
    · rintro ⟨t, ht⟩
      rw [hr] at ht
      cases ht
    · rintro ⟨hodd, hlen, hin⟩
      simp [hodd, hlen, hin] at hbroken

end Sys2Proof.Machine
end

section
/-! PROOFS. The engine's single steps (43_engine_common.md R144, R146, R148): two runs side by side, the
turns of the schedule, and a validation pass that meets an entry out of range. -/

namespace Sys2Proof.Machine

/-! ### Two runs side by side -/

/-- Two outcomes are alike: next states that `R` relates, the same fault, or the same refusal. -/
inductive Alike (R : State → State → Prop) : Outcome → Outcome → Prop
  | next {t t' : State} (h : R t t') : Alike R (.next t) (.next t')
  | fault (r : Fault) : Alike R (.fault r) (.fault r)
  | refused (r : Refusal) : Alike R (.refused r) (.refused r)

section
variable {R : State → State → Prop} {s s' : State}

theorem Alike.cases {out out' : Outcome} (h : Alike R out out') :
    (∃ t t', out = .next t ∧ out' = .next t' ∧ R t t') ∨ (∃ r, out = .fault r ∧ out' = .fault r) ∨
      ∃ r, out = .refused r ∧ out' = .refused r := by
  cases h with
  | next h => exact .inl ⟨_, _, rfl, rfl, h⟩
  | fault r => exact .inr (.inl ⟨r, rfl, rfl⟩)
  | refused r => exact .inr (.inr ⟨r, rfl, rfl⟩)

theorem readEntry_alike {j : Nat} {f f' : BitVec 16 → State → Outcome}
    (hops : sameOperands s.eng s'.eng)
    (h : j < s.eng.tabLen.toNat → Alike R (f (tabEntry s.eng s.mem j) (s.log (.readEntry j)))
      (f' (tabEntry s'.eng s'.mem j) (s'.log (.readEntry j)))) :
    Alike R (readEntry j s f) (readEntry j s' f') := by
  have ⟨_, _, _, htabLen, _⟩ := hops
  rw [readEntry, readEntry, htabLen, entryAddr_congr hops]
  split
  · exact .fault _
  · split
    · exact .fault _
    · exact h (by omega)

theorem guardElem_alike {v : Variant} {k : Nat} {out out' : Outcome} (hops : sameOperands s.eng s'.eng)
    (h : k < s.eng.nElem.toNat → elemAddr v s.eng k + v.bytes ≤ Config.addrSpace → Alike R out out') :
    Alike R (guardElem v k s out) (guardElem v k s' out') := by
  have ⟨_, hn, _⟩ := hops
  rw [guardElem, guardElem, hn, elemAddr_congr hops]
  split
  · exact .fault _
  · split
    · exact .fault _
    · exact h (by omega) (by omega)

theorem engineStep_alike (hphase : s'.eng.phase = s.eng.phase) (hcmd : s'.eng.cmd = s.eng.cmd)
    (hR : R s s')
    (hvalidate : ∀ v, s.eng.variant = some v → Alike R (validateStep v s) (validateStep v s'))
    (hpermute : ∀ v, s.eng.variant = some v → Alike R (permuteStep v s) (permuteStep v s')) :
    Alike R (engineStep s) (engineStep s') := by
  have hvar : s'.eng.variant = s.eng.variant := by rw [Engine.variant, hcmd, Engine.variant]
  rw [engineStep, engineStep, hphase, hvar]
  split
  · exact .next hR
  · split
    case h_1 v hv => exact hvalidate v hv
    case h_2 => exact .fault _
  · split
    case h_1 v hv => exact hpermute v hv
    case h_2 => exact .fault _

theorem engineRun_alike (hbusy : ∀ s s', R s s' → s'.busy = s.busy)
    (hstep : ∀ s s', R s s' → Alike R (engineStep s) (engineStep s')) (hR : R s s') (f : Nat) :
    Alike R (engineRun f s) (engineRun f s') := by
  induction f generalizing s s' with
  | zero => exact .next hR
  | succ f ih =>
    rw [engineRun, engineRun, hbusy s s' hR]
    split
    case isFalse => exact .next hR
    case isTrue =>
      obtain ⟨t, t', ht, ht', h⟩ | ⟨r, hr, hr'⟩ | ⟨r, hr, hr'⟩ := (hstep s s' hR).cases
      · rw [ht, ht']
        exact ih h
      · rw [hr, hr']
        exact .fault r
      · rw [hr, hr']
        exact .refused r

end

/-! ### The engine does not look at the schedule (log entry 7) -/

/-- The same state with other turns to come. -/
def State.withTurns (turns : List Turn) (s : State) : State := { s with sched := turns }

@[simp] theorem withTurns_eng (turns : List Turn) (s : State) : (s.withTurns turns).eng = s.eng := rfl
@[simp] theorem withTurns_mem (turns : List Turn) (s : State) : (s.withTurns turns).mem = s.mem := rfl
@[simp] theorem withTurns_inputs (turns : List Turn) (s : State) :
    (s.withTurns turns).inputs = s.inputs := rfl
@[simp] theorem withTurns_sched (turns : List Turn) (s : State) : (s.withTurns turns).sched = turns := rfl
@[simp] theorem withTurns_busy (turns : List Turn) (s : State) : (s.withTurns turns).busy = s.busy := rfl

theorem withTurns_self {turns : List Turn} {s : State} (h : s.sched = turns) : s.withTurns turns = s := by
  rw [← h]
  rfl

/-- The second state is the first with the turns given. -/
def OtherTurns (turns : List Turn) (s s' : State) : Prop := s' = s.withTurns turns

theorem atEntry_withTurns (turns : List Turn) (s : State) :
    atEntry (s.withTurns turns) = (atEntry s).withTurns turns := by
  unfold atEntry
  rw [withTurns_eng]
  split <;> rfl

theorem exchangeDone_withTurns (v : Variant) (turns : List Turn) (s : State) :
    exchangeDone v (s.withTurns turns) = (exchangeDone v s).withTurns turns := by
  unfold exchangeDone
  rw [withTurns_eng]
  split <;> rfl

theorem putB_withTurns (v : Variant) (turns : List Turn) (s : State) :
    putB v (s.withTurns turns) = (putB v s).withTurns turns :=
  exchangeDone_withTurns v turns
    ((s.setMem (setBufElem v s.eng s.mem (sideB v s.eng) s.eng.tmp.t0)).log (.writeElem (sideB v s.eng)))

theorem entryTested_withTurns (v : Variant) (raw : BitVec 16) (turns : List Turn) (s : State) :
    Alike (OtherTurns turns) (entryTested v raw s) (entryTested v raw (s.withTurns turns)) := by
  unfold entryTested
  rw [withTurns_eng]
  split
  · exact .next rfl
  · split <;> exact .next rfl

theorem validateStep_withTurns (v : Variant) (turns : List Turn) (s : State) :
    Alike (OtherTurns turns) (validateStep v s) (validateStep v (s.withTurns turns)) := by
  rw [validateStep_eq, validateStep_eq, atEntry_withTurns]
  exact readEntry_alike (s' := (atEntry s).withTurns turns) (.refl _) fun _ =>
    entryTested_withTurns v _ turns ((atEntry s).log _)

theorem permuteStep_withTurns (v : Variant) (turns : List Turn) (s : State) :
    Alike (OtherTurns turns) (permuteStep v s) (permuteStep v (s.withTurns turns)) := by
  have hops : sameOperands s.eng (s.withTurns turns).eng := .refl _
  have hstart (h : atPairStart s) :
      Alike (OtherTurns turns) (permuteStep v s) (permuteStep v (s.withTurns turns)) := by
    rw [permuteStep_at_pairStart h, permuteStep_at_pairStart (s := s.withTurns turns) h, withTurns_eng]
    split
    · exact .next rfl
    · exact readEntry_alike hops fun _ => .next rfl
  cases hg : s.eng.stage
  case readA => exact hstart (.inl hg)
  case testEntry => exact hstart (.inr (.inl hg))
  case nextEntry => exact hstart (.inr (.inr hg))
  case readB =>
    rw [permuteStep_at_readB hg, permuteStep_at_readB (s := s.withTurns turns) hg]
    exact readEntry_alike hops fun _ => .next rfl
  case loadA =>
    rw [permuteStep_at_loadA hg, permuteStep_at_loadA (s := s.withTurns turns) hg]
    exact guardElem_alike hops fun _ _ => .next rfl
  case loadB =>
    rw [permuteStep_at_loadB hg, permuteStep_at_loadB (s := s.withTurns turns) hg]
    exact guardElem_alike hops fun _ _ => .next rfl
  case storeA =>
    rw [permuteStep_at_storeA hg, permuteStep_at_storeA (s := s.withTurns turns) hg]
    exact guardElem_alike hops fun _ _ => .next rfl
  case storeB =>
    rw [permuteStep_at_storeB hg, permuteStep_at_storeB (s := s.withTurns turns) hg]
    exact guardElem_alike hops fun _ _ => .next (putB_withTurns v turns s)

theorem engineStep_withTurns {s t : State} (h : engineStep s = .next t) (turns : List Turn) :
    engineStep (s.withTurns turns) = .next (t.withTurns turns) := by
  have halike : Alike (OtherTurns turns) (engineStep s) (engineStep (s.withTurns turns)) :=
    engineStep_alike rfl rfl rfl (fun v _ => validateStep_withTurns v turns s)
      fun v _ => permuteStep_withTurns v turns s
  obtain ⟨u, u', hu, hu', rfl⟩ | ⟨r, hr, -⟩ | ⟨r, hr, -⟩ := halike.cases
  · rw [hu', Host.Outcome.next.inj (h.symm.trans hu)]
  · cases h.symm.trans hr
  · cases h.symm.trans hr

/-! ### Turns of the engine (43_engine_common.md R146) -/

theorem step_engineTurn {s t : State} (hb : s.busy = true) (h : engineStep s = .next t)
    (turns : List Turn) : step (s.withTurns (.engine :: turns)) = .next (t.withTurns turns) :=
  (if_pos hb).trans (engineStep_withTurns h turns)

theorem step_atomic {s : State} (hb : s.busy = true) (hs : s.sched = []) : step s = runToEnd s := by
  rw [step, if_pos hb, hs]

/-- With nothing for the outside world to do, an idle engine stays as it is. -/
theorem step_rest {s : State} (hb : s.busy = false) (hx : s.inputs = []) : step s = .next s := by
  rw [step, if_neg (by simp [hb]), hostTurn, hx]

theorem run_rest {s : State} (hb : s.busy = false) (hx : s.inputs = []) (k : Nat) :
    (Host.Core.run Sys2Proof.core k s : Outcome) = .next s := by
  induction k with
  | zero => rfl
  | succ k ih => rw [run_step (M := Sys2Proof.core) (step_rest hb hx), ih]

/-- A step that the engine takes on its own is the first of its run to the end. -/
theorem runToEnd_of_step {s t u : State} (hb : s.busy = true) (h : engineStep s = .next u)
    (hrun : runToEnd s = .next t) (hidle : t.busy = false) : runToEnd u = .next t := by
  have hfuel : engineFuel u = engineFuel s := by
    have ⟨_, hops, _⟩ := engineStep_sameOperation h
    rw [engineFuel, count_congr hops, engineFuel]
  have hlonger : engineRun (engineFuel s + 1) s = .next t := by
    rw [engineRun_add hrun, engineRun_idle hidle]
  rw [engineRun_step hb h] at hlonger
  rw [runToEnd, hfuel]
  exact hlonger

theorem engineStep_answers_of_runToEnd {s t : State} (hb : s.busy = true) (hrun : runToEnd s = .next t) :
    ∃ u, engineStep s = .next u := by
  obtain hu | ⟨r, hr⟩ := engineStep_notRefused s
  · exact hu
  · rw [runToEnd, engineFuel, engineRun_fault hb hr] at hrun
    cases hrun

/-- Whatever number of turns the engine takes by itself before it is left to run, it comes to the end that
the atomic view gives at once (43_engine_common.md R148). -/
theorem run_turns_eq_runToEnd {s t : State} (hrun : runToEnd s = .next t) (hidle : t.busy = false)
    (hx : s.inputs = []) (hs : s.sched = []) (m : Nat) :
    ∃ turns, (Host.Core.run Sys2Proof.core (m + 1) (s.withTurns (List.replicate m .engine)) : Outcome) =
      .next (t.withTurns turns) := by
  induction m generalizing s with
  | zero =>
    have hstep : step s = .next t := by
      cases hb : s.busy
      case false =>
        rw [runToEnd, engineRun_idle hb] at hrun
        rw [step_rest hb hx, hrun]
      case true => rw [step_atomic hb hs, hrun]
    refine ⟨t.sched, ?_⟩
    rw [List.replicate_zero, withTurns_self hs, withTurns_self rfl]
    exact run_step (M := Sys2Proof.core) hstep 0
  | succ m ih =>
    cases hb : s.busy
    case false =>
      rw [runToEnd, engineRun_idle hb] at hrun
      obtain rfl := Host.Outcome.next.inj hrun
      exact ⟨_, run_rest (s := s.withTurns (List.replicate (m + 1) .engine)) hb hx _⟩
    case true =>
      obtain ⟨u, hu⟩ := engineStep_answers_of_runToEnd hb hrun
      have ⟨_, _, _, hinputs, _, hsched, _⟩ := engineStep_sameOperation hu
      obtain ⟨turns, hend⟩ := ih (runToEnd_of_step hb hu hrun hidle) (hinputs.trans hx) (hsched.trans hs)
      exact ⟨turns, (run_step (M := Sys2Proof.core) (step_engineTurn hb hu _) _).trans hend⟩

/-- Settles O30: the engine's turns use up the beginning of its run to the end. -/
theorem stepsAgreeWithTheAtomicView : Obligations.StepsAgreeWithTheAtomicView := by
  intro v chk s m hm hruns hs hx hpos
  obtain ⟨t, ht, hidle, -⟩ := (hruns.inv_accept hm).runToEnd_ends
  have ⟨_, _, _, _, _, hsched, _⟩ := engineRun_sameOperation ht
  obtain ⟨turns, hend⟩ := run_turns_eq_runToEnd ht hidle hx hs m
  have hruns' : launchRuns v chk (s.withTurns (List.replicate m .engine)) := hruns
  refine ⟨t, (accept v chk s).withTurns (List.replicate m .engine), t.withTurns turns, ?_, ?_,
    accept_busy v chk s, hend, ?_⟩
  · rw [exec_ofVariant_runs hruns, runUnlessScheduled_atomic (s := accept v chk s) hs, ht]
  · exact hruns'.accepted (by simp [Nat.ne_of_gt hpos])
  · exact withTurns_self (hsched.trans hs)

/-- While it stays busy, the engine takes the turns that the schedule gives it. -/
theorem run_engineTurns {s t : State} {k : Nat} (h : engineRun k s = .next t) (hb : t.busy = true) (n : Nat)
    (turns : List Turn) :
    (Host.Core.run Sys2Proof.core (k + n) (s.withTurns (List.replicate k .engine ++ turns)) : Outcome) =
      Host.Core.run Sys2Proof.core n (t.withTurns turns) := by
  induction k generalizing s with
  | zero =>
    obtain rfl := Host.Outcome.next.inj h
    rw [Nat.zero_add]
    rfl
  | succ k ih =>
    cases hbs : s.busy
    case false =>
      rw [engineRun_idle hbs] at h
      rw [← Host.Outcome.next.inj h, hbs] at hb
      cases hb
    case true =>
      obtain ⟨u, hu⟩ | ⟨r, hr⟩ := engineStep_notRefused s
      · rw [engineRun_step hbs hu] at h
        rw [Nat.succ_add, ← ih h]
        exact run_step (M := Sys2Proof.core) (step_engineTurn hbs hu _) _
      · rw [engineRun_fault hbs hr] at h
        cases h

/-! ### A validation pass that meets an entry out of range (43_engine_common.md R144 (c)) -/

/-- The accepted state `s` of a checked launch after the tests of its first `i` entries, all in range and
not the last. -/
def entriesTested (s : State) : Nat → State
  | 0 => s
  | i + 1 => ((atEntry (entriesTested s i)).log (.readEntry i)).setStage .nextEntry

/-- The end of the validation pass of `s` at entry `j`. -/
def rangeError (s : State) (j : Nat) : State :=
  raiseErr .range (atEntry (entriesTested s j)).eng.cursor ((atEntry (entriesTested s j)).log (.readEntry j))

section
variable {s : State}

theorem entriesTested_sameOperation (s : State) (i : Nat) : sameOperation s (entriesTested s i) := by
  induction i with
  | zero => exact .refl s
  | succ i ih => exact ih.trans (sameOperation.trans (sameOperation_atEntry _) (.refl _))

@[simp] theorem entriesTested_mem (s : State) (i : Nat) : (entriesTested s i).mem = s.mem := by
  induction i with
  | zero => rfl
  | succ i ih => exact (atEntry_mem _).trans ih

@[simp] theorem entriesTested_phase (s : State) (i : Nat) :
    (entriesTested s i).eng.phase = s.eng.phase := by
  induction i with
  | zero => rfl
  | succ i ih => exact (atEntry_phase _).trans ih

@[simp] theorem atEntry_trace (s : State) : (atEntry s).trace = s.trace := by
  unfold atEntry
  split <;> rfl

/-- The entries have been read in order. -/
theorem entriesTested_trace (s : State) (i : Nat) :
    (entriesTested s i).trace.reverse = s.trace.reverse ++ (List.range i).map Access.readEntry := by
  induction i with
  | zero => simp [entriesTested]
  | succ i ih =>
    have htrace : (entriesTested s (i + 1)).trace = .readEntry i :: (entriesTested s i).trace :=
      congrArg _ (atEntry_trace _)
    rw [htrace, List.reverse_cons, ih, List.range_succ, List.map_append, List.append_assoc]
    rfl

/-- `CURSOR` names the entry to be tested next. -/
theorem entriesTested_cursor (hg : s.eng.stage = .testEntry) (hcur : s.eng.cursor = 0#17) {i : Nat}
    (hi : i < 2 ^ 16) : (atEntry (entriesTested s i)).eng.cursor.toNat = i := by
  induction i with
  | zero => simp [entriesTested, atEntry, hg, hcur]
  | succ i ih =>
    have hnext : (atEntry (entriesTested s (i + 1))).eng.cursor =
        (atEntry (entriesTested s i)).eng.cursor + 1#17 := rfl
    rw [hnext, BitVec.toNat_add, ih (by omega), BitVec.toNat_ofNat]
    omega

end

section
variable {s : State} {v : Variant} {i : Nat} (hp : s.eng.phase = .validate) (hv : s.eng.variant = some v)
  (hg : s.eng.stage = .testEntry) (hcur : s.eng.cursor = 0#17) (hsp : spansInSpace v s.eng = true)
  (hlen : s.eng.count = s.eng.tabLen.toNat) (hi : i < s.eng.count)
include hp hv hg hcur hsp hlen hi

/-- The step that tests entry `i`. -/
theorem engineStep_entriesTested :
    engineStep (entriesTested s i) = entryTested v (tabEntry s.eng s.mem i)
      ((atEntry (entriesTested s i)).log (.readEntry i)) := by
  have hat : sameOperation s (atEntry (entriesTested s i)) :=
    (entriesTested_sameOperation s i).trans (sameOperation_atEntry _)
  have ⟨_, hops, _⟩ := hat
  have ⟨_, _, _, htabLen, _⟩ := hops
  have ⟨hcmd, _⟩ := entriesTested_sameOperation s i
  have hvar : (entriesTested s i).eng.variant = some v := by
    rw [Engine.variant, hcmd]
    exact hv
  have hi16 := hi.trans s.eng.count_lt
  have hj : i < s.eng.tabLen.toNat := hlen ▸ hi
  have ha := entry_in_space hsp hj
  rw [engineStep_validate ((entriesTested_phase s i).trans hp) hvar, validateStep_eq,
    entriesTested_cursor hg hcur hi16, readEntry_ok (by rw [htabLen]; exact hj)
      (by rw [entryAddr_congr hops]; exact ha), tabEntry_congr hops, atEntry_mem, entriesTested_mem]

theorem engineStep_entriesTested_inRange (hin : entryInRange v s.eng s.mem i = true)
    (hmore : i + 1 < s.eng.count) :
    engineStep (entriesTested s i) = .next (entriesTested s (i + 1)) := by
  have ⟨_, hops, _⟩ := (entriesTested_sameOperation s i).trans (sameOperation_atEntry _)
  have ⟨_, hn, _⟩ := hops
  rw [engineStep_entriesTested hp hv hg hcur hsp hlen hi, entryTested, log_eng, hn, count_congr hops,
    entriesTested_cursor hg hcur (hi.trans s.eng.count_lt),
    if_neg (Nat.not_le.2 (entryInRange_iff.1 hin)), if_neg (Nat.not_le.2 hmore)]
  rfl

theorem engineStep_entriesTested_outOfRange (hout : entryInRange v s.eng s.mem i = false) :
    engineStep (entriesTested s i) = .next (rangeError s i) := by
  have ⟨_, hops, _⟩ := (entriesTested_sameOperation s i).trans (sameOperation_atEntry _)
  have ⟨_, hn, _⟩ := hops
  rw [engineStep_entriesTested hp hv hg hcur hsp hlen hi, entryTested, log_eng, hn,
    if_pos (Nat.not_lt.1 (of_decide_eq_false hout))]
  rfl

/-- While the entries are in range, each engine step tests the next one. -/
theorem engineRun_entriesTested (hin : ∀ k, k < i → entryInRange v s.eng s.mem k = true) :
    engineRun i s = .next (entriesTested s i) := by
  induction i with
  | zero => rfl
  | succ i ih =>
    have hi' : i < s.eng.count := Nat.lt_of_succ_lt hi
    have hbusy : (entriesTested s i).busy = true := by
      rw [State.busy_eq_phase, entriesTested_phase, hp]
      rfl
    rw [engineRun_add (ih hi' fun k hk => hin k (Nat.lt_succ_of_lt hk)), engineRun_step hbusy
      (engineStep_entriesTested_inRange hp hv hg hcur hsp hlen hi' (hin i (Nat.lt_succ_self i)) hi)]
    rfl

end

/-- What the validation pass reports at entry `j` (60_exceptions.md R176). -/
theorem rangeError_reports {s : State} {j : Nat} (hg : s.eng.stage = .testEntry)
    (hcur : s.eng.cursor = 0#17) (hj : j < 2 ^ 16) :
    reportedFailure (rangeError s j) ∧ (rangeError s j).eng.status.err = .range ∧
      (rangeError s j).eng.cursor.toNat = j ∧ (rangeError s j).mem = s.mem ∧
      (rangeError s j).trace.reverse = s.trace.reverse ++ (List.range (j + 1)).map Access.readEntry ∧
      sameOperation s (rangeError s j) := by
  refine ⟨⟨rfl, rfl, nofun⟩, rfl, entriesTested_cursor hg hcur hj, ?_,
    entriesTested_trace s (j + 1), ?_⟩
  · exact (atEntry_mem _).trans (entriesTested_mem s j)
  · exact ((entriesTested_sameOperation s j).trans (sameOperation_atEntry _)).trans (.refl _)

/-- Settles O21: `j` turns test the entries before `j`, and the next one ends the pass. -/
theorem firstOffendingEntryEndsTheSingleSteps : Obligations.FirstOffendingEntryEndsTheSingleSteps := by
  intro v s j rest hruns hs hj hout hin
  have ⟨_, _, _, _, hlen, ⟨hsp, _⟩, _⟩ := hruns
  have hlen := lengthMatches_eq_true.1 hlen
  have hvar : (accept v true s).eng.variant = some v := Engine.variant_of_launchWord (accept_cmd v true s)
  have hrun (i : Nat) (hi : i ≤ j) :
      engineRun i (accept v true s) = .next (entriesTested (accept v true s) i) :=
    engineRun_entriesTested (s := accept v true s) (v := v) rfl hvar rfl rfl hsp hlen
      (Nat.lt_of_le_of_lt hi hj) fun k hk => hin k (Nat.lt_of_lt_of_le hk hi)
  have hbusy (i : Nat) : (entriesTested (accept v true s) i).busy = true := by
    rw [State.busy_eq_phase, entriesTested_phase]
    rfl
  have hlast : engineStep (entriesTested (accept v true s) j) = .next (rangeError (accept v true s) j) :=
    engineStep_entriesTested_outOfRange (s := accept v true s) (v := v) rfl hvar rfl rfl hsp hlen hj hout
  have hturns (i : Nat) (hi : i ≤ j) : (accept v true s).withTurns
      (List.replicate i .engine ++ (List.replicate (j + 1 - i) .engine ++ rest)) = accept v true s := by
    refine withTurns_self (hs.trans ?_)
    rw [← List.append_assoc, List.replicate_append_replicate, Nat.add_sub_cancel' (by omega)]
  obtain ⟨hfail, herr, hcur, hmem, htrace, hcmd, hops, -, hx, hreplies, -, hdraws, hplat⟩ :=
    rangeError_reports (s := accept v true s) rfl rfl (hj.trans s.eng.count_lt)
  refine ⟨accept v true s, (rangeError (accept v true s) j).withTurns rest,
    hruns.accepted (by simp [hs]), accept_busy v true s, fun i hi => ?_, ?_, hfail, herr, hcur,
    hcmd.trans (encode_ofVariant v true).symm, hmem, htrace, hops, hx, hreplies, rfl, hdraws, hplat⟩
  · have hsteps := run_engineTurns (hrun i hi) (hbusy i) 0 (List.replicate (j + 1 - i) .engine ++ rest)
    rw [hturns i hi] at hsteps
    exact ⟨_, hsteps, hbusy i, entriesTested_mem _ i⟩
  · have hsteps := run_engineTurns (hrun j (Nat.le_refl j)) (hbusy j) 1
      (List.replicate (j + 1 - j) .engine ++ rest)
    rw [hturns j (Nat.le_refl j), Nat.add_sub_cancel_left] at hsteps
    exact hsteps.trans (run_step (M := Sys2Proof.core) (step_engineTurn (hbusy j) hlast rest) 0)

end Sys2Proof.Machine
end

section
/-! PROOFS. The frame of an operation as bytes of memory (43_engine_common.md R148, R162), and that a
checked and an unchecked launch give the same memory. -/

namespace Sys2Proof.Machine

/-! ### The engine writes inside the buffer span only (20_memory.md R62) -/

section
variable {v : Variant} {s t : State} {x : Nat}

/-- A write of a buffer element leaves the bytes outside the buffer alone. -/
theorem read_setBufElem_outside_bufSpan {e : Engine} {m : Memory} {k : Nat} (y : BitVec 64) (hm : m.wf)
    (hk : k < e.nElem.toNat) (ha : elemAddr v e k + v.bytes ≤ Config.addrSpace)
    (hx : (bufSpan v e).has x = false) : (setBufElem v e m k y).read x = m.read x := by
  obtain ⟨hlo, hhi⟩ := elem_in_bufSpan (v := v) hk
  refine read_setBufElem_outside y hm ha ?_
  by_contra hin
  have hhas : (bufSpan v e).has x = true := Span.has_iff.2 (by omega)
  rw [hx] at hhas
  cases hhas

theorem permuteStep_read_outside (hm : s.mem.wf) (hx : (bufSpan v s.eng).has x = false)
    (h : permuteStep v s = .next t) : t.mem.wf ∧ t.mem.read x = s.mem.read x := by
  obtain ⟨-, -, rfl⟩ | ⟨-, -, -, rfl⟩ | ⟨-, -, rfl⟩ | ⟨-, -, rfl⟩ | ⟨-, -, rfl⟩ | ⟨-, hk, ha, rfl⟩ |
    ⟨-, hk, ha, rfl⟩ := permuteStep_next h
  any_goals exact ⟨hm, rfl⟩
  · exact ⟨wf_setBufElem _ hm ha, read_setBufElem_outside_bufSpan _ hm hk ha hx⟩
  · rw [putB_mem]
    exact ⟨wf_setBufElem _ hm ha, read_setBufElem_outside_bufSpan _ hm hk ha hx⟩

theorem engineStep_read_outside (hv : s.eng.variant = some v) (hm : s.mem.wf)
    (hx : (bufSpan v s.eng).has x = false) (h : engineStep s = .next t) :
    t.mem.wf ∧ t.mem.read x = s.mem.read x := by
  obtain ⟨-, rfl⟩ | ⟨u, -, -, h⟩ | ⟨u, -, hu, h⟩ := engineStep_next h
  · exact ⟨hm, rfl⟩
  · rw [validateStep_mem h]
    exact ⟨hm, rfl⟩
  · obtain rfl := Option.some.inj (hv.symm.trans hu)
    exact permuteStep_read_outside hm hx h

/-- However far an operation is taken, a byte outside its buffer is as it was. -/
theorem engineRun_read_outside {f : Nat} (hv : s.eng.variant = some v) (hm : s.mem.wf)
    (hx : (bufSpan v s.eng).has x = false) (h : engineRun f s = .next t) :
    t.mem.wf ∧ t.mem.read x = s.mem.read x := by
  have hstep (u w : State) (hu : sameOperation s u ∧ u.mem.wf ∧ u.mem.read x = s.mem.read x)
      (_ : u.busy = true) (h : engineStep u = .next w) :
      sameOperation s w ∧ w.mem.wf ∧ w.mem.read x = s.mem.read x := by
    obtain ⟨hop, hm', hread⟩ := hu
    have ⟨hcmd, hops, _⟩ := hop
    have hv' : u.eng.variant = some v := by rw [Engine.variant, hcmd]; exact hv
    have hx' : (bufSpan v u.eng).has x = false := by rw [bufSpan_congr hops]; exact hx
    obtain ⟨hm'', hread'⟩ := engineStep_read_outside hv' hm' hx' h
    exact ⟨hop.trans (engineStep_sameOperation h), hm'', hread'.trans hread⟩
  obtain ⟨-, hm', hread⟩ := engineRun_keeps hstep ⟨.refl s, hm, rfl⟩ h
  exact ⟨hm', hread⟩

/-- An apply operation, however it ends, leaves every byte outside its buffer alone. -/
theorem exec_ofVariant_read_outside {chk : Bool} (hm : s.mem.wf) (hx : (bufSpan v s.eng).has x = false)
    (h : exec (Instr.ofVariant v chk) s = .next t) : t.mem.read x = s.mem.read x := by
  rw [exec_ofVariant] at h
  obtain ⟨-, rfl⟩ | ⟨-, -, rfl⟩ | ⟨hb, -, h⟩ := launch_next h
  · rfl
  · rfl
  obtain rfl | ⟨code, rfl⟩ | ⟨-, f, hf⟩ := afterAccept_cases hb h
  · rfl
  · rfl
  · have hv : (accept v chk s).eng.variant = some v := Engine.variant_of_launchWord (accept_cmd v chk s)
    exact (engineRun_read_outside (s := accept v chk s) hv hm hx hf).2

theorem exec_ofVariant_read_table {chk : Bool} (hm : s.mem.wf) (hx : (tabSpan s.eng).has x = true)
    (h : exec (Instr.ofVariant v chk) s = .next t) : t.mem.read x = s.mem.read x := by
  have hexec := h
  rw [exec_ofVariant] at h
  obtain ⟨-, rfl⟩ | ⟨-, -, rfl⟩ | ⟨hb, -, h⟩ := launch_next h
  · rfl
  · rfl
  obtain rfl | ⟨code, rfl⟩ | ⟨⟨-, -, -, -, -, ⟨-, hap, -⟩, -⟩, -⟩ := afterAccept_cases hb h
  · rfl
  · rfl
  · refine exec_ofVariant_read_outside hm ((Bool.not_eq_true _).mp fun hbuf => ?_) hexec
    have hov := overlaps_of_has hbuf hx
    rw [spansApart_iff.1 hap] at hov
    cases hov

end

/-! ### What a command leaves unchanged (43_engine_common.md R162) -/

theorem launchOf_ofVariant (v : Variant) (chk : Bool) : (Instr.ofVariant v chk).launchOf = some (v, chk) := by
  cases v <;> rfl

/-- A command leaves the operand registers and the surroundings alone. -/
theorem exec_sameOperands_sameSurroundings {i : Instr} {s t : State} (h : exec i s = .next t) :
    sameOperands s.eng t.eng ∧ sameSurroundings s t := by
  obtain ⟨rfl, -⟩ | ⟨-, -, -, rfl⟩ | ⟨v, chk, -, hb, ha⟩ := exec_next h
  · exact ⟨.refl _, rfl, rfl, rfl, rfl, rfl⟩
  · exact ⟨.refl _, rfl, rfl, rfl, rfl, rfl⟩
  · obtain ⟨-, hops, -, hsurr⟩ := afterAccept_sameOperation hb ha
    exact ⟨hops, hsurr⟩

theorem exec_mem_of_no_launch {i : Instr} {s t : State} (hi : i.launchOf = none)
    (h : exec i s = .next t) : t.mem = s.mem := by
  obtain ⟨rfl, -⟩ | ⟨-, -, -, rfl⟩ | ⟨v, chk, rfl, -, -⟩ := exec_next h
  · rfl
  · rfl
  · rw [launchOf_ofVariant] at hi
    cases hi

theorem launchOf_cases (i : Instr) : i.launchOf = none ∨ ∃ v chk, i = Instr.ofVariant v chk := by
  cases i with
  | applyScalar16 chk => exact .inr ⟨.s16, chk, rfl⟩
  | applyComplex32 chk => exact .inr ⟨.c32, chk, rfl⟩
  | applyComplex64 chk => exact .inr ⟨.c64, chk, rfl⟩
  | nop rest => exact .inl rfl
  | reservedWsel3 chk => exact .inl rfl
  | reservedRsv rsv low => exact .inl rfl

/-- Settles O31: an operation writes elements that its table names, in a buffer apart from the table. -/
theorem operationChangesOnlyWhatItsTableNames : Obligations.OperationChangesOnlyWhatItsTableNames := by
  intro i s t hm h
  obtain ⟨hops, hsurr⟩ := exec_sameOperands_sameSurroundings h
  refine ⟨hops, hsurr, ?_, fun x hx => ?_, fun hi => exec_mem_of_no_launch hi h⟩
  · rintro v chk rfl x hx
    exact exec_ofVariant_read_of_not_named hm hx h
  · obtain hi | ⟨v, chk, rfl⟩ := launchOf_cases i
    · rw [exec_mem_of_no_launch hi h]
    · exact exec_ofVariant_read_table hm hx h

/-! ### Memory from the buffer's elements (20_memory.md R57) -/

/-- A wide read says what each of its bytes is. -/
theorem read_of_readLE_eq {m m' : Memory} {a n : Nat} (h : m'.readLE a n = m.readLE a n) {x : Nat}
    (hlo : a ≤ x) (hhi : x < a + n) : m'.read x = m.read x := by
  induction n generalizing a with
  | zero => omega
  | succ n ih =>
    have hb := (m.read a).isLt
    have hb' := (m'.read a).isLt
    simp only [Memory.readLE] at h
    by_cases hx : x = a
    · subst hx
      exact BitVec.eq_of_toNat_eq (by omega)
    · exact ih (a := a + 1) (by omega) (by omega) (by omega)

/-- A byte of the buffer span is a byte of one of its elements. -/
theorem elem_of_bufSpan_has {v : Variant} {e : Engine} {x : Nat} (hx : (bufSpan v e).has x = true) :
    ∃ k, k < e.nElem.toNat ∧ elemAddr v e k ≤ x ∧ x < elemAddr v e k + v.bytes := by
  have hpos := Variant.bytes_pos v
  obtain ⟨hlo, hhi⟩ := Span.has_iff.1 hx
  simp only [bufSpan, Span.top] at hlo hhi
  have hdm := Nat.div_add_mod (x - e.bufBase.toNat) v.bytes
  have hmod := Nat.mod_lt (x - e.bufBase.toNat) hpos
  rw [Nat.mul_comm] at hdm
  refine ⟨(x - e.bufBase.toNat) / v.bytes, (Nat.div_lt_iff_lt_mul hpos).2 (by omega), ?_, ?_⟩ <;>
    unfold elemAddr <;> omega

/-- Two canonical memories with the same buffer elements and the same bytes outside the buffer are the
same. -/
theorem mem_eq_of_sameBuffer {v : Variant} {e : Engine} {m m' : Memory} (hm : m.wf) (hm' : m'.wf)
    (hbuf : ∀ k, k < e.nElem.toNat → bufElem v e m' k = bufElem v e m k)
    (hout : ∀ x, (bufSpan v e).has x = false → m'.read x = m.read x) : m' = m := by
  refine Memory.ext hm' hm fun x => ?_
  cases hx : (bufSpan v e).has x
  case false => exact hout x hx
  case true =>
    obtain ⟨k, hk, hlo, hhi⟩ := elem_of_bufSpan_has hx
    refine read_of_readLE_eq ?_ hlo hhi
    rw [← bufElem_toNat, ← bufElem_toNat, hbuf k hk]

/-! ### A checked and an unchecked launch (43_engine_common.md R148) -/

theorem validLaunch.mem_wf {v : Variant} {chk : Bool} {s t : State} (h : validLaunch v s) (hm : s.mem.wf)
    (hs : s.sched = []) (ht : exec (Instr.ofVariant v chk) s = .next t) : t.mem.wf := by
  obtain ⟨u, hu, -, hdone⟩ := h.completes chk hm hs
  obtain rfl := Host.Outcome.next.inj (ht.symm.trans hu)
  exact hdone.mem_wf

/-- The routine's buffer, read through the operand registers of the launch. -/
theorem Permuted.bufElem_eq_apply {v : Variant} {chk : Bool} {s t : State} (h : Permuted v chk s t) {k : Nat}
    (hk : k < s.eng.nElem.toNat) : bufElem v s.eng t.mem k =
      apply v.shift v.group (bufElem v s.eng s.mem) (tabEntry s.eng s.mem) s.eng.count k := by
  have hbuf := h.buffer k hk
  rwa [bufElem_congr h.operands] at hbuf

/-- Settles O29: both launches leave the routine's buffer, and outside it the bytes of the start. -/
theorem validLaunchComputesTheRoutine : Obligations.ValidLaunchComputesTheRoutine := by
  intro v s hm hvalid hs
  obtain ⟨t, ht, hpt⟩ := hvalid.permutes false hm hs
  obtain ⟨u, hu, hpu⟩ := hvalid.permutes true hm hs
  refine ⟨t, u, ht, hu, hpt.good, hpu.good, ?_, hpt.cursor, hpu.cursor, hpt.buffer⟩
  refine mem_eq_of_sameBuffer (v := v) (e := s.eng) (hvalid.mem_wf hm hs hu) (hvalid.mem_wf hm hs ht)
    (fun k hk => ?_) fun x hx => ?_
  · rw [hpt.bufElem_eq_apply hk, hpu.bufElem_eq_apply hk]
  · rw [exec_ofVariant_read_outside hm hx ht, exec_ofVariant_read_outside hm hx hu]

end Sys2Proof.Machine
end

section
/-! PROOFS. The laws of the routine (43_engine_common.md R152, R156, R157, R160): an operation is a
permutation of positions, the product of the transpositions that its pairs name. -/

namespace Sys2Proof.Machine

/-! ### The routine as a permutation of positions (43_engine_common.md R145) -/

/-- The element that a permutation of positions puts at place `k`, in samples of `g` elements. -/
def onPositions (g : Nat) (ρ : Equiv.Perm Nat) (k : Nat) : Nat := g * ρ (k / g) + k % g

/-- The transpositions of the pairs, the first pair's on the left. -/
def pairSwaps (l : List (Nat × Nat)) : List (Equiv.Perm Nat) := l.map fun q => Equiv.swap q.1 q.2

/-- The unordered pairs of positions of a table's first `p` pairs. -/
def tablePairs (sh : Nat) (T : Nat → BitVec 16) (p : Nat) : List (Nat × Nat) :=
  (List.range p).map (pairPositions sh T)

/-- Where the first `p` pairs of a table find the position that comes to a place. -/
def tablePerm (sh : Nat) (T : Nat → BitVec 16) (p : Nat) : Equiv.Perm Nat :=
  (pairSwaps (tablePairs sh T p)).prod

theorem onPositions_sample {g c : Nat} (ρ : Equiv.Perm Nat) (a : Nat) (hc : c < g) :
    onPositions g ρ (g * a + c) = g * ρ a + c := by
  have hg : 0 < g := Nat.zero_lt_of_lt hc
  rw [onPositions, Nat.mul_add_div hg, Nat.div_eq_of_lt hc, Nat.add_zero, Nat.mul_add_mod,
    Nat.mod_eq_of_lt hc]

@[simp] theorem onPositions_one (g k : Nat) : onPositions g 1 k = k := Nat.div_add_mod k g

theorem onPositions_mul (g : Nat) (ρ σ : Equiv.Perm Nat) (k : Nat) :
    onPositions g (ρ * σ) k = onPositions g ρ (onPositions g σ k) := by
  obtain rfl | hg := Nat.eq_zero_or_pos g
  · simp [onPositions]
  · exact (onPositions_sample ρ (σ (k / g)) (Nat.mod_lt k hg)).symm

theorem swap_pairPositions (sh : Nat) (T : Nat → BitVec 16) (p : Nat) :
    Equiv.swap (pairPositions sh T p).1 (pairPositions sh T p).2 =
      Equiv.swap (T (2 * p) >>> sh).toNat (T (2 * p + 1) >>> sh).toNat := by
  rw [pairPositions]
  obtain h | h := Nat.le_total (T (2 * p) >>> sh).toNat (T (2 * p + 1) >>> sh).toNat
  · rw [Nat.min_eq_left h, Nat.max_eq_right h]
  · rw [Nat.min_eq_right h, Nat.max_eq_left h, Equiv.swap_comm]

theorem tablePerm_succ (sh : Nat) (T : Nat → BitVec 16) (p : Nat) :
    tablePerm sh T (p + 1) =
      tablePerm sh T p * Equiv.swap (T (2 * p) >>> sh).toNat (T (2 * p + 1) >>> sh).toNat := by
  simp [tablePerm, tablePairs, pairSwaps, List.range_succ, swap_pairPositions]

section
variable {α : Type}

/-- The exchange of the first `c` components of two samples, place by place. -/
theorem exchangeComponents_apply {g c : Nat} (a b : Nat) (B : Nat → α) (hc : c ≤ g) (k : Nat) :
    exchangeComponents g a b c B k = if k % g < c then B (onPositions g (Equiv.swap a b) k) else B k := by
  induction c generalizing k with
  | zero => rw [if_neg (Nat.not_lt_zero _), exchangeComponents_zero]
  | succ c ih =>
    have hmod (i : Nat) : (g * i + c) % g = c := by rw [Nat.mul_add_mod, Nat.mod_eq_of_lt hc]
    have hkeep (i : Nat) : exchangeComponents g a b c B (g * i + c) = B (g * i + c) := by
      rw [ih (Nat.le_of_succ_le hc), hmod, if_neg (Nat.lt_irrefl c)]
    rw [exchangeComponents_succ]
    by_cases hka : k = g * a + c
    · subst hka
      rw [swapElems_left, hkeep, hmod, if_pos (Nat.lt_succ_self c), onPositions_sample _ _ hc,
        Equiv.swap_apply_left]
    by_cases hkb : k = g * b + c
    · subst hkb
      rw [swapElems_right, hkeep, hmod, if_pos (Nat.lt_succ_self c), onPositions_sample _ _ hc,
        Equiv.swap_apply_right]
    rw [swapElems_other _ hka hkb, ih (Nat.le_of_succ_le hc)]
    by_cases hk : k % g = c
    · have hdm := Nat.div_add_mod k g
      rw [hk] at hdm
      have hfix : Equiv.swap a b (k / g) = k / g :=
        Equiv.swap_apply_of_ne_of_ne (by rintro rfl; exact hka hdm.symm) (by rintro rfl; exact hkb hdm.symm)
      rw [hk, if_neg (Nat.lt_irrefl c), if_pos (Nat.lt_succ_self c), onPositions, hfix, Nat.div_add_mod]
    · exact if_congr (by omega) rfl rfl

/-- A pair exchanges two positions, all their components together. -/
theorem pairExchange_apply (sh g : Nat) (B : Nat → α) (rawA rawB : BitVec 16) (k : Nat) :
    pairExchange sh g B rawA rawB k =
      B (onPositions g (Equiv.swap (rawA >>> sh).toNat (rawB >>> sh).toNat) k) := by
  rw [pairExchange, exchangeComponents_apply _ _ _ (Nat.le_refl g)]
  obtain rfl | hg := Nat.eq_zero_or_pos g
  · simp [onPositions]
  · rw [if_pos (Nat.mod_lt k hg)]

/-- The routine is a permutation of the positions. -/
theorem applyPairs_apply (sh g : Nat) (B : Nat → α) (T : Nat → BitVec 16) (p k : Nat) :
    applyPairs sh g B T p k = B (onPositions g (tablePerm sh T p) k) := by
  induction p generalizing k with
  | zero => exact congrArg B (onPositions_one g k).symm
  | succ p ih => rw [applyPairs_succ, pairExchange_apply, ih, tablePerm_succ, onPositions_mul]

end

/-! ### Disjoint tables (43_engine_common.md R152, R156, R165) -/

section
variable {sh p : Nat} {T : Nat → BitVec 16}

/-- The pairs of a disjoint table exchange disjoint positions, so their order does not matter. -/
theorem tableDisjoint.pairwise_commute (h : tableDisjoint sh T (2 * p)) :
    (pairSwaps (tablePairs sh T p)).Pairwise Commute := by
  rw [pairSwaps, tablePairs, List.map_map, List.pairwise_map]
  refine List.nodup_range.pairwise_of_forall_ne fun i hi j hj hij => ?_
  rw [List.mem_range] at hi hj
  have hne (x y : Nat) (h' : x < 2 * p ∧ y < 2 * p ∧ x ≠ y) : (T x >>> sh).toNat ≠ (T y >>> sh).toNat :=
    fun he => h'.2.2 (h x y h'.1 h'.2.1 he)
  show Commute (Equiv.swap (pairPositions sh T i).1 (pairPositions sh T i).2)
    (Equiv.swap (pairPositions sh T j).1 (pairPositions sh T j).2)
  rw [swap_pairPositions, swap_pairPositions]
  refine (Equiv.Perm.disjoint_swap_swap ?_).commute
  simp only [List.nodup_cons, List.mem_cons, List.not_mem_nil, or_false, not_or, not_false_eq_true,
    List.nodup_nil, and_true]
  exact ⟨⟨hne (2 * i) (2 * i + 1) (by omega), hne (2 * i) (2 * j) (by omega),
    hne (2 * i) (2 * j + 1) (by omega)⟩, ⟨hne (2 * i + 1) (2 * j) (by omega),
    hne (2 * i + 1) (2 * j + 1) (by omega)⟩, hne (2 * j) (2 * j + 1) (by omega)⟩

/-- Commuting transpositions taken twice restore every position. -/
theorem pairSwaps_prod_mul_self {l : List (Nat × Nat)} (h : (pairSwaps l).Pairwise Commute) :
    (pairSwaps l).prod * (pairSwaps l).prod = 1 := by
  have hinv : (pairSwaps l).map (fun σ => σ⁻¹) = pairSwaps l := by
    simp [pairSwaps, Function.comp_def]
  have hself : (pairSwaps l).prod⁻¹ = (pairSwaps l).prod := by
    rw [List.prod_inv_reverse, hinv]
    exact ((List.reverse_perm _).symm.prod_eq' h).symm
  calc (pairSwaps l).prod * (pairSwaps l).prod
    _ = (pairSwaps l).prod * (pairSwaps l).prod⁻¹ := by rw [hself]
    _ = 1 := mul_inv_cancel _

/-- The routine with a disjoint table is its own inverse. -/
theorem tableDisjoint.applyPairs_applyPairs {α : Type} (h : tableDisjoint sh T (2 * p)) (g : Nat)
    (B : Nat → α) : applyPairs sh g (applyPairs sh g B T p) T p = B := by
  funext k
  rw [applyPairs_apply, applyPairs_apply, ← onPositions_mul, tablePerm,
    pairSwaps_prod_mul_self h.pairwise_commute, onPositions_one]

end

theorem apply_two_mul {α : Type} (sh g : Nat) (B : Nat → α) (T : Nat → BitVec 16) (p : Nat) :
    apply sh g B T (2 * p) = applyPairs sh g B T p := by
  rw [apply, Nat.mul_div_cancel_left p (by decide)]

/-- Settles O36: the transpositions of a disjoint table commute, so their product does not depend on their
order. -/
theorem orderOfDisjointPairsDoesNotMatter : Obligations.OrderOfDisjointPairsDoesNotMatter := by
  intro sh g p B T T' hdis hperm
  have hprod : tablePerm sh T p = tablePerm sh T' p :=
    (hperm.map fun q : Nat × Nat => Equiv.swap q.1 q.2).prod_eq' hdis.pairwise_commute
  funext k
  rw [apply_two_mul, apply_two_mul, applyPairs_apply, applyPairs_apply, hprod]

/-! ### The second launch (43_engine_common.md R156) -/

/-- After a valid launch the same launch is valid again. -/
theorem validLaunch.again {v : Variant} {chk : Bool} {s t : State} (h : validLaunch v s)
    (ht : Permuted v chk s t) : validLaunch v t := by
  obtain ⟨-, hc, hsp, hap, hord⟩ := h
  obtain ⟨hn, hal, hev, hlen, hin⟩ := contractHolds_iff.1 hc
  have hops := ht.operands
  obtain ⟨-, -, -, -, hplat⟩ := ht.surroundings
  obtain ⟨hidle, -⟩ := ht.good
  refine ⟨hidle, contractHolds_iff.2 ⟨by rwa [count_congr hops], by rwa [aligned_congr hops],
    by rwa [oddCount_congr hops], by rwa [lengthMatches_congr hops], ?_⟩,
    by rwa [spansInSpace_congr hops], by rwa [spansApart_congr hops],
    by rwa [hplat, spansOrdinary_congr hops]⟩
  rw [allInRange_congr hops]
  refine allInRange_mem_congr (fun j hj => ?_) hin
  rw [← tabEntry_congr hops, ht.table j hj]

/-- The routine, as a valid launch runs it, looks at the elements of the buffer only. -/
theorem validLaunch.applyPairs_congr {v : Variant} {s : State} (h : validLaunch v s)
    {B B' : Nat → BitVec 64} {T' : Nat → BitVec 16}
    (hT : ∀ j, j < s.eng.count → T' j = tabEntry s.eng s.mem j)
    (hB : ∀ k, k < s.eng.nElem.toNat → B' k = B k) :
    ∀ k, k < s.eng.nElem.toNat → apply v.shift v.group B' T' s.eng.count k =
      apply v.shift v.group B (tabEntry s.eng s.mem) s.eng.count k := by
  obtain ⟨-, hc, -⟩ := h
  obtain ⟨-, -, -, -, hin⟩ := contractHolds_iff.1 hc
  exact applyPairs_congr_below (fun j hj => by rw [hT j (by omega)])
    (fun j hj => sample_le_of_inRange (allInRange_iff.1 hin j (by omega))) hB

theorem validLaunch.count_even {v : Variant} {s : State} (h : validLaunch v s) :
    2 * (s.eng.count / 2) = s.eng.count := by
  obtain ⟨-, hc, -⟩ := h
  obtain ⟨-, -, hev, -⟩ := contractHolds_iff.1 hc
  exact Nat.mul_div_cancel' (Nat.dvd_of_mod_eq_zero (oddCount_eq_false.1 hev))

/-- The second of two launches with a disjoint table gives every element its first value again. -/
theorem validLaunch.bufElem_second {v : Variant} {chk chk' : Bool} {s t u : State} (h : validLaunch v s)
    (hdis : tableDisjoint v.shift (tabEntry s.eng s.mem) s.eng.count) (ht : Permuted v chk s t)
    (hu : Permuted v chk' t u) {k : Nat} (hk : k < s.eng.nElem.toNat) :
    bufElem v s.eng u.mem k = bufElem v s.eng s.mem k := by
  have hops := ht.operands
  have ⟨_, hn, _⟩ := hops
  rw [← h.count_even] at hdis
  calc bufElem v s.eng u.mem k
    _ = bufElem v t.eng u.mem k := by rw [bufElem_congr hops]
    _ = apply v.shift v.group (bufElem v t.eng t.mem) (tabEntry t.eng t.mem) s.eng.count k := by
      rw [hu.bufElem_eq_apply (hn ▸ hk), count_congr hops]
    _ = apply v.shift v.group (apply v.shift v.group (bufElem v s.eng s.mem) (tabEntry s.eng s.mem)
          s.eng.count) (tabEntry s.eng s.mem) s.eng.count k :=
      h.applyPairs_congr ht.table ht.buffer k hk
    _ = bufElem v s.eng s.mem k := congrFun (hdis.applyPairs_applyPairs v.group _) k

/-- Settles O33: the second launch restores the elements, and neither touches a byte outside the buffer. -/
theorem secondLaunchRestoresTheBuffer : Obligations.SecondLaunchRestoresTheBuffer := by
  refine ⟨fun v chk chk' s hm hvalid hs hdis => ?_, by decide⟩
  obtain ⟨t, hexec, ht⟩ := hvalid.permutes chk hm hs
  have hvalid' := hvalid.again ht
  have hm' := hvalid.mem_wf hm hs hexec
  obtain ⟨-, -, hsched, -⟩ := ht.surroundings
  have hs' := hsched.trans hs
  obtain ⟨u, hexec', hu⟩ := hvalid'.permutes chk' hm' hs'
  refine ⟨t, u, hexec, hexec', mem_eq_of_sameBuffer (v := v) (e := s.eng) hm
    (hvalid'.mem_wf hm' hs' hexec') (fun k hk => hvalid.bufElem_second hdis ht hu hk) fun x hx => ?_⟩
  rw [exec_ofVariant_read_outside hm' (by rwa [bufSpan_congr ht.operands]) hexec',
    exec_ofVariant_read_outside hm hx hexec]

/-! ### No element is lost or duplicated (43_engine_common.md R157) -/

section
variable {α : Type} {N : Nat}

theorem swapElems_eq_comp (B : Nat → α) (a b : Nat) : swapElems B a b = B ∘ Equiv.swap a b := by
  funext k
  rw [Function.comp_apply, Equiv.swap_apply_def, swapElems, apply_ite B, apply_ite B]

theorem map_swap_range_perm {a b : Nat} (ha : a < N) (hb : b < N) :
    ((List.range N).map (Equiv.swap a b)).Perm (List.range N) := by
  refine (List.perm_ext_iff_of_nodup (List.nodup_range.map (Equiv.swap a b).injective)
    List.nodup_range).2 fun x => ?_
  have hlt (y : Nat) (hy : y < N) : Equiv.swap a b y < N := by
    rw [Equiv.swap_apply_def]
    split_ifs <;> assumption
  simp only [List.mem_map, List.mem_range]
  refine ⟨?_, fun hx => ⟨Equiv.swap a b x, hlt x hx, Equiv.swap_apply_self a b x⟩⟩
  rintro ⟨y, hy, rfl⟩
  exact hlt y hy

theorem map_swapElems_perm (B : Nat → α) {a b : Nat} (ha : a < N) (hb : b < N) :
    ((List.range N).map (swapElems B a b)).Perm ((List.range N).map B) := by
  rw [swapElems_eq_comp, ← List.map_map]
  exact (map_swap_range_perm ha hb).map B

theorem map_exchangeComponents_perm (B : Nat → α) {g a b c : Nat} (ha : g * a + c ≤ N)
    (hb : g * b + c ≤ N) :
    ((List.range N).map (exchangeComponents g a b c B)).Perm ((List.range N).map B) := by
  induction c with
  | zero => exact .refl _
  | succ c ih =>
    rw [exchangeComponents_succ]
    exact (map_swapElems_perm _ ha hb).trans (ih (Nat.le_of_succ_le ha) (Nat.le_of_succ_le hb))

/-- With every entry in range the routine permutes the elements of the buffer. -/
theorem map_applyPairs_perm (B : Nat → α) {sh g p : Nat} {T : Nat → BitVec 16}
    (hin : ∀ j, j < 2 * p → g * (T j >>> sh).toNat + g ≤ N) :
    ((List.range N).map (applyPairs sh g B T p)).Perm ((List.range N).map B) := by
  induction p with
  | zero => exact .refl _
  | succ p ih =>
    rw [applyPairs_succ, pairExchange]
    exact (map_exchangeComponents_perm _ (hin (2 * p) (by omega)) (hin (2 * p + 1) (by omega))).trans
      (ih fun j hj => hin j (by omega))

end

/-- Settles O34: each exchange permutes the list of elements. -/
theorem elementsAreNeitherLostNorDuplicated : Obligations.ElementsAreNeitherLostNorDuplicated := by
  intro v chk s hm hvalid hs
  obtain ⟨t, hexec, ht⟩ := hvalid.permutes chk hm hs
  refine ⟨t, hexec, ?_⟩
  obtain ⟨-, hc, -⟩ := hvalid
  obtain ⟨-, -, -, -, hin⟩ := contractHolds_iff.1 hc
  rw [List.map_congr_left fun k hk => ht.buffer k (List.mem_range.1 hk)]
  exact map_applyPairs_perm _ fun j hj => sample_le_of_inRange (allInRange_iff.1 hin j (by omega))

end Sys2Proof.Machine
end

section
/-! PROOFS. The bit-reversal table (43_engine_common.md R160, R165). -/

namespace Sys2Proof.Machine

/-! ### Bit reversal (43_engine_common.md R165) -/

theorem bitRev_lt (m i : Nat) : bitRev m i < 2 ^ m := by
  induction m generalizing i with
  | zero => exact Nat.one_pos
  | succ m ih =>
    have hbit := Nat.mod_lt i (show 0 < 2 by decide)
    have htop := Nat.mul_le_mul_right (2 ^ m) (Nat.le_of_lt_succ hbit)
    have := ih (i / 2)
    rw [bitRev, Nat.pow_succ]
    omega

/-- Bit `j` of the result is bit `m - 1 - j` of the index. -/
theorem testBit_bitRev (m i j : Nat) :
    (bitRev m i).testBit j = (decide (j < m) && i.testBit (m - 1 - j)) := by
  induction m generalizing i j with
  | zero => simp [bitRev]
  | succ m ih =>
    rw [bitRev, Nat.mul_comm, Nat.testBit_two_pow_mul_add _ (bitRev_lt m (i / 2)), ih]
    obtain hj | rfl | hj := Nat.lt_trichotomy j m
    · have hsub : m - j = (m - 1 - j) + 1 := by omega
      simp [hj, Nat.lt_succ_of_lt hj, hsub, Nat.testBit_div_two]
    · simp [Nat.testBit_zero]
    · have hone : (i % 2).testBit (j - m) = false :=
        Nat.testBit_lt_two_pow ((Nat.mod_lt i (show 0 < 2 by decide)).trans_le
          (Nat.le_self_pow (by omega) 2))
      simp [hj.not_gt, hone, show ¬ j < m + 1 by omega]

theorem bitRev_bitRev {m i : Nat} (hi : i < 2 ^ m) : bitRev m (bitRev m i) = i := by
  refine Nat.eq_of_testBit_eq fun j => ?_
  rw [testBit_bitRev, testBit_bitRev]
  by_cases hj : j < m
  · have hsub : m - 1 - (m - 1 - j) = j := by omega
    simp [hj, hsub, show m - 1 - j < m by omega]
  · have hbeyond : i < 2 ^ j := hi.trans_le (Nat.pow_le_pow_right (by decide) (Nat.le_of_not_lt hj))
    simp [hj, Nat.testBit_lt_two_pow hbeyond]

/-- Bit reversal of the positions below `2^m`, and the identity above. -/
def bitRevBelow (m i : Nat) : Nat := if i < 2 ^ m then bitRev m i else i

theorem bitRevBelow_of_lt {m i : Nat} (h : i < 2 ^ m) : bitRevBelow m i = bitRev m i := if_pos h

theorem bitRevBelow_involutive (m : Nat) : Function.Involutive (bitRevBelow m) := by
  intro i
  by_cases hi : i < 2 ^ m
  · rw [bitRevBelow_of_lt hi, bitRevBelow_of_lt (bitRev_lt m i), bitRev_bitRev hi]
  · have hfix : bitRevBelow m i = i := if_neg hi
    rw [hfix, hfix]

/-! ### The transpositions of an involution -/

section
variable {f : Nat → Nat} {l : List Nat}

/-- The pairs of an involution, each point below its image. -/
def pairsOf (f : Nat → Nat) (l : List Nat) : List (Nat × Nat) := l.map fun i => (i, f i)

theorem pairSwaps_pairsOf_cons (f : Nat → Nat) (i : Nat) (l : List Nat) :
    (pairSwaps (pairsOf f (i :: l))).prod = Equiv.swap i (f i) * (pairSwaps (pairsOf f l)).prod := rfl

/-- The product of an involution's transpositions is the involution on the points they name. -/
theorem pairSwaps_pairsOf_apply (hf : Function.Involutive f) (hnd : l.Nodup) (hl : ∀ i, i ∈ l → i < f i)
    (x : Nat) : (pairSwaps (pairsOf f l)).prod x = if x ∈ l ∨ f x ∈ l then f x else x := by
  induction l generalizing x with
  | nil => simp [pairSwaps, pairsOf]
  | cons i l ih =>
    obtain ⟨hi, hnd⟩ := List.nodup_cons.1 hnd
    obtain ⟨hlt, hl⟩ := List.forall_mem_cons.1 hl
    have hfi : f i ∉ l := fun hmem => by
      have := hl _ hmem
      rw [hf i] at this
      omega
    rw [pairSwaps_pairsOf_cons, Equiv.Perm.mul_apply, ih hnd hl]
    by_cases hxi : x = i
    · subst hxi
      simp [hi, hfi]
    by_cases hfx : f x = i
    · subst hfx
      rw [hf x] at hfi
      simp [hi, hfi, hf x]
    have hfx' : f x ≠ f i := fun he => hxi (hf.injective he)
    have hxf : x ≠ f i := fun he => hfx (by rw [he, hf i])
    have hfix : Equiv.swap i (f i) (if x ∈ l ∨ f x ∈ l then f x else x) =
        if x ∈ l ∨ f x ∈ l then f x else x := by
      split
      · exact Equiv.swap_apply_of_ne_of_ne hfx hfx'
      · exact Equiv.swap_apply_of_ne_of_ne hxi hxf
    rw [hfix]
    simp [hxi, hfx]

/-- The transpositions of an involution commute. -/
theorem pairSwaps_pairsOf_commute (hf : Function.Involutive f) (hnd : l.Nodup)
    (hl : ∀ i, i ∈ l → i < f i) : (pairSwaps (pairsOf f l)).Pairwise Commute := by
  rw [pairSwaps, pairsOf, List.map_map, List.pairwise_map]
  refine hnd.pairwise_of_forall_ne fun i hi j hj hij => (Equiv.Perm.disjoint_swap_swap ?_).commute
  have hi' := hl i hi
  have hj' := hl j hj
  have hne : f i ≠ f j := fun he => hij (hf.injective he)
  have hij' : i ≠ f j := fun he => by
    rw [he, hf j] at hi'
    omega
  have hji' : f i ≠ j := fun he => by
    rw [← he, hf i] at hj'
    omega
  simp [hij, hij', hji', hne, hi'.ne, hj'.ne]

end

/-! ### The operation with a bit-reversal table (43_engine_common.md R160) -/

/-- The positions below `2^m` that bit reversal moves up. -/
def movedUp (m : Nat) : List Nat := (List.range (2 ^ m)).filter fun i => decide (i < bitRev m i)

theorem mem_movedUp {m i : Nat} : i ∈ movedUp m ↔ i < 2 ^ m ∧ i < bitRev m i := by
  simp [movedUp]

theorem nodup_movedUp (m : Nat) : (movedUp m).Nodup := List.nodup_range.filter _

theorem lt_bitRevBelow_of_movedUp {m i : Nat} (h : i ∈ movedUp m) : i < bitRevBelow m i := by
  obtain ⟨hlt, hup⟩ := mem_movedUp.1 h
  rwa [bitRevBelow_of_lt hlt]

theorem pairsOf_bitRevBelow (m : Nat) :
    pairsOf (bitRevBelow m) (movedUp m) = (movedUp m).map fun i => (i, bitRev m i) :=
  List.map_congr_left fun i hi => by rw [bitRevBelow_of_lt (mem_movedUp.1 hi).1]

/-- A bit-reversal table sends each of its positions to the bit-reversed one. -/
theorem bitReversalTable.tablePerm_apply {sh m n : Nat} {T : Nat → BitVec 16}
    (h : bitReversalTable sh m T n) {p : Nat} (hp : p < 2 ^ m) :
    tablePerm sh T (n / 2) p = bitRev m p := by
  obtain ⟨-, hperm⟩ := h
  have hinv := bitRevBelow_involutive m
  have hup : ∀ i, i ∈ movedUp m → i < bitRevBelow m i := fun i => lt_bitRevBelow_of_movedUp
  have hperm' : (pairsOf (bitRevBelow m) (movedUp m)).Perm (tablePairs sh T (n / 2)) := by
    rw [pairsOf_bitRevBelow]
    exact hperm.symm
  have hprod : (pairSwaps (pairsOf (bitRevBelow m) (movedUp m))).prod = tablePerm sh T (n / 2) :=
    (hperm'.map fun q : Nat × Nat => Equiv.swap q.1 q.2).prod_eq'
      (pairSwaps_pairsOf_commute hinv (nodup_movedUp m) hup)
  rw [← hprod, pairSwaps_pairsOf_apply hinv (nodup_movedUp m) hup, bitRevBelow_of_lt hp]
  split
  case isTrue => rfl
  case isFalse hnot =>
    rw [mem_movedUp, mem_movedUp, bitRev_bitRev hp] at hnot
    have := bitRev_lt m p
    omega

/-- Settles O35: the transpositions of the table make up the bit reversal of its positions. -/
theorem bitReversalTableGivesBitReversedOrder : Obligations.BitReversalTableGivesBitReversedOrder := by
  refine ⟨fun v chk s m hm hvalid hs htab hfit => ?_, by decide⟩
  obtain ⟨t, hexec, ht⟩ := hvalid.permutes chk hm hs
  refine ⟨t, hexec, fun p c hp hc => ?_⟩
  have hk : v.group * p + c < s.eng.nElem.toNat := by
    have := Nat.mul_le_mul_left v.group (Nat.succ_le_of_lt hp)
    rw [Nat.mul_succ] at this
    omega
  rw [ht.buffer _ hk, apply, applyPairs_apply, onPositions_sample _ _ hc, htab.tablePerm_apply hp]

end Sys2Proof.Machine
end

section
/-! PROOFS. One pair of the permute pass, access by access (43_engine_common.md R145, R146, R150). -/

namespace Sys2Proof.Machine

/-! ### Inside one exchange (43_engine_common.md R150) -/

/-- From `s` to `t` the engine was at work on one component of one pair. -/
structure SameExchange (s t : State) : Prop where
  operands : sameOperands s.eng t.eng
  cmd      : t.eng.cmd = s.eng.cmd
  phase    : t.eng.phase = s.eng.phase
  cursor   : t.eng.cursor = s.eng.cursor
  a        : t.eng.tmp.a = s.eng.tmp.a
  b        : t.eng.tmp.b = s.eng.tmp.b
  k        : t.eng.tmp.k = s.eng.tmp.k

section
variable {s t u : State} {v : Variant}

theorem SameExchange.trans (h : SameExchange s t) (h' : SameExchange t u) : SameExchange s u where
  operands := h.operands.trans h'.operands
  cmd := h'.cmd.trans h.cmd
  phase := h'.phase.trans h.phase
  cursor := h'.cursor.trans h.cursor
  a := h'.a.trans h.a
  b := h'.b.trans h.b
  k := h'.k.trans h.k

theorem sideA_congr {e e' : Engine} (ha : e'.tmp.a = e.tmp.a) (hk : e'.tmp.k = e.tmp.k) :
    sideA v e' = sideA v e := by rw [sideA, ha, hk, sideA]

theorem sideB_congr {e e' : Engine} (hb : e'.tmp.b = e.tmp.b) (hk : e'.tmp.k = e.tmp.k) :
    sideB v e' = sideB v e := by rw [sideB, hb, hk, sideB]

theorem SameExchange.sideA_eq (h : SameExchange s t) (v : Variant) : sideA v t.eng = sideA v s.eng :=
  sideA_congr h.a h.k

theorem SameExchange.sideB_eq (h : SameExchange s t) (v : Variant) : sideB v t.eng = sideB v s.eng :=
  sideB_congr h.b h.k

theorem sameExchange_gotT0 (v : Variant) (s : State) : SameExchange s (gotT0 v s) :=
  ⟨.refl _, rfl, rfl, rfl, rfl, rfl, rfl⟩

theorem sameExchange_gotT1 (v : Variant) (s : State) : SameExchange s (gotT1 v s) :=
  ⟨.refl _, rfl, rfl, rfl, rfl, rfl, rfl⟩

theorem sameExchange_putA (v : Variant) (s : State) : SameExchange s (putA v s) :=
  ⟨.refl _, rfl, rfl, rfl, rfl, rfl, rfl⟩

theorem putB_trace (v : Variant) (s : State) :
    (putB v s).trace = .writeElem (sideB v s.eng) :: s.trace := by
  unfold putB exchangeDone
  split <;> rfl

/-- Before the last component the engine goes on to the next one of the same pair. -/
theorem putB_next (h : s.eng.tmp.k.toNat + 1 < v.group) :
    (putB v s).eng.stage = .loadA ∧ (putB v s).eng.cursor = s.eng.cursor ∧
      (putB v s).eng.tmp.a = s.eng.tmp.a ∧ (putB v s).eng.tmp.b = s.eng.tmp.b ∧
      (putB v s).eng.tmp.k.toNat = s.eng.tmp.k.toNat + 1 := by
  have hk : (s.eng.tmp.k + 1#1).toNat = s.eng.tmp.k.toNat + 1 := by
    have := Variant.group_le v
    rw [BitVec.toNat_add, BitVec.toNat_ofNat]
    omega
  unfold putB exchangeDone
  split
  case isTrue => exact ⟨rfl, rfl, rfl, rfl, hk⟩
  case isFalse hlast => exact absurd h hlast

/-- After the last component `CURSOR` is at the next pair. -/
theorem putB_last (h : s.eng.tmp.k.toNat + 1 = v.group) :
    (putB v s).eng.stage = .readA ∧ (putB v s).eng.cursor = s.eng.cursor + 2#17 := by
  unfold putB exchangeDone
  split
  case isTrue hnext => exact absurd h (Nat.ne_of_lt hnext)
  case isFalse => exact ⟨rfl, rfl⟩

/-- The step of a busy engine in the permute pass, with the rest of the run after it. -/
theorem engineRun_permuteStep (hp : s.eng.phase = .permute) (hv : s.eng.variant = some v)
    (h : permuteStep v s = .next t) (f : Nat) : engineRun (f + 1) s = engineRun f t := by
  have hb : s.busy = true := by
    rw [State.busy_eq_phase, hp]
    rfl
  exact engineRun_step hb ((engineStep_permute hp hv).trans h) f

end

/-- The accesses that exchange component `c` of the samples `a` and `b`. -/
def componentAccesses (g a b c : Nat) : List Access :=
  [.readElem (g * a + c), .readElem (g * b + c), .writeElem (g * a + c), .writeElem (g * b + c)]

/-- The four steps of one component: up to the last one nothing but the temporaries moves on, and the last
one writes the `b` side. -/
theorem engineRun_component {s : State} {l : Lease} (hr : Running s l) (hp : Permuting s l)
    (hg : s.eng.stage = .loadA) :
    ∃ u, engineRun 4 s = .next (putB l.variant u) ∧ SameExchange s u ∧
      (putB l.variant u).trace.reverse = s.trace.reverse ++
        componentAccesses l.variant.group s.eng.tmp.a.toNat s.eng.tmp.b.toNat s.eng.tmp.k.toNat := by
  have hprog := hp.progress
  simp only [pairProgress, hg] at hprog
  obtain ⟨hc, hA, hB, -⟩ := hprog
  obtain ⟨hsp, -⟩ := hr.spans
  have hkA := hp.sideA_lt hc hA hB
  have hkB := hp.sideB_lt hr hc hB
  have haA := elem_in_space hsp hkA
  have haB := elem_in_space hsp hkB
  have hvar {u : State} (h : SameExchange s u) : u.eng.variant = some l.variant := by
    rw [Engine.variant, h.cmd]
    exact hr.variant
  have hsideA {u : State} (h : SameExchange s u) : sideA l.variant u.eng < u.eng.nElem.toNat ∧
      elemAddr l.variant u.eng (sideA l.variant u.eng) + l.variant.bytes ≤ Config.addrSpace := by
    have ⟨_, hn, _⟩ := h.operands
    rw [h.sideA_eq, hn, elemAddr_congr h.operands]
    exact ⟨hkA, haA⟩
  have hsideB {u : State} (h : SameExchange s u) : sideB l.variant u.eng < u.eng.nElem.toNat ∧
      elemAddr l.variant u.eng (sideB l.variant u.eng) + l.variant.bytes ≤ Config.addrSpace := by
    have ⟨_, hn, _⟩ := h.operands
    rw [h.sideB_eq, hn, elemAddr_congr h.operands]
    exact ⟨hkB, haB⟩
  have hstep {u w : State} (h : SameExchange s u) (hw : permuteStep l.variant u = .next w) (f : Nat) :
      engineRun (f + 1) u = engineRun f w :=
    engineRun_permuteStep (h.phase.trans hp.phase) (hvar h) hw f
  have h1 := sameExchange_gotT0 l.variant s
  have h2 := h1.trans (sameExchange_gotT1 l.variant _)
  have h3 := h2.trans (sameExchange_putA l.variant _)
  have hlast : (putB l.variant (putA l.variant (gotT1 l.variant (gotT0 l.variant s)))).trace =
      .writeElem (sideB l.variant s.eng) :: .writeElem (sideA l.variant s.eng) ::
        .readElem (sideB l.variant s.eng) :: .readElem (sideA l.variant s.eng) :: s.trace := by
    rw [putB_trace, h3.sideB_eq, ← h2.sideA_eq, ← h1.sideB_eq]
    rfl
  refine ⟨putA l.variant (gotT1 l.variant (gotT0 l.variant s)), ?_, h3, ?_⟩
  · rw [engineRun_permuteStep hp.phase hr.variant (permuteStep_loadA hg hkA haA),
      hstep h1 (permuteStep_loadB rfl (hsideB h1).1 (hsideB h1).2),
      hstep h2 (permuteStep_storeA rfl (hsideA h2).1 (hsideA h2).2),
      hstep h3 (permuteStep_storeB rfl (hsideB h3).1 (hsideB h3).2), engineRun_zero]
  · rw [hlast]
    simp [componentAccesses, sideA, sideB, elemIndex]

/-- A permute pass that meets the invariant is the newest loan's. -/
theorem Inv.permuting {v : Variant} {s : State} (hi : Inv s) (hp : s.eng.phase = .permute)
    (hv : s.eng.variant = some v) :
    ∃ l older, s.loans = l :: older ∧ l.variant = v ∧ Running s l ∧ Permuting s l := by
  have hb : s.busy = true := by
    rw [State.busy_eq_phase, hp]
    rfl
  obtain ⟨-, -, -, hrun⟩ := hi
  obtain ⟨l, older, hl, hr⟩ := hrun hb
  refine ⟨l, older, hl, Option.some.inj (hr.variant.symm.trans hv), hr, hr.pass.resolve_left fun hval => ?_⟩
  have hphase := hval.phase
  rw [hp] at hphase
  cases hphase

/-! ### The components of one pair -/

/-- From the first access of component `k`, the components `k` to `k + n`, the last, are exchanged in
order. -/
theorem engineRun_components {v : Variant} {n : Nat} {s : State} (hi : Inv s)
    (hp : s.eng.phase = .permute) (hv : s.eng.variant = some v) (hg : s.eng.stage = .loadA)
    (hn : s.eng.tmp.k.toNat + (n + 1) = v.group) :
    ∃ t, engineRun (4 * (n + 1)) s = .next t ∧ t.eng.phase = .permute ∧ t.eng.stage = .readA ∧
      t.eng.cursor = s.eng.cursor + 2#17 ∧
      t.trace.reverse = s.trace.reverse ++ (List.range' s.eng.tmp.k.toNat (n + 1)).flatMap
        (componentAccesses v.group s.eng.tmp.a.toNat s.eng.tmp.b.toNat) := by
  induction n generalizing s with
  | zero =>
    obtain ⟨l, older, -, rfl, hr, hperm⟩ := hi.permuting hp hv
    obtain ⟨u, hrun, hsame, htrace⟩ := engineRun_component hr hperm hg
    rw [← hsame.k] at hn
    obtain ⟨hg', hcur⟩ := putB_last hn
    refine ⟨_, hrun, (putB_phase _ u).trans (hsame.phase.trans hp), hg', hsame.cursor ▸ hcur, ?_⟩
    simp [htrace]
  | succ n ih =>
    obtain ⟨l, older, -, rfl, hr, hperm⟩ := hi.permuting hp hv
    obtain ⟨u, hrun, hsame, htrace⟩ := engineRun_component hr hperm hg
    obtain ⟨hg', hcur, ha, hb, hk⟩ := putB_next (s := u) (v := l.variant) (by rw [hsame.k]; omega)
    have ⟨hcmd, _⟩ := engineRun_sameOperation hrun
    have hv' : (putB l.variant u).eng.variant = some l.variant := by
      rw [Engine.variant, hcmd]
      exact hv
    rw [hsame.k] at hk
    obtain ⟨t, hrest, hp', hgt, hcurt, htracet⟩ := ih (engineRun_inv hi hrun)
      ((putB_phase _ u).trans (hsame.phase.trans hp)) hv' hg' (by omega)
    refine ⟨t, ?_, hp', hgt, by rw [hcurt, hcur, hsame.cursor], ?_⟩
    · rw [Nat.mul_succ, Nat.add_comm, engineRun_add hrun, hrest]
    · rw [htracet, htrace, hk, ha, hb, hsame.a, hsame.b, List.append_assoc]
      rfl

/-! ### One pair (43_engine_common.md R145, R150) -/

/-- The engine holds the two samples of the pair at `CURSOR`, at the first access of component 0. -/
structure PairRead (v : Variant) (s u : State) : Prop where
  phase  : u.eng.phase = s.eng.phase
  stage  : u.eng.stage = .loadA
  cursor : u.eng.cursor = s.eng.cursor
  a      : u.eng.tmp.a = normIndex v (tabEntry s.eng s.mem s.eng.cursor.toNat)
  b      : u.eng.tmp.b = normIndex v (tabEntry s.eng s.mem (s.eng.cursor.toNat + 1))
  k      : u.eng.tmp.k = 0#1
  trace  : u.trace = .readEntry (s.eng.cursor.toNat + 1) :: .readEntry s.eng.cursor.toNat :: s.trace

theorem pairRead_gotB_gotA (v : Variant) (s : State) : PairRead v s (gotB v (gotA v s)) := by
  have hops : sameOperands s.eng (gotA v s).eng := .refl _
  have hcur : (gotA v s).eng.cursor = s.eng.cursor := rfl
  have hB (u : State) : (gotB v u).eng.phase = u.eng.phase ∧ (gotB v u).eng.cursor = u.eng.cursor ∧
      (gotB v u).eng.tmp.a = u.eng.tmp.a ∧
      (gotB v u).eng.tmp.b = normIndex v (tabEntry u.eng u.mem (u.eng.cursor.toNat + 1)) ∧
      (gotB v u).trace = .readEntry (u.eng.cursor.toNat + 1) :: u.trace := ⟨rfl, rfl, rfl, rfl, rfl⟩
  obtain ⟨hphase, hcursor, ha, hb, htrace⟩ := hB (gotA v s)
  rw [tabEntry_congr hops, hcur] at hb
  rw [hcur] at htrace
  exact ⟨hphase, rfl, hcursor, ha, hb, rfl, htrace⟩

/-- The two entry reads that begin a pair. -/
theorem engineRun_entries {s : State} {l : Lease} (hr : Running s l) (hp : Permuting s l)
    (hg : s.eng.stage = .readA) (hc : s.eng.cursor.toNat < s.eng.count) :
    ∃ u, engineRun 2 s = .next u ∧ PairRead l.variant s u := by
  obtain ⟨hsp, -⟩ := hr.spans
  have hc' := hp.pair_lt_count hr hc
  have hjA := hr.count_eq_tabLen ▸ hc
  have hjB := hr.count_eq_tabLen ▸ hc'
  have hA := permuteStep_readA (v := l.variant) hg hc hjA (entry_in_space hsp hjA)
  have hB := permuteStep_readB (v := l.variant) (s := gotA l.variant s) rfl hjB (entry_in_space hsp hjB)
  refine ⟨gotB l.variant (gotA l.variant s), ?_, pairRead_gotB_gotA l.variant s⟩
  rw [engineRun_permuteStep hp.phase hr.variant hA,
    engineRun_permuteStep (s := gotA l.variant s) hp.phase hr.variant hB, engineRun_zero]

/-- Where a pair begins, the buffer is the routine's after the pairs before it. -/
theorem Permuting.bufferIs_at_readA {s : State} {l : Lease} (hp : Permuting s l)
    (hg : s.eng.stage = .readA) :
    bufferIs l.variant s (bufAfter l.variant l.eng l.mem (s.eng.cursor.toNat / 2)) := by
  have hprog := hp.progress
  simp only [pairProgress, hg] at hprog
  exact hprog

/-- The routine's next pair, made of the buffer and the entries as the engine finds them. -/
theorem Permuting.bufAfter_next {s : State} {l : Lease} (hp : Permuting s l) (hr : Running s l)
    (hg : s.eng.stage = .readA) (hc : s.eng.cursor.toNat < s.eng.count) {k : Nat}
    (hk : k < s.eng.nElem.toNat) :
    bufAfter l.variant l.eng l.mem ((s.eng.cursor.toNat + 2) / 2) k =
      pairExchange l.variant.shift l.variant.group (bufElem l.variant s.eng s.mem)
        (tabEntry s.eng s.mem s.eng.cursor.toNat) (tabEntry s.eng s.mem (s.eng.cursor.toNat + 1)) k := by
  have hc' := hp.pair_lt_count hr hc
  have hcur : 2 * (s.eng.cursor.toNat / 2) = s.eng.cursor.toNat := by
    have := hp.even
    omega
  have hin (j : Nat) (hj : j < s.eng.count) := sample_le_of_inRange (allInRange_iff.1 hp.inRange j hj)
  rw [Nat.add_div_right _ (by decide), bufAfter_succ, hcur, ← hr.table _ hc, ← hr.table _ hc']
  exact exchangeComponents_congr_below (hin _ hc) (hin _ hc')
    (fun k hk => (hp.bufferIs_at_readA hg k hk).symm) k hk

/-- Settles O32: two entry reads, then the four accesses of each component; the invariant holds at both
ends and says what the buffer is there. -/
theorem onePairTakesItsAccessesInOrder : Obligations.OnePairTakesItsAccessesInOrder := by
  intro v s hi hp hg hv hc i a b
  obtain ⟨l, older, hl, rfl, hr, hperm⟩ := hi.permuting hp hv
  obtain ⟨u, hentries, hu⟩ := engineRun_entries hr hperm hg hc
  have ⟨hcmdu, _⟩ := engineRun_sameOperation hentries
  have hgroup := Nat.sub_add_cancel (Variant.group_pos l.variant)
  have hcomponents : u.eng.tmp.k.toNat + (l.variant.group - 1 + 1) = l.variant.group := by
    rw [hu.k, hgroup]
    exact Nat.zero_add _
  obtain ⟨t, hrun, hpt, hgt, hcurt, htrace⟩ := engineRun_components (engineRun_inv hi hentries)
    (hu.phase.trans hp) (by rw [Engine.variant, hcmdu]; exact hv) hu.stage hcomponents
  rw [hgroup] at hrun htrace
  have hpair : engineRun (2 + 4 * l.variant.group) s = .next t := by rw [engineRun_add hentries, hrun]
  have hcur : t.eng.cursor.toNat = i + 2 := by
    have := s.eng.count_lt
    rw [hcurt, hu.cursor, BitVec.toNat_add, BitVec.toNat_ofNat]
    omega
  refine ⟨t, hpair, hcur, hpt, hgt, ?_, fun k hk => ?_⟩
  · rw [htrace, hu.trace, hu.k, hu.a, hu.b, List.reverse_cons, List.reverse_cons, List.append_assoc,
      List.append_assoc, List.range_eq_range']
    rfl
  · obtain ⟨hcmd, hops, hloans, -⟩ := engineRun_sameOperation hpair
    obtain ⟨l', older', hl', -, -, hpermt⟩ :=
      (engineRun_inv hi hpair).permuting hpt (by rw [Engine.variant, hcmd]; exact hv)
    obtain ⟨rfl, -⟩ := List.cons.inj (hl'.symm.trans (hloans.trans hl))
    have ⟨_, hn, _⟩ := hops
    rw [hpermt.bufferIs_at_readA hgt k (by rwa [hn]), hcur]
    exact hperm.bufAfter_next hr hg hc hk

end Sys2Proof.Machine
end

section
/-! PROOFS. Nothing is kept from earlier operations (43_engine_common.md R155): two engines that hold the
same operands and see the same buffer and table go through an operation side by side. -/

namespace Sys2Proof.Machine

/-! ### What an operation can see -/

/-- The temporaries that the engine goes on to use from a stage of the permute pass are the same; the others
may hold anything (10_state.md R31). -/
def sameLive : Stage → Temps → Temps → Prop
  | .readA, _, _ | .testEntry, _, _ | .nextEntry, _, _ => True
  | .readB, t, t' => t'.a = t.a
  | .loadA, t, t' => t'.a = t.a ∧ t'.b = t.b ∧ t'.k = t.k
  | .loadB, t, t' => t'.a = t.a ∧ t'.b = t.b ∧ t'.k = t.k ∧ t'.t0 = t.t0
  | .storeA, t, t' | .storeB, t, t' => t'.a = t.a ∧ t'.b = t.b ∧ t'.k = t.k ∧ t'.t0 = t.t0 ∧ t'.t1 = t.t1

/-- Two memories hold the same bytes in the buffer and the table of an operation. -/
def sameSpanBytes (v : Variant) (e : Engine) (m m' : Memory) : Prop :=
  ∀ x, ((bufSpan v e).has x || (tabSpan e).has x) = true → m'.read x = m.read x

/-- Two engines stand at the same place of an operation of variant `v`, with the same operands, records,
buffer and table; the rest of their memories, the loans and the temporaries not in use may differ. -/
structure SameView (v : Variant) (s s' : State) : Prop where
  variant  : s.eng.variant = some v
  operands : sameOperands s.eng s'.eng
  cmd      : s'.eng.cmd = s.eng.cmd
  status   : s'.eng.status = s.eng.status
  cursor   : s'.eng.cursor = s.eng.cursor
  phase    : s'.eng.phase = s.eng.phase
  stage    : s'.eng.stage = s.eng.stage
  live     : sameLive s.eng.stage s.eng.tmp s'.eng.tmp
  trace    : s'.trace = s.trace
  mem_wf   : s.mem.wf
  mem_wf'  : s'.mem.wf
  bytes    : sameSpanBytes v s.eng s.mem s'.mem

section
variable {v : Variant} {e : Engine} {m m' : Memory}

theorem sameSpanBytes.tabEntry_eq (h : sameSpanBytes v e m m') {j : Nat} (hj : j < e.tabLen.toNat) :
    tabEntry e m' j = tabEntry e m j := by
  obtain ⟨hlo, hhi⟩ := entry_in_tabSpan hj
  refine tabEntry_mem_congr fun x hx hx' => h x ?_
  rw [Span.has_iff.2 ⟨hlo.trans hx, hx'.trans_le hhi⟩, Bool.or_true]

theorem sameSpanBytes.bufElem_eq (h : sameSpanBytes v e m m') {k : Nat} (hk : k < e.nElem.toNat) :
    bufElem v e m' k = bufElem v e m k := by
  obtain ⟨hlo, hhi⟩ := elem_in_bufSpan (v := v) hk
  refine bufElem_mem_congr fun x hx hx' => h x ?_
  rw [Span.has_iff.2 ⟨hlo.trans hx, hx'.trans_le hhi⟩, Bool.true_or]

/-- The same write to both memories. -/
theorem sameSpanBytes.setBufElem (h : sameSpanBytes v e m m') (hm : m.wf) (hm' : m'.wf) {k : Nat}
    (ha : elemAddr v e k + v.bytes ≤ Config.addrSpace) (y : BitVec 64) :
    sameSpanBytes v e (setBufElem v e m k y) (setBufElem v e m' k y) := by
  intro x hx
  rw [Machine.setBufElem, Machine.setBufElem, Memory.read_writeLE _ hm' ha, Memory.read_writeLE _ hm ha, h x hx]

end

section
variable {v : Variant} {s s' : State}

theorem SameView.busy_eq (h : SameView v s s') : s'.busy = s.busy := by
  rw [State.busy_eq_phase, h.phase, State.busy_eq_phase]

theorem SameView.tabEntry_eq (h : SameView v s s') {j : Nat} (hj : j < s.eng.tabLen.toNat) :
    tabEntry s'.eng s'.mem j = tabEntry s.eng s.mem j := by
  rw [tabEntry_congr h.operands, h.bytes.tabEntry_eq hj]

theorem SameView.bufElem_eq (h : SameView v s s') {k : Nat} (hk : k < s.eng.nElem.toNat) :
    bufElem v s'.eng s'.mem k = bufElem v s.eng s.mem k := by
  rw [bufElem_congr h.operands, h.bytes.bufElem_eq hk]

/-! ### The engine's steps, side by side -/

theorem SameView.log (h : SameView v s s') (x : Access) : SameView v (s.log x) (s'.log x) :=
  { h with trace := congrArg (x :: ·) h.trace }

theorem SameView.setStage_setTmp (h : SameView v s s') {t t' : Temps} {g : Stage} (hl : sameLive g t t') :
    SameView v ((s.setTmp t).setStage g) ((s'.setTmp t').setStage g) :=
  { h with stage := rfl, live := hl }

theorem SameView.atEntry (h : SameView v s s') : SameView v (atEntry s) (atEntry s') := by
  unfold Machine.atEntry
  rw [h.stage]
  split
  · exact { h with cursor := congrArg (· + 1#17) h.cursor }
  · exact h

theorem SameView.complete (h : SameView v s s') : SameView v (complete s) (complete s') :=
  { h with status := congrArg Status.completed h.status, phase := rfl, stage := rfl, live := trivial }

theorem SameView.raiseErr (h : SameView v s s') (code : ErrCode) (cur : BitVec 17) :
    SameView v (raiseErr code cur s) (raiseErr code cur s') :=
  { h with status := rfl, cursor := rfl, phase := rfl, stage := rfl, live := trivial }

theorem SameView.beginPermute (h : SameView v s s') : SameView v s.beginPermute s'.beginPermute :=
  { h with cursor := rfl, phase := rfl, stage := rfl, live := trivial }

theorem SameView.entryTested (h : SameView v s s') (raw : BitVec 16) :
    Alike (SameView v) (entryTested v raw s) (entryTested v raw s') := by
  have ⟨_, hn, _⟩ := h.operands
  rw [Machine.entryTested, Machine.entryTested, hn, count_congr h.operands, h.cursor]
  split
  · exact .next (h.raiseErr .range _)
  · split
    · exact .next h.beginPermute
    · exact .next { h with stage := rfl, live := trivial }

theorem SameView.validateStep (h : SameView v s s') :
    Alike (SameView v) (validateStep v s) (validateStep v s') := by
  have ht := h.atEntry
  rw [validateStep_eq, validateStep_eq, ht.cursor]
  refine readEntry_alike ht.operands fun hj => ?_
  rw [ht.tabEntry_eq hj]
  exact (ht.log _).entryTested _

theorem SameView.gotA (h : SameView v s s') (hj : s.eng.cursor.toNat < s.eng.tabLen.toNat) :
    SameView v (gotA v s) (gotA v s') := by
  rw [Machine.gotA, Machine.gotA, h.cursor, h.tabEntry_eq hj]
  exact (h.log _).setStage_setTmp rfl

theorem SameView.gotB (h : SameView v s s') (hg : s.eng.stage = .readB)
    (hj : s.eng.cursor.toNat + 1 < s.eng.tabLen.toNat) : SameView v (gotB v s) (gotB v s') := by
  have ha := h.live
  rw [hg] at ha
  rw [Machine.gotB, Machine.gotB, h.cursor, h.tabEntry_eq hj]
  exact (h.log _).setStage_setTmp ⟨ha, rfl, rfl⟩

/-- Inside an exchange the two sides are the same elements. -/
theorem SameView.sides_eq (h : SameView v s s')
    (hg : s.eng.stage = .loadA ∨ s.eng.stage = .loadB ∨ s.eng.stage = .storeA ∨ s.eng.stage = .storeB) :
    sideA v s'.eng = sideA v s.eng ∧ sideB v s'.eng = sideB v s.eng := by
  have hl := h.live
  obtain hg | hg | hg | hg := hg <;> rw [hg] at hl
  · obtain ⟨ha, hb, hk⟩ := hl
    exact ⟨sideA_congr ha hk, sideB_congr hb hk⟩
  all_goals
    obtain ⟨ha, hb, hk, -⟩ := hl
    exact ⟨sideA_congr ha hk, sideB_congr hb hk⟩

theorem SameView.gotT0 (h : SameView v s s') (hg : s.eng.stage = .loadA)
    (hk : sideA v s.eng < s.eng.nElem.toNat) :
    SameView v (gotT0 v s) (gotT0 v s') := by
  have hl := h.live
  rw [hg] at hl
  obtain ⟨ha, hb, hc⟩ := hl
  have ⟨hA, _⟩ := h.sides_eq (.inl hg)
  rw [Machine.gotT0, Machine.gotT0, hA, h.bufElem_eq hk]
  exact (h.log _).setStage_setTmp ⟨ha, hb, hc, rfl⟩

theorem SameView.gotT1 (h : SameView v s s') (hg : s.eng.stage = .loadB)
    (hk : sideB v s.eng < s.eng.nElem.toNat) :
    SameView v (gotT1 v s) (gotT1 v s') := by
  have hl := h.live
  rw [hg] at hl
  obtain ⟨ha, hb, hc, ht0⟩ := hl
  have ⟨_, hB⟩ := h.sides_eq (.inr (.inl hg))
  rw [Machine.gotT1, Machine.gotT1, hB, h.bufElem_eq hk]
  exact (h.log _).setStage_setTmp ⟨ha, hb, hc, ht0, rfl⟩

/-- The write of an element, the same in both. -/
theorem SameView.setMem_setBufElem (h : SameView v s s') {k : Nat}
    (ha : elemAddr v s.eng k + v.bytes ≤ Config.addrSpace) (y : BitVec 64) :
    SameView v (s.setMem (setBufElem v s.eng s.mem k y)) (s'.setMem (setBufElem v s'.eng s'.mem k y)) := by
  have he : setBufElem v s'.eng s'.mem k y = setBufElem v s.eng s'.mem k y := by
    rw [setBufElem, elemAddr_congr h.operands, setBufElem]
  rw [he]
  exact { h with
    mem_wf := wf_setBufElem y h.mem_wf ha
    mem_wf' := wf_setBufElem y h.mem_wf' ha
    bytes := h.bytes.setBufElem h.mem_wf h.mem_wf' ha y }

theorem SameView.putA (h : SameView v s s') (hg : s.eng.stage = .storeA)
    (ha : elemAddr v s.eng (sideA v s.eng) + v.bytes ≤ Config.addrSpace) :
    SameView v (putA v s) (putA v s') := by
  have hl := h.live
  rw [hg] at hl
  obtain ⟨-, -, -, -, ht1⟩ := id hl
  have ⟨hA, _⟩ := h.sides_eq (.inr (.inr (.inl hg)))
  rw [Machine.putA, Machine.putA, hA, ht1]
  exact { (h.setMem_setBufElem ha s.eng.tmp.t1).log _ with stage := rfl, live := hl }

theorem SameView.exchangeDone (h : SameView v s s') (hg : s.eng.stage = .storeB) :
    SameView v (exchangeDone v s) (exchangeDone v s') := by
  have hl := h.live
  rw [hg] at hl
  obtain ⟨ha, hb, hk, -⟩ := hl
  rw [Machine.exchangeDone, Machine.exchangeDone, hk, h.cursor]
  split
  · exact h.setStage_setTmp ⟨ha, hb, rfl⟩
  · exact { h with cursor := rfl, stage := rfl, live := trivial }

theorem SameView.putB (h : SameView v s s') (hg : s.eng.stage = .storeB)
    (ha : elemAddr v s.eng (sideB v s.eng) + v.bytes ≤ Config.addrSpace) :
    SameView v (putB v s) (putB v s') := by
  have hl := h.live
  rw [hg] at hl
  obtain ⟨-, -, -, ht0, -⟩ := hl
  have ⟨_, hB⟩ := h.sides_eq (.inr (.inr (.inr hg)))
  rw [Machine.putB, Machine.putB, hB, ht0]
  exact ((h.setMem_setBufElem ha s.eng.tmp.t0).log _).exchangeDone hg

theorem SameView.permuteStep (h : SameView v s s') :
    Alike (SameView v) (permuteStep v s) (permuteStep v s') := by
  have hops := h.operands
  have hstart (hg : atPairStart s) :
      Alike (SameView v) (Machine.permuteStep v s) (Machine.permuteStep v s') := by
    have hg' : atPairStart s' := by
      rw [atPairStart, h.stage]
      exact hg
    rw [permuteStep_at_pairStart hg, permuteStep_at_pairStart hg', count_congr hops, h.cursor]
    split
    · exact .next h.complete
    · exact readEntry_alike hops fun hj => .next (h.gotA hj)
  cases hg : s.eng.stage <;> have hg' := h.stage.trans hg
  case readA => exact hstart (.inl hg)
  case testEntry => exact hstart (.inr (.inl hg))
  case nextEntry => exact hstart (.inr (.inr hg))
  case readB =>
    rw [permuteStep_at_readB hg, permuteStep_at_readB hg', h.cursor]
    exact readEntry_alike hops fun hj => .next (h.gotB hg hj)
  case loadA =>
    rw [permuteStep_at_loadA hg, permuteStep_at_loadA hg', (h.sides_eq (.inl hg)).1]
    exact guardElem_alike hops fun hlt _ => .next (h.gotT0 hg hlt)
  case loadB =>
    rw [permuteStep_at_loadB hg, permuteStep_at_loadB hg', (h.sides_eq (.inr (.inl hg))).2]
    exact guardElem_alike hops fun hlt _ => .next (h.gotT1 hg hlt)
  case storeA =>
    rw [permuteStep_at_storeA hg, permuteStep_at_storeA hg', (h.sides_eq (.inr (.inr (.inl hg)))).1]
    exact guardElem_alike hops fun _ hin => .next (h.putA hg hin)
  case storeB =>
    rw [permuteStep_at_storeB hg, permuteStep_at_storeB hg', (h.sides_eq (.inr (.inr (.inr hg)))).2]
    exact guardElem_alike hops fun _ hin => .next (h.putB hg hin)

theorem SameView.engineStep (h : SameView v s s') :
    Alike (SameView v) (engineStep s) (engineStep s') := by
  refine engineStep_alike h.phase h.cmd h (fun u hu => ?_) fun u hu => ?_ <;>
    obtain rfl := Option.some.inj (h.variant.symm.trans hu)
  · exact h.validateStep
  · exact h.permuteStep

/-- Two atomic views of one operation end alike. -/
theorem SameView.runToEnd (h : SameView v s s') : Alike (SameView v) (runToEnd s) (runToEnd s') := by
  rw [Machine.runToEnd, Machine.runToEnd, engineFuel, engineFuel, count_congr h.operands]
  exact engineRun_alike (fun _ _ h => h.busy_eq) (fun _ _ h => h.engineStep) h _

/-! ### The launch, side by side -/

/-- Acceptance puts the engine at the same place, whatever it did before. -/
theorem sameView_accept (chk : Bool) (hm : s.mem.wf) (hm' : s'.mem.wf) (hops : sameOperands s.eng s'.eng)
    (hbytes : sameSpanBytes v s.eng s.mem s'.mem) :
    SameView v (accept v chk s) (accept v chk s') where
  variant := Engine.variant_of_launchWord (accept_cmd v chk s)
  operands := hops
  cmd := rfl
  status := rfl
  cursor := rfl
  phase := rfl
  stage := rfl
  live := by cases chk <;> trivial
  trace := rfl
  mem_wf := hm
  mem_wf' := hm'
  bytes := hbytes

theorem SameView.allInRange_eq (h : SameView v s s') (hlen : lengthMatches s.eng = true) :
    allInRange v s'.eng s'.mem = allInRange v s.eng s.mem := by
  have ⟨_, hn, _⟩ := h.operands
  rw [lengthMatches_eq_true] at hlen
  rw [Bool.eq_iff_iff, allInRange_iff, allInRange_iff, count_congr h.operands]
  refine forall_congr' fun j => forall_congr' fun hj => ?_
  rw [entryInRange_iff, entryInRange_iff, hn, h.tabEntry_eq (hlen ▸ hj)]

theorem withGoodSpans_alike {R : State → State → Prop} {out out' : Outcome}
    (hops : sameOperands s.eng s'.eng) (hplat : s'.platform = s.platform) (h : Alike R out out') :
    Alike R (withGoodSpans v s out) (withGoodSpans v s' out') := by
  rw [withGoodSpans, withGoodSpans, spansInSpace_congr hops, spansApart_congr hops, hplat,
    spansOrdinary_congr hops]
  split
  · exact .refused _
  split
  · exact .refused _
  split
  · exact .refused _
  exact h

/-- What follows acceptance in the atomic view. -/
theorem SameView.afterAccept (h : SameView v s s') (chk : Bool) (hplat : s'.platform = s.platform)
    (hs : s.sched = []) (hs' : s'.sched = []) :
    Alike (SameView v) (afterAccept v chk s) (afterAccept v chk s') := by
  have hops := h.operands
  rw [Machine.afterAccept, Machine.afterAccept, count_congr hops, aligned_congr hops, oddCount_congr hops,
    lengthMatches_congr hops, runUnlessScheduled_atomic hs, runUnlessScheduled_atomic hs']
  split
  · exact .next h.complete
  split
  · exact .next (h.raiseErr .align _)
  split
  · split
    · exact .next (h.raiseErr .oddLen _)
    · exact .fault _
  split
  · split
    · exact .next (h.raiseErr .tabLen _)
    · exact .fault _
  case isFalse hlen =>
    rw [h.allInRange_eq ((Bool.not_eq_false _).mp hlen)]
    refine withGoodSpans_alike hops hplat ?_
    split
    · exact h.runToEnd
    · split
      · exact h.runToEnd
      · exact .fault _

end

/-- Settles O46: from acceptance on, two such engines go through the operation side by side. -/
theorem nothingIsKeptFromEarlierOperations : Obligations.NothingIsKeptFromEarlierOperations := by
  intro v chk s s' hm hm' hb hb' hs hs' hops hplat hbytes
  have haccept : SameView v (accept v chk s) (accept v chk s') := sameView_accept chk hm hm' hops hbytes
  have halike := haccept.afterAccept chk hplat hs hs'
  rw [exec_ofVariant_idle v chk hb, exec_ofVariant_idle v chk hb']
  obtain ⟨t, t', ht, ht', h⟩ | hfault | hrefused := halike.cases
  · obtain ⟨-, hopst, -⟩ := afterAccept_sameOperation hb ht
    refine .inl ⟨t, t', ht, ht', fun x hx => h.bytes x ?_, h.cmd, h.status, h.cursor, h.busy_eq, h.trace⟩
    rw [bufSpan_congr hopst]
    exact Bool.or_eq_true_iff.2 (.inl hx)
  · exact .inr (.inl hfault)
  · exact .inr (.inr hrefused)

end Sys2Proof.Machine
end

section
/-! PROOFS. The errors of the block (60_exceptions.md): the tests on registers that end a launch at once, the
validation pass that ends at its first offending entry, the order of the causes, and that no error comes after
a buffer access. -/

namespace Sys2Proof.Machine

/-! ### The tests on registers (60_exceptions.md R173 to R175) -/

section
variable {v : Variant} {chk : Bool} {s : State}

theorem Engine.count_eq_zero_iff (e : Engine) : e.count = 0 ↔ e.bitRevLen = 0#16 :=
  BitVec.toNat_inj (y := 0#16)

theorem oddCount_eq_getLsbD (e : Engine) : oddCount e = e.bitRevLen.getLsbD 0 :=
  (Nat.testBit_zero e.count).symm

theorem Engine.lengthMatches_iff_setWidth (e : Engine) :
    lengthMatches e = true ↔ e.bitRevLen.setWidth 32 = e.tabLen := by
  have hcount : (e.bitRevLen.setWidth 32).toNat = e.count :=
    BitVec.toNat_setWidth_of_le (by decide)
  rw [lengthMatches_eq_true, ← BitVec.toNat_inj, hcount]

theorem count_ne_zero_of_odd {e : Engine} (h : oddCount e = true) : e.count ≠ 0 := by
  intro hzero
  simp [oddCount, hzero] at h

/-- An odd table base, or a buffer base that is no multiple of `W/8`, fails the alignment test. -/
theorem aligned_eq_false {e : Engine} (h : e.tabBase.getLsbD 0 = true ∨ e.bufBase.toNat % v.bytes ≠ 0) :
    aligned v e = false := by
  obtain htab | hbuf := h
  · have hodd : e.tabBase.toNat % 2 = 1 := by
      rw [BitVec.getLsbD, Nat.testBit_zero] at htab
      exact of_decide_eq_true htab
    simp [aligned, hodd]
  · simp [aligned, hbuf]

theorem afterAccept_misaligned (hn : s.eng.count ≠ 0) (hal : aligned v s.eng = false) :
    afterAccept v chk s = .next (raiseErr .align 0#17 s) := by
  rw [afterAccept, if_neg hn, if_pos hal]

theorem afterAccept_oddCount (hal : aligned v s.eng = true) (hodd : oddCount s.eng = true) :
    afterAccept v chk s = if chk then .next (raiseErr .oddLen 0#17 s) else .fault .oddCount := by
  rw [afterAccept, if_neg (count_ne_zero_of_odd hodd), if_neg (by simp [hal]), if_pos hodd]

theorem afterAccept_lengthMismatch (hn : s.eng.count ≠ 0) (hal : aligned v s.eng = true)
    (hev : oddCount s.eng = false) (hlen : lengthMatches s.eng = false) :
    afterAccept v chk s =
      if chk then .next (raiseErr .tabLen 0#17 s) else .fault .tableLengthMismatch := by
  rw [afterAccept, if_neg hn, if_neg (by simp [hal]), if_neg (by simp [hev]), if_pos hlen]

/-- What a launch leaves that a test on registers ends (60_exceptions.md R178). -/
theorem reports_of_exec_eq_raiseErr {code : ErrCode}
    (h : exec (Instr.ofVariant v chk) s = .next (raiseErr code 0#17 (accept v chk s)))
    (hcode : code ≠ .none) :
    ∃ t, exec (Instr.ofVariant v chk) s = .next t ∧ reportedFailure t ∧ t.eng.status.err = code ∧
      t.eng.cursor = 0#17 ∧ t.eng.cmd = encode (Instr.ofVariant v chk) ∧ t.mem = s.mem ∧ t.trace = [] ∧
      sameOperands s.eng t.eng ∧ sameSurroundings s t :=
  ⟨_, h, ⟨rfl, rfl, hcode⟩, rfl, rfl, (encode_ofVariant v chk).symm, rfl, rfl, .refl _, rfl, rfl, rfl, rfl,
    rfl⟩

end

/-- Settles O17: the alignment test is the first of a launch with a nonzero count. -/
theorem misalignedBaseEndsWithEAlign : Obligations.MisalignedBaseEndsWithEAlign := by
  intro v chk s hb hn hbase
  have hn' : (accept v chk s).eng.count ≠ 0 := s.eng.count_eq_zero_iff.not.2 hn
  have hal : aligned v (accept v chk s).eng = false := aligned_eq_false hbase
  refine reports_of_exec_eq_raiseErr ?_ nofun
  rw [exec_ofVariant_idle v chk hb, afterAccept_misaligned hn' hal]

/-- Settles O18: with aligned bases the parity of the count is tested next. -/
theorem oddCountEndsACheckedLaunch : Obligations.OddCountEndsACheckedLaunch := by
  intro v s hb hbit hal
  have hodd : oddCount s.eng = true := (oddCount_eq_getLsbD s.eng).trans hbit
  have hexec (chk : Bool) : exec (Instr.ofVariant v chk) s =
      if chk then .next (raiseErr .oddLen 0#17 (accept v chk s)) else .fault .oddCount := by
    rw [exec_ofVariant_idle v chk hb]
    exact afterAccept_oddCount (s := accept v chk s) hal hodd
  exact ⟨reports_of_exec_eq_raiseErr (hexec true) nofun, hexec false⟩

/-- Settles O19: with aligned bases and an even count the table's length is tested next, and a zero count
comes before every test. -/
theorem lengthMismatchEndsACheckedLaunch : Obligations.LengthMismatchEndsACheckedLaunch := by
  refine ⟨fun v s hb hn hbit hal hne => ?_, fun v chk s hb hzero => ?_⟩
  · have hn' : s.eng.count ≠ 0 := s.eng.count_eq_zero_iff.not.2 hn
    have hev : oddCount s.eng = false := (oddCount_eq_getLsbD s.eng).trans hbit
    have hlen : lengthMatches s.eng = false :=
      (Bool.not_eq_true _).mp (s.eng.lengthMatches_iff_setWidth.not.2 hne)
    have hexec (chk : Bool) : exec (Instr.ofVariant v chk) s =
        if chk then .next (raiseErr .tabLen 0#17 (accept v chk s)) else .fault .tableLengthMismatch := by
      rw [exec_ofVariant_idle v chk hb]
      exact afterAccept_lengthMismatch (s := accept v chk s) hn' hal hev hlen
    exact ⟨reports_of_exec_eq_raiseErr (hexec true) nofun, hexec false⟩
  · obtain ⟨t, ht, ⟨-, -, herr⟩, -⟩ := zeroCountCompletesAtOnce v chk s hb hzero
    exact ⟨t, ht, herr⟩

/-! ### Errors of a running operation (60_exceptions.md R170, R179) -/

section
variable {v : Variant} {s t : State}

theorem Inv.err_none (hi : Inv s) (hb : s.busy = true) : s.eng.status.err = .none := by
  obtain ⟨hbusy, -⟩ := hi.status_ok
  obtain ⟨-, herr⟩ := hbusy hb
  exact herr

/-- The permute pass leaves `ERR` alone and does not go back to the validation pass. -/
theorem permuteStep_err_phase (hp : s.eng.phase = .permute) (h : permuteStep v s = .next t) :
    t.eng.status.err = s.eng.status.err ∧ t.eng.phase ≠ .validate := by
  obtain ⟨-, -, rfl⟩ | ⟨-, -, -, rfl⟩ | ⟨-, -, rfl⟩ | ⟨-, -, rfl⟩ | ⟨-, -, rfl⟩ | ⟨-, -, -, rfl⟩ |
    ⟨-, -, -, rfl⟩ := permuteStep_next h
  · exact ⟨rfl, nofun⟩
  any_goals exact ⟨rfl, hp.trans_ne nofun⟩
  exact ⟨congrArg Status.err (putB_status v s), ((putB_phase v s).trans hp).trans_ne nofun⟩

/-- Outside the validation pass an engine step raises no error. -/
theorem engineStep_err_phase (hp : s.eng.phase ≠ .validate) (h : engineStep s = .next t) :
    t.eng.status.err = s.eng.status.err ∧ t.eng.phase ≠ .validate := by
  obtain ⟨-, rfl⟩ | ⟨v, hval, -, -⟩ | ⟨v, hperm, -, h⟩ := engineStep_next h
  · exact ⟨rfl, hp⟩
  · exact absurd hval hp
  · exact permuteStep_err_phase hperm h

end

/-- Settles O45: the invariant rules out every fault of the step, and the permute pass leaves `ERR` as it
was. -/
theorem runningOperationNeverStops : Obligations.RunningOperationNeverStops := by
  intro s hi hb
  obtain ⟨t, ht, -⟩ := hi.engineStep_answers hb
  refine ⟨t, ht, fun hp => ?_⟩
  obtain ⟨herr, -⟩ := engineStep_err_phase (hp.trans_ne nofun) ht
  exact herr.trans (hi.err_none hb)

/-! ### The first offending entry (43_engine_common.md R144, 60_exceptions.md R176) -/

/-- Entry `j` is the first of the operation that names an element outside the buffer. -/
structure FirstOffending (v : Variant) (e : Engine) (m : Memory) (j : Nat) : Prop where
  lt_count : j < e.count
  out      : entryInRange v e m j = false
  before   : ∀ i, i < j → entryInRange v e m i = true

section
variable {v : Variant} {e : Engine} {m : Memory} {i j : Nat}

theorem FirstOffending.le (hi : FirstOffending v e m i) (hj : FirstOffending v e m j) : i ≤ j := by
  refine Nat.le_of_not_lt fun hlt => ?_
  have hin := hi.before j hlt
  rw [hj.out] at hin
  cases hin

theorem FirstOffending.unique (hi : FirstOffending v e m i) (hj : FirstOffending v e m j) : i = j :=
  Nat.le_antisymm (hi.le hj) (hj.le hi)

theorem FirstOffending.allInRange_eq_false (h : FirstOffending v e m j) : allInRange v e m = false := by
  refine (Bool.not_eq_true _).mp fun hall => ?_
  have hin := allInRange_iff.1 hall j h.lt_count
  rw [h.out] at hin
  cases hin

end

/-- Where the operation launched from `s` stands, whatever memory holds: it is about to test an entry, it
ended at the first offending one, or it is past the validation pass with every entry in range. -/
inductive Course (v : Variant) (chk : Bool) (s : State) : State → Prop
  | testing (i : Nat) (checked : chk = true) (lt_count : i < s.eng.count)
      (before : ∀ k, k < i → entryInRange v s.eng s.mem k = true) :
      Course v chk s (entriesTested (accept v chk s) i)
  | failed (j : Nat) (checked : chk = true) (first : FirstOffending v s.eng s.mem j) :
      Course v chk s (rangeError (accept v chk s) j)
  | past {u : State} (phase : u.eng.phase ≠ .validate) (err : u.eng.status.err = .none)
      (inRange : allInRange v s.eng s.mem = true) : Course v chk s u

theorem entriesTested_status (s : State) (i : Nat) : (entriesTested s i).eng.status = s.eng.status := by
  induction i with
  | zero => rfl
  | succ i ih => exact (atEntry_status _).trans ih

section
variable {s : State} {v : Variant} {i : Nat}

/-- The step that tests the last entry, in range, begins the permute pass (43_engine_common.md R144 (d)). -/
theorem engineStep_entriesTested_last (hp : s.eng.phase = .validate) (hv : s.eng.variant = some v)
    (hg : s.eng.stage = .testEntry) (hcur : s.eng.cursor = 0#17) (hsp : spansInSpace v s.eng = true)
    (hlen : s.eng.count = s.eng.tabLen.toNat) (hi : i < s.eng.count)
    (hin : entryInRange v s.eng s.mem i = true) (hlast : s.eng.count ≤ i + 1) :
    engineStep (entriesTested s i) =
      .next ((atEntry (entriesTested s i)).log (.readEntry i)).beginPermute := by
  have ⟨_, hops, _⟩ := (entriesTested_sameOperation s i).trans (sameOperation_atEntry _)
  have ⟨_, hn, _⟩ := hops
  rw [engineStep_entriesTested hp hv hg hcur hsp hlen hi, entryTested, log_eng, hn, count_congr hops,
    entriesTested_cursor hg hcur (hi.trans s.eng.count_lt),
    if_neg (Nat.not_le.2 (entryInRange_iff.1 hin)), if_pos hlast]

end

section
variable {v : Variant} {chk : Bool} {s t u : State}

theorem Course.start (h : launchRuns v chk s) : Course v chk s (accept v chk s) := by
  obtain ⟨-, hn, -, -, -, -, hin⟩ := h
  cases chk
  case true => exact .testing 0 rfl (Nat.pos_of_ne_zero hn) nofun
  case false => exact .past nofun rfl (hin.resolve_left Bool.false_ne_true)

/-- The engine of a checked launch tests the next entry and goes on accordingly. -/
theorem Course.testing_answers (h : launchRuns v true s) {i : Nat} (hi : i < s.eng.count)
    (hbefore : ∀ k, k < i → entryInRange v s.eng s.mem k = true) :
    ∃ t, engineStep (entriesTested (accept v true s) i) = .next t ∧ Course v true s t := by
  have ⟨_, _, _, _, hlen, ⟨hsp, _⟩, _⟩ := h
  have hlen' := lengthMatches_eq_true.1 hlen
  have hvar : (accept v true s).eng.variant = some v := Engine.variant_of_launchWord (accept_cmd v true s)
  cases hin : entryInRange v s.eng s.mem i
  case false =>
    exact ⟨_, engineStep_entriesTested_outOfRange (s := accept v true s) rfl hvar rfl rfl hsp hlen' hi hin,
      .failed i rfl ⟨hi, hin, hbefore⟩⟩
  have hupto (k : Nat) (hk : k < i + 1) : entryInRange v s.eng s.mem k = true := by
    obtain hlt | rfl := Nat.lt_or_eq_of_le (Nat.le_of_lt_succ hk)
    · exact hbefore k hlt
    · exact hin
  by_cases hmore : i + 1 < s.eng.count
  · exact ⟨_, engineStep_entriesTested_inRange (s := accept v true s) rfl hvar rfl rfl hsp hlen' hi hin hmore,
      .testing (i + 1) rfl hmore hupto⟩
  · have hlast := Nat.le_of_not_lt hmore
    refine ⟨_, engineStep_entriesTested_last (s := accept v true s) rfl hvar rfl rfl hsp hlen' hi hin hlast,
      .past nofun ?_ (allInRange_iff.2 fun k hk => hupto k ?_)⟩
    · exact congrArg Status.err ((atEntry_status _).trans (entriesTested_status _ i))
    · exact Nat.lt_of_lt_of_le hk hlast

/-- A step of the engine keeps the operation on its course. -/
theorem Course.step (hruns : launchRuns v chk s) (hu : Course v chk s u)
    (h : engineStep u = .next t) : Course v chk s t := by
  cases hu with
  | testing i hchk hi hbefore =>
    subst hchk
    obtain ⟨w, hw, hcourse⟩ := Course.testing_answers hruns hi hbefore
    rw [hw] at h
    exact Host.Outcome.next.inj h ▸ hcourse
  | failed j hchk hfirst => exact Host.Outcome.next.inj h ▸ .failed j hchk hfirst
  | past hphase herr hin =>
    obtain ⟨herr', hphase'⟩ := engineStep_err_phase hphase h
    exact .past hphase' (herr'.trans herr) hin

theorem runToEnd_idle (h : runToEnd s = .next t) : t.busy = false := by
  obtain ⟨u, hu, hidle⟩ | ⟨r, hr⟩ := engineRun_ends_or_faults (stepsLeft_le_engineFuel s)
  · rw [runToEnd, hu] at h
    exact Host.Outcome.next.inj h ▸ hidle
  · rw [runToEnd, hr] at h
    cases h

/-- However far an accepted operation is taken, it is on its course. -/
theorem launchRuns.course (hruns : launchRuns v chk s) {f : Nat}
    (h : engineRun f (accept v chk s) = .next t) : Course v chk s t :=
  engineRun_keeps (fun _ _ hu _ => hu.step hruns) (Course.start hruns) h

/-- An error on the course is `E_RANGE` at the first offending entry. -/
theorem Course.of_err (h : Course v chk s t) (herr : t.eng.status.err ≠ .none) :
    ∃ j, FirstOffending v s.eng s.mem j ∧ t = rangeError (accept v chk s) j := by
  cases h with
  | testing i => exact absurd (congrArg Status.err (entriesTested_status _ i)) herr
  | failed j _ hfirst => exact ⟨j, hfirst, rfl⟩
  | past _ hnone => exact absurd hnone herr

/-- At its end on the course the operation failed at the first offending entry, or no entry offends. -/
theorem Course.of_idle (h : Course v chk s t) (hb : t.busy = false) :
    (∃ j, chk = true ∧ FirstOffending v s.eng s.mem j ∧ t = rangeError (accept v chk s) j) ∨
      (allInRange v s.eng s.mem = true ∧ t.eng.status.err = .none) := by
  cases h with
  | testing i hchk =>
    rw [State.busy_eq_phase, entriesTested_phase, accept_phase, hchk] at hb
    cases hb
  | failed j hchk hfirst => exact .inl ⟨j, hchk, hfirst, rfl⟩
  | past _ hnone hin => exact .inr ⟨hin, hnone⟩

/-- In the atomic view a checked launch ends at the first offending entry. -/
theorem FirstOffending.exec_eq {j : Nat} (h : FirstOffending v s.eng s.mem j) (hruns : launchRuns v true s)
    (hs : s.sched = []) :
    exec (Instr.ofVariant v true) s = .next (rangeError (accept v true s) j) := by
  have hnot : allInRange v s.eng s.mem ≠ true := by simp [h.allInRange_eq_false]
  have hstep (u : State) (hu : Course v true s u) (hb : u.busy = true) :
      ∃ w, engineStep u = .next w ∧ Course v true s w := by
    cases hu with
    | testing i _ hi hbefore => exact Course.testing_answers hruns hi hbefore
    | failed j => cases hb
    | past _ _ hin => exact absurd hin hnot
  obtain ⟨t, ht, hidle, hcourse⟩ :=
    engineRun_ends hstep (Course.start hruns) (stepsLeft_le_engineFuel (accept v true s))
  rw [exec_ofVariant_runs hruns, runUnlessScheduled_atomic (s := accept v true s) hs]
  obtain ⟨i, -, hi, rfl⟩ | ⟨hin, -⟩ := hcourse.of_idle hidle
  · exact hi.unique h ▸ ht
  · exact absurd hin hnot

end

/-- Settles O20: in the atomic view the validation pass ends at that entry (`FirstOffending.exec_eq`). -/
theorem firstOffendingEntryIsReported : Obligations.FirstOffendingEntryIsReported := by
  intro v s j hb hs hn hal hev hlen hsp hj hout hin
  have hfirst : FirstOffending v s.eng s.mem j :=
    ⟨hj, decide_eq_false (Nat.not_lt.2 hout), fun i hi => entryInRange_iff.2 (hin i hi)⟩
  obtain ⟨hfail, herr, hcur, hmem, htrace, hcmd, hops, -, hsurr⟩ :=
    rangeError_reports (s := accept v true s) rfl rfl (hj.trans s.eng.count_lt)
  exact ⟨_, hfirst.exec_eq ⟨hb, hn, hal, hev, hlen, hsp, .inl rfl⟩ hs, hfail, herr, hcur,
    hcmd.trans (encode_ofVariant v true).symm, hmem, htrace, hops, hsurr⟩

/-! ### No error comes after a buffer access (60_exceptions.md R179) -/

section
variable {v : Variant} {chk : Bool} {s t : State}

/-- What an error of an accepted launch leaves: memory as it was, and no buffer element touched. -/
theorem afterAccept_untouched_of_err (hb : s.busy = false) (h : afterAccept v chk (accept v chk s) = .next t)
    (herr : t.eng.status.err ≠ .none) :
    t.mem = s.mem ∧ ∀ k, Access.readElem k ∉ t.trace ∧ Access.writeElem k ∉ t.trace := by
  obtain rfl | ⟨code, rfl⟩ | ⟨hruns, f, hf⟩ := afterAccept_cases hb h
  · exact absurd rfl herr
  · exact ⟨rfl, fun k => ⟨List.not_mem_nil, List.not_mem_nil⟩⟩
  obtain ⟨j, hfirst, rfl⟩ := (hruns.course hf).of_err herr
  have htrace : (rangeError (accept v chk s) j).trace = ((List.range (j + 1)).map Access.readEntry).reverse :=
    List.reverse_eq_iff.1 (entriesTested_trace (accept v chk s) (j + 1))
  refine ⟨(atEntry_mem _).trans (entriesTested_mem _ j), fun k => ?_⟩
  rw [htrace]
  simp

/-- An error in a step of a running operation comes from its validation pass. -/
theorem Running.validating_of_err {l : Lease} (hr : Running s l) (hi : Inv s) (h : engineStep s = .next t)
    (herr : t.eng.status.err ≠ .none) : Validating s l := by
  refine hr.pass.resolve_right fun hp => herr ?_
  obtain ⟨hsame, -⟩ := engineStep_err_phase (hp.phase.trans_ne nofun) h
  exact hsame.trans (hi.err_none hr.busy)

end

/-- Settles O24: a command's error comes at once or at an entry, and a running operation's in its validation
pass, where memory is still as it was lent. -/
theorem errorsLeaveMemoryUntouched : Obligations.ErrorsLeaveMemoryUntouched := by
  refine ⟨fun i s t h herr => ?_, fun s t l hi hb hl h herr => ?_⟩
  · have ⟨hops, _⟩ := exec_sameOperands_sameSurroundings h
    obtain hi | ⟨v, chk, rfl⟩ := launchOf_cases i
    · refine ⟨exec_mem_of_no_launch hi h, hops, ?_⟩
      rintro v chk rfl
      rw [launchOf_ofVariant] at hi
      cases hi
    cases hb : s.busy
    case true =>
      rw [exec_busy _ hb] at h
      obtain rfl := Host.Outcome.next.inj h
      exact ⟨rfl, hops, fun _ _ _ hidle => nomatch hidle⟩
    case false =>
      rw [exec_ofVariant_idle v chk hb] at h
      obtain ⟨hmem, htrace⟩ := afterAccept_untouched_of_err hb h herr
      exact ⟨hmem, hops, fun _ _ _ _ => htrace⟩
  · obtain ⟨-, -, -, hrun⟩ := id hi
    obtain ⟨l', older, hl', hr⟩ := hrun hb
    obtain rfl : l' = l := by simpa [hl'] using hl
    have ⟨_, hops, _⟩ := engineStep_sameOperation h
    have hv := hr.validating_of_err hi h herr
    rw [engineStep_validate hv.phase hr.variant] at h
    have hmem := validateStep_mem h
    refine ⟨hmem, bufferIs_of_sameOperands hops hmem hv.buffer, fun j hj => ?_⟩
    rw [tabEntry_congr hops, hmem]
    exact hr.table j (count_congr hops ▸ hj)

/-! ### The order of the causes (60_exceptions.md R177) -/

/-- How an apply operation of an idle engine ends in the atomic view: at the first of the tests that fails,
with that test's error, or with no entry that offends. -/
theorem exec_ofVariant_ends {v : Variant} {chk : Bool} {s t : State} (hb : s.busy = false) (hs : s.sched = [])
    (h : exec (Instr.ofVariant v chk) s = .next t) :
    (s.eng.count = 0 ∧ t.eng.status.err = .none) ∨
    (s.eng.count ≠ 0 ∧ aligned v s.eng = false ∧ t.eng.status.err = .align) ∨
    (s.eng.count ≠ 0 ∧ aligned v s.eng = true ∧ oddCount s.eng = true ∧ t.eng.status.err = .oddLen) ∨
    (s.eng.count ≠ 0 ∧ aligned v s.eng = true ∧ oddCount s.eng = false ∧ lengthMatches s.eng = false ∧
      t.eng.status.err = .tabLen) ∨
    (s.eng.count ≠ 0 ∧ aligned v s.eng = true ∧ oddCount s.eng = false ∧ lengthMatches s.eng = true ∧
      ((∃ j, chk = true ∧ FirstOffending v s.eng s.mem j ∧ t = rangeError (accept v chk s) j) ∨
        (allInRange v s.eng s.mem = true ∧ t.eng.status.err = .none))) := by
  rw [exec_ofVariant_idle v chk hb] at h
  obtain ⟨hn, rfl⟩ | ⟨hn, hal, rfl⟩ | ⟨hn, hal, hodd, -, rfl⟩ | ⟨hn, hal, hev, hlen, -, rfl⟩ |
    ⟨hn, hal, hev, hlen, hsp, hin, hrun⟩ := afterAccept_next h
  · exact .inl ⟨hn, rfl⟩
  · exact .inr (.inl ⟨hn, hal, rfl⟩)
  · exact .inr (.inr (.inl ⟨hn, hal, hodd, rfl⟩))
  · exact .inr (.inr (.inr (.inl ⟨hn, hal, hev, hlen, rfl⟩)))
  · have hruns : launchRuns v chk s := ⟨hb, hn, hal, hev, hlen, hsp, hin⟩
    rw [runUnlessScheduled_atomic (s := accept v chk s) hs] at hrun
    exact .inr (.inr (.inr (.inr ⟨hn, hal, hev, hlen, (hruns.course hrun).of_idle (runToEnd_idle hrun)⟩)))

/-- A launch attempt that names no operation is a reserved one. -/
theorem exec_eq_reservedAttempt {i : Instr} {s : State} (hi : i.isLaunchAttempt = true)
    (hnone : i.launchOf = none) : exec i s = reservedAttempt s := by
  cases i with
  | applyScalar16 chk => cases hnone
  | applyComplex32 chk => cases hnone
  | applyComplex64 chk => cases hnone
  | nop rest => cases hi
  | reservedWsel3 chk => exact exec_reservedWsel3 chk s
  | reservedRsv rsv low => exact exec_reservedRsv rsv low s

/-- Settles O25: the tests on registers end the launch in this order, and after them only the first
offending entry does. -/
theorem onlyTheFirstCauseIsReported : Obligations.OnlyTheFirstCauseIsReported := by
  refine ⟨fun v chk s t hb hs h => ?_, fun v chk s t hb hs h herr => ?_, fun i s hb hi hnone => ?_⟩
  · have hodd_iff : s.eng.count % 2 = 1 ↔ oddCount s.eng = true := decide_eq_true_iff.symm
    have hlen_iff : s.eng.count ≠ s.eng.tabLen.toNat ↔ lengthMatches s.eng = false := by
      rw [Ne, ← lengthMatches_eq_true, Bool.not_eq_true]
    simp only [hodd_iff, hlen_iff]
    obtain ⟨hn, herr⟩ | ⟨hn, hal, herr⟩ | ⟨hn, hal, hodd, herr⟩ | ⟨hn, hal, hev, hlen, herr⟩ |
      ⟨hn, hal, hev, hlen, ⟨j, -, hfirst, rfl⟩ | ⟨hin, herr⟩⟩ := exec_ofVariant_ends hb hs h
    · simp [hn, herr]
    · simp [hn, hal, herr]
    · simp [hn, hal, hodd, herr]
    · simp [hn, hal, hev, hlen, herr]
    · have herr : (rangeError (accept v chk s) j).eng.status.err = .range := rfl
      simp [hn, hal, hev, hlen, hfirst.allInRange_eq_false, herr]
    · simp [hn, hal, hev, hlen, hin, herr]
  · obtain ⟨-, he⟩ | ⟨-, -, he⟩ | ⟨-, -, -, he⟩ | ⟨-, -, -, -, he⟩ |
      ⟨-, -, -, -, ⟨j, rfl, hfirst, rfl⟩ | ⟨-, he⟩⟩ := exec_ofVariant_ends hb hs h
    case inr.inr.inr.inr.inl =>
      have hcur : (rangeError (accept v true s) j).eng.cursor.toNat = j :=
        entriesTested_cursor rfl rfl (hfirst.lt_count.trans s.eng.count_lt)
      rw [hcur]
      exact ⟨hfirst.out, hfirst.before⟩
    all_goals
      rw [herr] at he
      cases he
  · rw [exec_eq_reservedAttempt hi hnone, reservedAttempt_idle hb]
    exact ⟨_, rfl, rfl⟩

end Sys2Proof.Machine
end

section
/-! PROOFS. Reset and hazards (70_reset_and_hazards.md): what a reset leaves (R200 to R202), how long a
buffer stays lent (R205, R209) and what is refused meanwhile (R205, R206). -/

namespace Sys2Proof.Machine

/-! ### The loans (70_reset_and_hazards.md R205, R209) -/

/-- An accepted launch opens its loan in front of the open ones, however it goes on. -/
theorem afterAccept_loans {v : Variant} {chk : Bool} {s t : State} (hb : s.busy = false)
    (h : afterAccept v chk (accept v chk s) = .next t) : t.loans = launchLease v chk s :: s.loans := by
  obtain ⟨-, -, hloans, -⟩ := afterAccept_sameOperation hb h
  exact hloans

theorem exec_mem_loans {i : Instr} {s t : State} {l : Lease} (h : exec i s = .next t) (hl : l ∈ s.loans) :
    l ∈ t.loans := by
  obtain ⟨rfl, -⟩ | ⟨-, -, -, rfl⟩ | ⟨v, chk, -, hb, ha⟩ := exec_next h
  · exact hl
  · exact hl
  · rw [afterAccept_loans hb ha]
    exact .tail _ hl

/-- An access closes a loan only when it reads `STATUS` with `BUSY = 0`. -/
theorem hostAccess_mem_loans {x : Input} {s t : State} {l : Lease} (h : hostAccess x s = .next t)
    (hl : l ∈ s.loans) :
    l ∈ t.loans ∨ (s.busy = false ∧ (x = .regRead (Reg.offset .status) 4 ∨ x = .poll)) := by
  obtain ⟨w, -, he⟩ | ⟨-, -, -, -, -, rfl⟩ | ⟨r, w, -, -, -, rfl⟩ | ⟨r, rfl, rfl⟩ | ⟨rfl, rfl⟩ |
    ⟨_, _, -, -, -, -, -, rfl⟩ | ⟨_, _, -, rfl⟩ | ⟨-, rfl⟩ := hostAccess_next h
  · exact .inl (exec_mem_loans he hl)
  · exact .inl hl
  · exact .inl hl
  · by_cases hclose : r = .status ∧ s.busy = false
    · obtain ⟨rfl, hb⟩ := hclose
      exact .inr ⟨hb, .inl rfl⟩
    · left
      rwa [hostRead, if_neg hclose]
  · cases hb : s.busy
    case false => exact .inr ⟨rfl, .inr rfl⟩
    case true =>
      left
      rwa [hostPoll_loans hb]
  · exact .inl hl
  · exact .inl hl
  · left
    rwa [applyReset_loans]

/-- Settles O50: acceptance puts the new loan in front of the others, and of all that a step can be, only
the read of `STATUS` by the outside world takes loans away. -/
theorem loansStayOpenUntilStatusIsRead : Obligations.LoansStayOpenUntilStatusIsRead := by
  refine ⟨fun v chk s t hb h => ?_, fun s t l h hl => ?_⟩
  · rw [exec_ofVariant_idle v chk hb] at h
    exact ⟨launchLease v chk s, afterAccept_loans hb h, rfl, .refl _, rfl⟩
  obtain ⟨turns, f, -, hrun⟩ | ⟨turns, -, rfl⟩ | ⟨x, rest, turns, hx, ha⟩ := step_cases h
  · obtain ⟨-, -, hloans, -⟩ := engineRun_sameOperation hrun
    exact .inl (hloans ▸ hl)
  · exact .inl hl
  · refine (hostAccess_mem_loans ha hl).imp_right fun ⟨hb, hread⟩ => ⟨hb, rest, ?_⟩
    rw [hx]
    exact hread.imp (congrArg (· :: rest)) (congrArg (· :: rest))

/-! ### Refused writes (70_reset_and_hazards.md R205, R206) -/

section
variable {addr : Word} {data : List Byte} {s : State}
  (ha : addr.toNat + data.length ≤ Config.addrSpace)
  (hord : s.platform.ordinary (accessSpan addr data.length) = true)
include ha hord

theorem hostMemWrite_lentBuffer (hl : touchesLentBuffer (accessSpan addr data.length) s = true) :
    hostMemWrite addr data s = .refused .bufferWriteWhileLent := by
  rw [hostMemWrite, withOrdinaryAccess_ok ha hord, if_pos hl]

theorem hostMemWrite_busyTable (hl : touchesLentBuffer (accessSpan addr data.length) s = false)
    (ht : touchesBusyTable (accessSpan addr data.length) s = true) :
    hostMemWrite addr data s = .refused .tableWriteWhileBusy := by
  rw [hostMemWrite, withOrdinaryAccess_ok ha hord, hl, if_neg Bool.false_ne_true, if_pos ht]

end

/-- Settles O47: the test for lent buffers comes first, the one for the table in use after it. -/
theorem lentMemoryIsProtected : Obligations.LentMemoryIsProtected := by
  refine fun s addr data ha hord => ⟨fun l hl hov => ?_, fun hlent hb hov => ?_⟩
  · exact hostMemWrite_lentBuffer ha hord (touchesLentBuffer_eq_true.2 ⟨l, hl, hov⟩)
  · refine hostMemWrite_busyTable ha hord (touchesLentBuffer_eq_false.2 hlent) ?_
    rw [touchesBusyTable, hb, hov]
    rfl

/-! ### The registers after a reset (70_reset_and_hazards.md R200, 10_state.md R36) -/

theorem regWord_reset (r : Reg) : Engine.reset.regWord r = 0#32 := by
  cases r <;> rfl

theorem applyReset_regWord (s : State) (r : Reg) : (applyReset s).eng.regWord r = 0#32 := by
  rw [applyReset_eng, regWord_reset]

theorem applyReset_busy (s : State) : (applyReset s).busy = false := by
  rw [State.busy, applyReset_eng]
  rfl

/-- Settles O41: the reset puts in `Engine.reset`, and only the reset of a busy engine reaches the buffer. -/
theorem resetPutsEveryRegisterAtItsValue : Obligations.ResetPutsEveryRegisterAtItsValue := by
  refine ⟨fun s => ⟨applyReset s, rfl, applyReset_regWord s, ?_, fun hb => ?_⟩, regWord_reset, rfl⟩
  · rw [applyReset_eng]
    rfl
  · rw [applyReset, if_neg (by simp [hb]), resetEngine_mem]

/-! ### The elements that no entry names (20_memory.md R64) -/

theorem exchangeComponents_other {α : Type} (B : Nat → α) {g a b c k : Nat}
    (hk : ∀ i, i < c → k ≠ g * a + i ∧ k ≠ g * b + i) : exchangeComponents g a b c B k = B k := by
  induction c with
  | zero => rfl
  | succ c ih =>
    obtain ⟨ha, hb⟩ := hk c (Nat.lt_succ_self c)
    rw [exchangeComponents_succ, swapElems_other _ ha hb]
    exact ih fun i hi => hk i (hi.trans (Nat.lt_succ_self c))

section
variable {l : Lease} {k : Nat}

theorem mem_namedElems : k ∈ namedElems l ↔ ∃ j c, j < l.eng.count ∧ c < l.variant.group ∧
    k = elemIndex l.variant (normIndex l.variant (tabEntry l.eng l.mem j)) c := by
  simp [namedElems, eq_comm]

theorem exchangeComponents_of_not_named (hk : k ∉ namedElems l) {i j c : Nat} (hi : i < l.eng.count)
    (hj : j < l.eng.count) (hc : c ≤ l.variant.group) (B : Nat → BitVec 64) :
    exchangeComponents l.variant.group (normIndex l.variant (tabEntry l.eng l.mem i)).toNat
      (normIndex l.variant (tabEntry l.eng l.mem j)).toNat c B k = B k :=
  exchangeComponents_other B fun d hd =>
    ⟨fun h => hk (mem_namedElems.2 ⟨i, d, hi, hd.trans_le hc, h⟩),
      fun h => hk (mem_namedElems.2 ⟨j, d, hj, hd.trans_le hc, h⟩)⟩

/-- The routine leaves an element that no entry names as it was lent (43_engine_common.md R162). -/
theorem bufAfter_of_not_named (hk : k ∉ namedElems l) {p : Nat} (hp : 2 * p ≤ l.eng.count) :
    bufAfter l.variant l.eng l.mem p k = bufElem l.variant l.eng l.mem k := by
  induction p with
  | zero => rfl
  | succ p ih =>
    rw [bufAfter_succ, exchangeComponents_of_not_named hk (by omega) (by omega) le_rfl]
    exact ih (by omega)

variable {s : State}

theorem beforeExchange_of_not_named (hr : Running s l) (hp : Permuting s l) (hk : k ∉ namedElems l)
    (hc : s.eng.cursor.toNat < s.eng.count) (hB : holdsB l.variant s) :
    beforeExchange s l k = bufElem l.variant l.eng l.mem k := by
  have hpair := hp.pair_lt_count hr hc
  obtain ⟨-, -, hcomp⟩ := hB
  rw [count_congr hr.operands] at hpair
  rw [beforeExchange, partDone, exchangeComponents_of_not_named hk (by omega) (by omega) hcomp.le,
    bufAfter_of_not_named hk (by omega)]

/-- The side that an exchange writes first is named. -/
theorem sideA_mem_namedElems (hr : Running s l) (hc : s.eng.cursor.toNat < s.eng.count)
    (hA : holdsA l.variant s) (hB : holdsB l.variant s) : sideA l.variant s.eng ∈ namedElems l := by
  obtain ⟨-, -, hcomp⟩ := hB
  refine mem_namedElems.2 ⟨s.eng.cursor.toNat, _, count_congr hr.operands ▸ hc, hcomp, ?_⟩
  rw [hA.sideA_eq, hr.table _ hc]

/-- At every stage of the permute pass an element that no entry names is as it was lent. -/
theorem Permuting.bufElem_of_not_named (hp : Permuting s l) (hr : Running s l) (hk : k ∉ namedElems l)
    (hlt : k < s.eng.nElem.toNat) :
    bufElem l.variant s.eng s.mem k = bufElem l.variant l.eng l.mem k := by
  have hbound := hp.bounded
  rw [count_congr hr.operands] at hbound
  have hpairs := bufAfter_of_not_named (p := s.eng.cursor.toNat / 2) hk (by omega)
  have hprog := hp.progress
  unfold pairProgress at hprog
  cases hg : s.eng.stage <;> simp only [hg] at hprog
  case readA => rw [hprog k hlt, hpairs]
  case readB =>
    obtain ⟨-, -, hbuf⟩ := hprog
    rw [hbuf k hlt, hpairs]
  case loadA =>
    obtain ⟨hc, -, hB, hbuf⟩ := hprog
    rw [hbuf k hlt, beforeExchange_of_not_named hr hp hk hc hB]
  case loadB | storeA =>
    obtain ⟨hc, -, hB, hbuf, -⟩ := hprog
    rw [hbuf k hlt, beforeExchange_of_not_named hr hp hk hc hB]
  case storeB =>
    obtain ⟨hc, hA, hB, hbuf, -⟩ := hprog
    have hside : k ≠ sideA l.variant s.eng := fun h => hk (h ▸ sideA_mem_namedElems hr hc hA hB)
    exact (hbuf k hlt).trans ((if_neg hside).trans (beforeExchange_of_not_named hr hp hk hc hB))

/-- The operation of an engine in the permute pass is one that permutes its buffer: the lent table is the
one in use. -/
theorem Permuting.lease_permutes (hp : Permuting s l) (hr : Running s l) : l.permutes = true := by
  have hops := hr.operands
  have hin := hp.inRange
  rw [allInRange_congr hops] at hin
  refine contractHolds_iff.2 ⟨count_congr hops ▸ hr.nonzero, aligned_congr hops _ ▸ hr.aligned,
    oddCount_congr hops ▸ hr.evenLen, lengthMatches_congr hops ▸ hr.length,
    allInRange_mem_congr (fun j hj => ?_) hin⟩
  rw [← tabEntry_congr hops s.mem]
  exact (hr.table j (by rwa [count_congr hops])).symm

/-- While an operation runs, an element stays as it was lent if the operation permutes nothing
(60_exceptions.md R179) or no entry names the element. -/
theorem Running.bufElem_as_lent (hr : Running s l) (hkeep : l.permutes = false ∨ k ∉ namedElems l)
    (hlt : k < l.eng.nElem.toNat) :
    bufElem l.variant l.eng s.mem k = bufElem l.variant l.eng l.mem k := by
  have ⟨_, hn, _⟩ := hr.operands
  rw [← hn] at hlt
  rw [← bufElem_congr hr.operands l.variant s.mem]
  obtain hv | hp := hr.pass
  · exact hv.buffer k hlt
  · obtain hno | hk := hkeep
    · cases hno.symm.trans (hp.lease_permutes hr)
    · exact hp.bufElem_of_not_named hr hk hlt

end

/-! ### The memory after a reset in the middle of an operation (70_reset_and_hazards.md R202) -/

section
variable {v : Variant} {e : Engine} {f : Nat → BitVec 64} {ks : List Nat} {m : Memory}
  (hsp : spansInSpace v e = true) (hks : ∀ k, k ∈ ks → k < e.nElem.toNat) (hm : m.wf)
include hsp hks hm

/-- Elements written one after the other leave every other byte. -/
theorem read_foldl_setBufElem {x : Nat}
    (hx : ∀ k, k ∈ ks → x < elemAddr v e k ∨ elemAddr v e k + v.bytes ≤ x) :
    (ks.foldl (fun m k => setBufElem v e m k (f k)) m).read x = m.read x := by
  induction ks generalizing m with
  | nil => rfl
  | cons k ks ih =>
    obtain ⟨hk, hks⟩ := List.forall_mem_cons.1 hks
    obtain ⟨hxk, hx⟩ := List.forall_mem_cons.1 hx
    have ha := elem_in_space hsp hk
    rw [List.foldl_cons, ih hks (wf_setBufElem _ hm ha) hx, read_setBufElem_outside _ hm ha hxk]

/-- The buffer after elements were written one after the other, each with a value of its own. -/
theorem bufElem_foldl_setBufElem (hf : ∀ k, (f k).toNat < 2 ^ v.width) (j : Nat) :
    bufElem v e (ks.foldl (fun m k => setBufElem v e m k (f k)) m) j =
      if j ∈ ks then f j else bufElem v e m j := by
  induction ks generalizing m with
  | nil => rfl
  | cons k ks ih =>
    obtain ⟨hk, hks⟩ := List.forall_mem_cons.1 hks
    have ha := elem_in_space hsp hk
    rw [List.foldl_cons, ih hks (wf_setBufElem _ hm ha), bufElem_setBufElem hm ha (hf k)]
    by_cases hj : j ∈ ks
    · simp [hj]
    · by_cases hjk : j = k <;> simp [hj, hjk]

end

section
variable {l : Lease} {m : Memory} (hp : l.permutes = true) (hsp : spansInSpace l.variant l.eng = true)
  (hm : m.wf)

theorem observedElem_lt (l : Lease) (draw k : Nat) : (observedElem l draw k).toNat < 2 ^ l.variant.width := by
  obtain ⟨j, hj⟩ := applyPairs_value l.variant.shift l.variant.group (bufElem l.variant l.eng l.mem)
    (tabEntry l.eng l.mem) (observedPairs l draw k) k
  rw [observedElem, bufAfter, hj]
  exact bufElem_lt ..

include hp hsp hm

theorem read_cutShort_of_not_named {x : Nat} (hx : ¬ namedByte l.variant l.eng l.mem x) (draw : Nat) :
    (cutShort l draw m).read x = m.read x := by
  refine read_foldl_setBufElem hsp (fun _ => namedElems_lt hp) hm fun k hk => ?_
  obtain ⟨j, c, hj, hc, rfl⟩ := mem_namedElems.1 hk
  by_contra hin
  rw [not_or, Nat.not_lt, Nat.not_le] at hin
  obtain ⟨hlo, hhi⟩ := hin
  exact hx ⟨j, c, hj, hc, hlo, hhi⟩

theorem bufElem_cutShort (draw k : Nat) :
    bufElem l.variant l.eng (cutShort l draw m) k =
      if k ∈ namedElems l then observedElem l draw k else bufElem l.variant l.eng m k :=
  bufElem_foldl_setBufElem hsp (fun _ => namedElems_lt hp) hm (observedElem_lt l draw) k

end

section
variable {s : State} {l : Lease} {older : List Lease} (hb : s.busy = true) (hl : s.loans = l :: older)
include hb hl

theorem applyReset_mem_of_permutes (hp : l.permutes = true) :
    (applyReset s).mem = cutShort l s.draws s.mem := by
  simp [applyReset, hb, hl, hp]

theorem applyReset_mem_of_not_permutes (hp : l.permutes = false) : (applyReset s).mem = s.mem := by
  simp [applyReset, hb, hl, hp]

end

/-- No byte of the table is one that an entry names, since the spans are apart
(70_reset_and_hazards.md R208). -/
theorem Running.not_namedByte_of_table {s : State} {l : Lease} (hr : Running s l) (hp : l.permutes = true)
    {x : Nat} (hx : (tabSpan s.eng).has x = true) : ¬ namedByte l.variant l.eng l.mem x := by
  rintro ⟨j, c, hj, hc, hlo, hhi⟩
  obtain ⟨-, hap, -⟩ := hr.spans
  rw [spansApart_congr hr.operands] at hap
  rw [tabSpan_congr hr.operands] at hx
  obtain h | h := apart_bytes hap (namedElems_lt hp (mem_namedElems.2 ⟨j, c, hj, hc, rfl⟩)) hx <;> omega

/-- Settles O52: an operation that permutes leaves each named element at a value of the routine, and the
rest of memory as it was; before its permute pass every element is still as lent, the value after no
pair. -/
theorem resetDuringAnOperation : Obligations.ResetDuringAnOperation := by
  intro s l hi hb hhead
  obtain ⟨hm, -, -, hrun⟩ := hi
  obtain ⟨l', older, hl, hr⟩ := hrun hb
  obtain rfl : l' = l := by simpa [hl] using hhead
  obtain ⟨hsp, -⟩ := hr.spans
  rw [spansInSpace_congr hr.operands] at hsp
  refine ⟨applyReset s, rfl, applyReset_regWord s, applyReset_busy s, ?_⟩
  cases hp : l'.permutes
  case false =>
    rw [applyReset_mem_of_not_permutes hb hl hp]
    exact ⟨fun _ _ => rfl, fun _ _ => rfl,
      fun k hk => ⟨0, Nat.zero_le _, hr.bufElem_as_lent (.inl hp) hk⟩⟩
  case true =>
    rw [applyReset_mem_of_permutes hb hl hp]
    have hframe (x : Nat) (hx : ¬ namedByte l'.variant l'.eng l'.mem x) :=
      read_cutShort_of_not_named hp hsp hm hx s.draws
    refine ⟨fun x hx => hframe x (hr.not_namedByte_of_table hp hx), hframe, fun k hk => ?_⟩
    rw [bufElem_cutShort hp hsp hm]
    split
    case isTrue => exact ⟨observedPairs l' s.draws k, observedPairs_le .., rfl⟩
    case isFalse hno => exact ⟨0, Nat.zero_le _, hr.bufElem_as_lent (.inr hno) hk⟩

end Sys2Proof.Machine
end
